-- ==== Sys2Proof/Word.lean ====
section
/-! DEFINITION. The widths of ECC-CORE: the 32-bit bus and command word, the 256-bit operand
(00_scope.md R6, 10_state.md R22, 30_encoding.md R80). -/

namespace Sys2Proof

/-- One word of the bus, and one command word (20_memory.md R60, 30_encoding.md R80). -/
abbrev Word := BitVec 32

/-- The contents of one operand or curve parameter register: a 256-bit unsigned integer
(10_state.md R22, R32). -/
abbrev Val := BitVec 256

/-- A 4-bit report field: ERRCODE or ERRINFO (10_state.md R31, R38). -/
abbrev Nibble := BitVec 4

end Sys2Proof
end

