-- ==== Sys2Proof/Syntax.lean ====
section
/-! DEFINITION. The command set, version 1: one constructor per row of spec/opcode_table.json
(00_scope.md R2, 30_encoding.md R84). The operands are those of 30_encoding.md R84, R85, in the order
of the assembler forms of R90, after the flags. -/

namespace Sys2Proof

/-- A `v` operand: one of `V0`-`V15`. An `e` operand (an even/odd pair) is given by its first
register, and `Instr.wf` requires that one to be even (30_encoding.md R85). -/
abbrev VReg := Fin 16

/-- A `p` operand: one of `P0`-`P7` (30_encoding.md R85). -/
abbrev PReg := Fin 8

/-- The modulus selected by flag `M` (30_encoding.md R83): `p` is `CUR.P`, `n` is `CUR.N`. -/
inductive Modulus where
  | p
  | n
deriving DecidableEq, Repr

/-- The 17 commands. `neg` is the flag `NEG` or `S`: the source is negated (30_encoding.md R83). -/
inductive Instr where
  /-- `NOP` (44_system.md R170). -/
  | nop
  /-- `FRED.m vd, ±va` (40_field.md R102). -/
  | fred (m : Modulus) (neg : Bool) (vd va : VReg)
  /-- `FINV.m vd, ±va` (40_field.md R103). -/
  | finv (m : Modulus) (neg : Bool) (vd va : VReg)
  /-- `FADD.m vd, va, vb` (40_field.md R104). -/
  | fadd (m : Modulus) (vd va vb : VReg)
  /-- `FSUB.m vd, va, vb` (40_field.md R105). -/
  | fsub (m : Modulus) (vd va vb : VReg)
  /-- `FMUL.m vd, va, vb` (40_field.md R106). -/
  | fmul (m : Modulus) (vd va vb : VReg)
  /-- `PADD pd, pa, pb` (41_point.md R122). -/
  | padd (pd pa pb : PReg)
  /-- `PDBL pd, pa` (41_point.md R123). -/
  | pdbl (pd pa : PReg)
  /-- `PNEG pd, pa` (41_point.md R125). -/
  | pneg (pd pa : PReg)
  /-- `PCHK pa` (41_point.md R126). -/
  | pchk (pa : PReg)
  /-- `PEQ pa, pb` (41_point.md R127). -/
  | peq (pa pb : PReg)
  /-- `PLDG pd` (41_point.md R128). -/
  | pldg (pd : PReg)
  /-- `PMUL pd, pa, ±vk` (42_scalar.md R141). -/
  | pmul (neg : Bool) (pd pa : PReg) (vk : VReg)
  /-- `PORD vd, pa` (42_scalar.md R142). -/
  | pord (vd : VReg) (pa : PReg)
  /-- `HTRUNC vd, vh` (43_ecdsa.md R152). -/
  | htrunc (vd vh : VReg)
  /-- `SIGN vd, vh, vkey, vk`, `vd` even (43_ecdsa.md R153). -/
  | sign (vd vh vkey vk : VReg)
  /-- `VERIFY vh, vr, pq`, `vr` even, with the flags `ROVF`, `SOVF` (43_ecdsa.md R156). -/
  | verify (rovf sovf : Bool) (vh vr : VReg) (pq : PReg)
deriving DecidableEq, Repr

end Sys2Proof
end

