-- ==== Sys2Proof/WellFormed.lean ====
section
/-! DEFINITION. Which terms of `Instr` a command word can stand for (30_encoding.md R85, R87). The
ranges of the `v` and `p` kinds are in the types; the one check left is that an `e` operand is
even. -/

namespace Sys2Proof

/-- `f[0] = 0`: the register may start an `e` pair (30_encoding.md R85). -/
def VReg.isEven (r : VReg) : Bool := r.val % 2 == 0

/-- The field constraints of 30_encoding.md R87 that the types do not already hold. -/
def Instr.wf : Instr → Bool
  | .nop => true
  | .fred _ _ _ _ => true
  | .finv _ _ _ _ => true
  | .fadd _ _ _ _ => true
  | .fsub _ _ _ _ => true
  | .fmul _ _ _ _ => true
  | .padd _ _ _ => true
  | .pdbl _ _ => true
  | .pneg _ _ => true
  | .pchk _ => true
  | .peq _ _ => true
  | .pldg _ => true
  | .pmul _ _ _ _ => true
  | .pord _ _ => true
  | .htrunc _ _ => true
  | .sign vd _ _ _ => vd.isEven
  | .verify _ _ _ vr _ => vr.isEven

/-- `i` is a command that some command word encodes. -/
abbrev Instr.WellFormed (i : Instr) : Prop := i.wf = true

end Sys2Proof
end

