-- ==== Sys2Proof/Decode.lean ====
section
/-! DEFINITION. Decoding a command word, the encoder, and the opcode table both are written from
(30_encoding.md R80-R89, R93). -/

namespace Sys2Proof

/-- Why a command word is illegal. Both complete the command with EILLEGAL. -/
inductive DecodeError where
  /-- `OPC` is in no row of the table: sub-code 1 (30_encoding.md R86). -/
  | undefinedOpcode
  /-- A field constraint of a defined opcode is broken: sub-code 2 (30_encoding.md R87). -/
  | fieldConstraint
deriving DecidableEq, Repr

/-- The EILLEGAL sub-code of 60_exceptions.md R182. -/
def DecodeError.info : DecodeError → Nibble
  | .undefinedOpcode => 1
  | .fieldConstraint => 2

/-- One row of the match/mask table of 30_encoding.md R89. -/
structure Row where
  pattern : Word
  mask : Word
deriving DecidableEq, Repr

/-- The row of a defined opcode; `none` for the undefined ones (30_encoding.md R84, R89). -/
def rowOf (opc : Nat) : Option Row :=
  match opc with
  | 0x00 => some ⟨0x00000000, 0xFFFFFFFF⟩  -- NOP
  | 0x01 => some ⟨0x04000000, 0xFC03FFFC⟩  -- FRED
  | 0x02 => some ⟨0x08000000, 0xFC03FFFC⟩  -- FINV
  | 0x03 => some ⟨0x0C000000, 0xFC003FFE⟩  -- FADD
  | 0x04 => some ⟨0x10000000, 0xFC003FFE⟩  -- FSUB
  | 0x05 => some ⟨0x14000000, 0xFC003FFE⟩  -- FMUL
  | 0x08 => some ⟨0x20000000, 0xFE223FFF⟩  -- PADD
  | 0x09 => some ⟨0x24000000, 0xFE23FFFF⟩  -- PDBL
  | 0x0A => some ⟨0x28000000, 0xFE23FFFF⟩  -- PNEG
  | 0x0B => some ⟨0x2C000000, 0xFFE3FFFF⟩  -- PCHK
  | 0x0C => some ⟨0x30000000, 0xFFE23FFF⟩  -- PEQ
  | 0x0D => some ⟨0x34000000, 0xFE3FFFFF⟩  -- PLDG
  | 0x10 => some ⟨0x40000000, 0xFE203FFB⟩  -- PMUL
  | 0x11 => some ⟨0x44000000, 0xFC23FFFF⟩  -- PORD
  | 0x18 => some ⟨0x60000000, 0xFC03FFFF⟩  -- HTRUNC
  | 0x19 => some ⟨0x64000000, 0xFC4003FF⟩  -- SIGN
  | 0x1A => some ⟨0x68000000, 0xFFC063E7⟩  -- VERIFY
  | _ => none

/-- `w[31:26]` (30_encoding.md R81). -/
def opcOf (w : Word) : Nat := w.toNat >>> 26

/-- The four operand fields, each by its lowest bit (30_encoding.md R81). -/
def rdLo : Nat := 22
/-- See `rdLo`. -/
def raLo : Nat := 18
/-- See `rdLo`. -/
def rbLo : Nat := 14
/-- See `rdLo`. -/
def rcLo : Nat := 10

/-- A `v` or `e` field read at bit `lo` (30_encoding.md R85). -/
def vField (w : Word) (lo : Nat) : VReg := Fin.ofNat 16 (w.toNat >>> lo)

/-- A `p` field read at bit `lo`: its bits 2:0 (30_encoding.md R85). -/
def pField (w : Word) (lo : Nat) : PReg := Fin.ofNat 8 (w.toNat >>> lo)

/-- Flag bit `k` of `FL` (30_encoding.md R83). -/
def flag (w : Word) (k : Nat) : Bool := w.getLsbD k

/-- Flag `M` as the modulus it selects (30_encoding.md R83). -/
def modulusFlag (w : Word) : Modulus := if flag w 0 then .n else .p

/-- The table row of opcode `opc` applied to the fields of `w` (30_encoding.md R84, R88). -/
def applyRow (opc : Nat) (w : Word) : Option Instr :=
  match opc with
  | 0x00 => some .nop
  | 0x01 => some (.fred (modulusFlag w) (flag w 1) (vField w rdLo) (vField w raLo))
  | 0x02 => some (.finv (modulusFlag w) (flag w 1) (vField w rdLo) (vField w raLo))
  | 0x03 => some (.fadd (modulusFlag w) (vField w rdLo) (vField w raLo) (vField w rbLo))
  | 0x04 => some (.fsub (modulusFlag w) (vField w rdLo) (vField w raLo) (vField w rbLo))
  | 0x05 => some (.fmul (modulusFlag w) (vField w rdLo) (vField w raLo) (vField w rbLo))
  | 0x08 => some (.padd (pField w rdLo) (pField w raLo) (pField w rbLo))
  | 0x09 => some (.pdbl (pField w rdLo) (pField w raLo))
  | 0x0A => some (.pneg (pField w rdLo) (pField w raLo))
  | 0x0B => some (.pchk (pField w raLo))
  | 0x0C => some (.peq (pField w raLo) (pField w rbLo))
  | 0x0D => some (.pldg (pField w rdLo))
  | 0x10 => some (.pmul (flag w 2) (pField w rdLo) (pField w raLo) (vField w rbLo))
  | 0x11 => some (.pord (vField w rdLo) (pField w raLo))
  | 0x18 => some (.htrunc (vField w rdLo) (vField w raLo))
  | 0x19 => some (.sign (vField w rdLo) (vField w raLo) (vField w rbLo) (vField w rcLo))
  | 0x1A => some (.verify (flag w 3) (flag w 4) (vField w raLo) (vField w rbLo) (pField w rcLo))
  | _ => none

/-- `Decode(w)` (30_encoding.md R88): total on every word, the illegal ones rejected by name. -/
def decode (w : Word) : Except DecodeError Instr :=
  match rowOf (opcOf w), applyRow (opcOf w) w with
  | some row, some i => if w &&& row.mask = row.pattern then .ok i else .error .fieldConstraint
  | _, _ => .error .undefinedOpcode

/-- The command word `{OPC, RD, RA, RB, RC, FL}`, most significant field first (30_encoding.md R81). -/
def packFields (opc : BitVec 6) (rd ra rb rc : BitVec 4) (fl : BitVec 10) : Word :=
  opc ++ rd ++ ra ++ rb ++ rc ++ fl

/-- A `v` or `e` operand as its field (30_encoding.md R85). -/
def vBits (r : VReg) : BitVec 4 := BitVec.ofNat 4 r.val

/-- A `p` operand as its field: bit 3 is clear (30_encoding.md R85). -/
def pBits (j : PReg) : BitVec 4 := BitVec.ofNat 4 j.val

/-- A flag as its bit of `FL` (30_encoding.md R83). -/
def flagBit (b : Bool) (k : Nat) : BitVec 10 := if b then BitVec.twoPow 10 k else 0

/-- The modulus as flag `M` (30_encoding.md R83). -/
def Modulus.flagM : Modulus → BitVec 10
  | .p => 0
  | .n => 1

/-- The command word of an instruction, from the fields of 30_encoding.md R84 and the operand order
of R90. -/
def encode : Instr → Word
  | .nop => packFields 0x00 0 0 0 0 0
  | .fred m neg vd va => packFields 0x01 (vBits vd) (vBits va) 0 0 (m.flagM ||| flagBit neg 1)
  | .finv m neg vd va => packFields 0x02 (vBits vd) (vBits va) 0 0 (m.flagM ||| flagBit neg 1)
  | .fadd m vd va vb => packFields 0x03 (vBits vd) (vBits va) (vBits vb) 0 m.flagM
  | .fsub m vd va vb => packFields 0x04 (vBits vd) (vBits va) (vBits vb) 0 m.flagM
  | .fmul m vd va vb => packFields 0x05 (vBits vd) (vBits va) (vBits vb) 0 m.flagM
  | .padd pd pa pb => packFields 0x08 (pBits pd) (pBits pa) (pBits pb) 0 0
  | .pdbl pd pa => packFields 0x09 (pBits pd) (pBits pa) 0 0 0
  | .pneg pd pa => packFields 0x0A (pBits pd) (pBits pa) 0 0 0
  | .pchk pa => packFields 0x0B 0 (pBits pa) 0 0 0
  | .peq pa pb => packFields 0x0C 0 (pBits pa) (pBits pb) 0 0
  | .pldg pd => packFields 0x0D (pBits pd) 0 0 0 0
  | .pmul neg pd pa vk => packFields 0x10 (pBits pd) (pBits pa) (vBits vk) 0 (flagBit neg 2)
  | .pord vd pa => packFields 0x11 (vBits vd) (pBits pa) 0 0 0
  | .htrunc vd vh => packFields 0x18 (vBits vd) (vBits vh) 0 0 0
  | .sign vd vh vkey vk => packFields 0x19 (vBits vd) (vBits vh) (vBits vkey) (vBits vk) 0
  | .verify rovf sovf vh vr pq =>
    packFields 0x1A 0 (vBits vh) (vBits vr) (pBits pq) (flagBit rovf 3 ||| flagBit sovf 4)

/-- What `decode` reads from an instruction of `nbits` bits whose bits are `w`, numbered as
spec/opcode_table.json numbers them. Every command is one 32-bit word, so the bits above `nbits`
are 0 and the rest is the word itself (30_encoding.md R80). -/
def decodeTableWord (nbits w : Nat) : Option Instr :=
  match decode (BitVec.ofNat 32 (w % 2 ^ nbits)) with
  | .ok i => some i
  | .error _ => none

end Sys2Proof
end

