-- ==== Sys2Proof/Config.lean ====
section
/-! DEFINITION. What is fixed for one build of ECC-CORE and is not architectural state:
the parameters of 00_scope.md R6 (10_state.md R20: "The configuration is not state"). -/

namespace Sys2Proof

/-- The reading of digest truncation, the one build-time option (00_scope.md R2, R6;
43_ecdsa.md R150, R151). -/
inductive TruncMode where
  /-- The default: the 256 bits of the digest are counted, leading zeros included. -/
  | digestWidth
  /-- The bits of the integer `H` are counted. -/
  | integerBitlen
deriving DecidableEq, Repr

/-- The named parameters that 00_scope.md R6 leaves to the build or the platform. -/
structure Config where
  /-- `BASE`, the system address of the register window (OPEN: the platform's choice). -/
  base : Nat
  /-- `TRUNC_MODE`. -/
  truncMode : TruncMode
deriving DecidableEq, Repr

namespace Config

/-- The build that `State.reset` stands for.
`TRUNC_MODE` is the default of 00_scope.md R6.
DESIGN CHOICE (log entry 2, unsafe only for a claim about this one value): `BASE` is OPEN, and 0 is
taken here; every statement of the package holds for every base. -/
def default : Config := Config.mk 0 .digestWidth

/-- `DIGEST_BITS`, the digest width (00_scope.md R6). -/
def digestBits : Nat := 256

/-- `ORD_LIMIT`, the largest count PORD reports (00_scope.md R6). -/
def ordLimit : Nat := 2 ^ 256 - 1

/-- The size of the register window in bytes (00_scope.md R6, 10_state.md R28). -/
def windowBytes : Nat := 0x1000

/-- The contents of the ID register (10_state.md R29). -/
def idValue : Word := 0xEC000001

end Config

end Sys2Proof
end

