-- ==== Sys2Proof/Machine/State.lean ====
section
/-! DEFINITION. The state of ECC-CORE (10_state.md R20), the outside world's side of the interface as
plain data beside it, and reset (10_state.md R50). -/

namespace Sys2Proof.Machine

/-- The seven curve parameter registers (10_state.md R32). -/
structure Curve where
  /-- Coefficient of `x²`. -/
  a : Val
  /-- Coefficient of `x`. -/
  b : Val
  /-- Constant term. -/
  c : Val
  /-- Field modulus. -/
  p : Val
  /-- Base point x. -/
  gx : Val
  /-- Base point y. -/
  gy : Val
  /-- Order of the base point, the scalar modulus. -/
  n : Val
deriving DecidableEq, Repr

/-- The reset values of the curve parameter registers: secp256k1 (10_state.md R33). -/
def Curve.secp256k1 : Curve where
  a := 0
  b := 0
  c := 7
  p := 0xFFFFFFFFFFFFFFFFFFFFFFFFFFFFFFFFFFFFFFFFFFFFFFFFFFFFFFFEFFFFFC2F
  gx := 0x79BE667EF9DCBBAC55A06295CE870B07029BFCDB2DCE28D959F2815B16F81798
  gy := 0x483ADA7726A3C4655DA4FBFC0E1108A8FD17B448A68554199C47D08FFB10D4B8
  n := 0xFFFFFFFFFFFFFFFFFFFFFFFFFFFFFFFEBAAEDCE6AF48A03BBFD25E8CD0364141

/-- The architectural state, exactly the table of 10_state.md R20: "Nothing else is state". -/
structure Block where
  /-- `V0`-`V15` (R22). -/
  v : Vector Val 16
  /-- `INF`, bit `j` for point register `j` (R26). -/
  inf : BitVec 8
  /-- `CUR.A` … `CUR.N` (R32). -/
  cur : Curve
  /-- `SEALED` (R35). -/
  sealed : Bool
  /-- `IE`, CTRL bit 0 (R30). -/
  ie : Bool
  /-- `BUSY` (R40). -/
  busy : Bool
  /-- `DONE` (R41). -/
  done : Bool
  /-- `ERR` (R42). -/
  err : Bool
  /-- `RESULT` (R43). -/
  result : Bool
  /-- `OVR` (R44). -/
  ovr : Bool
  /-- `WERR` (R45). -/
  werr : Bool
  /-- `ERRCODE`, STATUS bits 11:8 (R42). -/
  errcode : Nibble
  /-- `ERRINFO` bits 3:0 (R38). -/
  errinfo : Nibble
  /-- `CMDREG`, the last accepted command word (R36). -/
  cmdreg : Word
  /-- `DONE_IRQ`, INT_STATUS bit 0 (R37). -/
  doneIrq : Bool
deriving DecidableEq, Repr

/-- The width of a host access. Only 32 bits is defined for the block (20_memory.md R61). -/
inductive AccessWidth where
  | w8
  | w16
  | w32
  | w64
deriving DecidableEq, Repr

/-- One event of the total order of 20_memory.md R69. A host access names a system address,
`BASE + off` (R60); the data of a write is used only when the access is 32 bits wide. -/
inductive Event where
  /-- The engine takes its step now, if it has one (10_state.md R54). -/
  | engine
  /-- `BusRead` (20_memory.md R60). -/
  | read (addr : Nat) (width : AccessWidth)
  /-- `BusWrite` (20_memory.md R60). -/
  | write (addr : Nat) (width : AccessWidth) (data : Word)
  /-- The reset input (70_reset_and_hazards.md R210). -/
  | reset
deriving DecidableEq, Repr

/-- What the block answers on the bus (20_memory.md R60, R61). -/
inductive BusResponse where
  /-- No answer of this block: no access yet, or one outside the window (20_memory.md R64). -/
  | none
  /-- A read completed with this data. -/
  | readData (data : Word)
  /-- A write completed. -/
  | writeDone
  /-- A bus error for a read, with the data returned. -/
  | readError (data : Word)
  /-- A bus error for a write. -/
  | writeError
deriving DecidableEq, Repr

/-- The machine: the block's own state, and beside it three fields that are the MODEL'S, not the
spec's (log entries 1, 2, 3): the configuration, the events still to come, and the last answer on
the bus. 70_reset_and_hazards.md R226 leaves the order of engine steps and host accesses open: the list
`events` is that order, and a statement about every state holds for every order. -/
structure State extends Block where
  /-- The parameters of this build; no step changes them. -/
  cfg : Config
  /-- What happens next, the first element first. -/
  events : List Event
  /-- The block's answer to the last host access. -/
  response : BusResponse
deriving DecidableEq, Repr

/-- The block after reset (10_state.md R50). -/
def Block.reset : Block where
  v := Vector.replicate 16 0
  inf := 0
  cur := Curve.secp256k1
  sealed := false
  ie := false
  busy := false
  done := false
  err := false
  result := false
  ovr := false
  werr := false
  errcode := 0
  errinfo := 0
  cmdreg := 0
  doneIrq := false

/-- The machine right after reset. The block is as 10_state.md R50 says; no event is scheduled and no
access has been answered (DESIGN CHOICE, log entries 2 and 3). -/
def State.reset : State where
  toBlock := Block.reset
  cfg := Config.default
  events := []
  response := .none

/-- No constructor: "The block has no fault that stops it" (60_exceptions.md R196), and every error
of a command is a completion with a report (60_exceptions.md R180). Nothing raises it, which is safe:
no run of the model ends in a fault. -/
inductive Fault
deriving DecidableEq, Repr

/-- Why a step can have no meaning. -/
inductive Refusal where
  /-- An instruction without a meaning, by its mnemonic. Raised by no arm of `exec`: every command
  has its meaning. It would be safe: the model would stop where the hardware goes on. -/
  | notModelled (mnemonic : String)
deriving DecidableEq, Repr

end Sys2Proof.Machine
end

