-- ==== Sys2Proof/Machine/Flags.lean ====
section
/-! DEFINITION. The STATUS bits and the other one-word views of the state, the error codes, and the two
updates of the report: at acceptance and at completion (10_state.md R29-R31, R36-R47, R52, R54;
60_exceptions.md R181). -/

namespace Sys2Proof.Machine

/-- The error codes this version produces (60_exceptions.md R181). -/
inductive ErrCode where
  | enone
  | eillegal
  | ecfg
  | eoperand
  | earith
  | eretry
  | elimit
  | eabort
deriving DecidableEq, Repr

/-- The value of `STATUS.ERRCODE` (60_exceptions.md R181). -/
def ErrCode.code : ErrCode → Nibble
  | .enone => 0
  | .eillegal => 1
  | .ecfg => 2
  | .eoperand => 3
  | .earith => 4
  | .eretry => 5
  | .elimit => 6
  | .eabort => 7

/-- The report fields of a completion (10_state.md R54), which an abort sets the same way
(44_system.md R172): `ERR` is 1 exactly when the code is not 0 (R42). -/
def State.report (s : State) (code : ErrCode) (info : Nibble) (res : Bool) : State :=
  { s with
    busy := false
    done := true
    err := code.code != 0
    result := res
    errcode := code.code
    errinfo := info
    doneIrq := true }

/-- The flags of an accepted command (10_state.md R52); `OVR`, `WERR` and `DONE_IRQ` are unchanged. -/
def State.startReport (s : State) : State :=
  { s with
    busy := true
    done := false
    err := false
    result := false
    errcode := 0
    errinfo := 0 }

/-- `b` as bit `k` of a bus word. -/
def bitAt (b : Bool) (k : Nat) : Word := if b then 1 <<< k else 0

/-- CTRL as read: `{29'b0, 0, SEALED, IE}` (10_state.md R30). -/
def State.ctrlWord (s : State) : Word := bitAt s.sealed 1 ||| bitAt s.ie 0

/-- STATUS as read (10_state.md R31, 20_memory.md R60). -/
def State.statusWord (s : State) : Word :=
  bitAt s.busy 0 ||| bitAt s.done 1 ||| bitAt s.err 2 ||| bitAt s.result 3 ||| bitAt s.sealed 4
    ||| bitAt s.ovr 5 ||| bitAt s.werr 6 ||| s.errcode.setWidth 32 <<< 8

/-- INT_STATUS as read (10_state.md R37). -/
def State.intStatusWord (s : State) : Word := bitAt s.doneIrq 0

/-- INF as read: bits 31:8 are 0 (10_state.md R26). -/
def State.infWord (s : State) : Word := s.inf.setWidth 32

/-- ERRINFO as read: bits 31:4 are 0 (10_state.md R38). -/
def State.errinfoWord (s : State) : Word := s.errinfo.setWidth 32

/-- The interrupt output `IRQ = DONE_IRQ ∧ IE` (10_state.md R47, 60_exceptions.md R187). -/
def State.irq (s : State) : Bool := s.doneIrq && s.ie

/-- A host write to STATUS: write 1 to clear `OVR` (bit 5) and `WERR` (bit 6); the other bits are
ignored (10_state.md R31, R44, R45). -/
def State.writeStatus (s : State) (v : Word) : State :=
  { s with
    ovr := s.ovr && !v.getLsbD 5
    werr := s.werr && !v.getLsbD 6 }

/-- A host write to INT_STATUS: write 1 to clear `DONE_IRQ` (10_state.md R37). -/
def State.writeIntStatus (s : State) (v : Word) : State :=
  { s with doneIrq := s.doneIrq && !v.getLsbD 0 }

end Sys2Proof.Machine
end

