-- ==== Sys2Proof/Machine/Ops.lean ====
section
/-! DEFINITION. The named operations over the registers, the life of a command (issue, raise, commit,
complete, abort), and reset (00_scope.md R9, 10_state.md R22-R27, R52-R54, 44_system.md R172,
60_exceptions.md R180). -/

namespace Sys2Proof.Machine

/-! ### Words of a 256-bit register (20_memory.md R62) -/

/-- `X[32w+31 : 32w]`. -/
def getWord (x : Val) (w : Fin 8) : Word := x.extractLsb' (32 * w.val) 32

/-- `X[32w+31 : 32w] <- v`: those 32 bits are replaced and the others kept (20_memory.md R60). -/
def setWord (x : Val) (w : Fin 8) (v : Word) : Val :=
  (x &&& ~~~((BitVec.allOnes 32).setWidth 256 <<< (32 * w.val))) ||| v.setWidth 256 <<< (32 * w.val)

/-! ### Operand registers, `INF` and point registers -/

/-- A point of the document: `Infinity` or `Affine(x, y)` (00_scope.md R9, 10_state.md R24). -/
inductive Point where
  | infinity
  | affine (x y : Nat)
deriving DecidableEq, Repr

/-- Read operand register `V[i]` (10_state.md R22). -/
def State.readV (s : State) (i : VReg) : Val := s.v.get i

/-- `V[i] <- x` (10_state.md R22). -/
def State.writeV (s : State) (i : VReg) (x : Val) : State :=
  { s with v := s.v.set i.val x i.isLt }

/-- Bit `INF[j]` (10_state.md R26). -/
def State.readInf (s : State) (j : PReg) : Bool := s.inf.getLsbD j.val

/-- `INF[j] <- b`: the other seven bits are kept (10_state.md R25, R26). -/
def State.writeInf (s : State) (j : PReg) (b : Bool) : State :=
  { s with inf :=
      if b then s.inf ||| BitVec.twoPow 8 j.val else s.inf &&& ~~~BitVec.twoPow 8 j.val }

/-- `V[2j]`, the x coordinate of `Pj` (10_state.md R24). -/
def xReg (j : PReg) : VReg := ⟨2 * j.val, by omega⟩

/-- `V[2j+1]`, the y coordinate of `Pj` (10_state.md R24). -/
def yReg (j : PReg) : VReg := ⟨2 * j.val + 1, by omega⟩

/-- The second register of the `e` pair that starts at `r` (30_encoding.md R85). -/
def pairReg (r : VReg) : VReg := Fin.ofNat 16 (r.val + 1)

/-- `Pt(j)` (10_state.md R24): with `INF[j] = 1` the coordinates are ignored. -/
def State.readPt (s : State) (j : PReg) : Point :=
  if s.readInf j then .infinity
  else .affine (s.readV (xReg j)).toNat (s.readV (yReg j)).toNat

/-- A natural number as the contents of a 256-bit register. Every value a command writes is in
`[0, 2^256)` (00_scope.md R9). -/
def toVal (x : Nat) : Val := BitVec.ofNat 256 x

/-- `x mod m` as the floor remainder in `[0, m)` (00_scope.md R8). -/
def modNat (x : Int) (m : Nat) : Nat := (x % (m : Int)).toNat

/-! ### The outcome of a command (10_state.md R53, 00_scope.md R9) -/

/-- One assignment of a commit. -/
inductive Write where
  | v (i : VReg) (x : Val)
  | inf (j : PReg) (b : Bool)
deriving DecidableEq, Repr

/-- `Ok(writes, res)`. An accepting VERIFY is the one with `res = 1` and no writes. -/
structure Effect where
  writes : List Write
  res : Bool
deriving DecidableEq, Repr

/-- The two ways a command's pseudocode ends early. -/
inductive Ending where
  /-- `raise E(info)`. -/
  | raise (code : ErrCode) (info : Nibble)
  /-- `reject(k)`, of VERIFY only. -/
  | reject (k : Nibble)
deriving DecidableEq, Repr

/-- The pseudocode of a command: a value, or an early end after which nothing runs. -/
abbrev Cmd (α : Type) := Except Ending α

/-- `raise E(info)` (00_scope.md R9). -/
def raise {α : Type} (code : ErrCode) (info : Nibble) : Cmd α := .error (.raise code info)

/-- `reject(k)` (00_scope.md R9, 43_ecdsa.md R158). -/
def reject {α : Type} (k : Nibble) : Cmd α := .error (.reject k)

/-- The value of a primitive that can fail, or the caller's early end. -/
def orElse {α : Type} (o : Option α) (e : Cmd α) : Cmd α :=
  match o with
  | some a => .ok a
  | none => e

/-- `V[i] <- x` and nothing else. -/
def writesV (i : VReg) (x : Nat) : Effect := ⟨[.v i (toVal x)], false⟩

/-- The three assignments of `Pt(j) <- Q` (10_state.md R25). -/
def ptWrites (j : PReg) : Point → List Write
  | .infinity => [.inf j true, .v (xReg j) 0, .v (yReg j) 0]
  | .affine x y => [.inf j false, .v (xReg j) (toVal x), .v (yReg j) (toVal y)]

/-- `Pt(j) <- Q` and nothing else. -/
def writesPt (j : PReg) (q : Point) : Effect := ⟨ptWrites j q, false⟩

/-- No register is written; `RESULT` is `b`. -/
def verdict (b : Bool) : Effect := ⟨[], b⟩

/-! ### The life of a command -/

/-- One assignment applied. -/
def State.applyWrite (s : State) : Write → State
  | .v i x => s.writeV i x
  | .inf j b => s.writeInf j b

/-- The commit: all assignments of `writes` at once (10_state.md R53). -/
def State.commit (s : State) (writes : List Write) : State :=
  writes.foldl State.applyWrite s

/-- TAKING AN ERROR, the block's only form of exception (60_exceptions.md R180, R189): nothing the
command would write is written, the report says which error, and the engine is idle. -/
def State.takeError (s : State) (code : ErrCode) (info : Nibble) : State := s.report code info false

/-- Completion (10_state.md R54): the outcome's writes are committed and its report is set. -/
def State.complete (s : State) : Cmd Effect → State
  | .ok e => (s.commit e.writes).report .enone 0 e.res
  | .error (.reject k) => s.report .enone k false
  | .error (.raise code info) => s.takeError code info

/-- The engine's step for one command: it always completes (60_exceptions.md R196). -/
def finish (s : State) (r : Cmd Effect) : Host.Outcome State Fault Refusal := .next (s.complete r)

/-- A command word that does not decode completes with EILLEGAL (30_encoding.md R86, R87). -/
def State.takeIllegal (s : State) (e : DecodeError) : State := s.takeError .eillegal e.info

/-- Acceptance of the word `w` by an idle engine (10_state.md R52). It is also the way back from an
error: "The host returns by issuing the next command" (60_exceptions.md R189). -/
def State.accept (s : State) (w : Word) : State := { s.startReport with cmdreg := w }

/-- A host write of `w` to CMD (10_state.md R52). -/
def State.issue (s : State) (w : Word) : State :=
  if s.busy then { s with ovr := true } else s.accept w

/-- `Abort()` (44_system.md R172): a running command is ended with EABORT, and its writes are
discarded; an idle block is left alone. -/
def State.abort (s : State) : State := if s.busy then s.takeError .eabort 0 else s

/-- `Seal()` (44_system.md R173). -/
def State.seal (s : State) : State := { s with sealed := true }

/-- A host write of `v` to CTRL: `IE`, then SEAL, then ABORT (44_system.md R171). -/
def State.ctrlWrite (s : State) (v : Word) : State :=
  let s1 : State := { s with ie := v.getLsbD 0 }
  let s2 := if v.getLsbD 1 then s1.seal else s1
  if v.getLsbD 2 then s2.abort else s2

/-- The reset event: every piece of block state takes its reset value, whatever ran before
(70_reset_and_hazards.md R210-R212). The configuration is not state and is kept, and so are the events
still to come; the answer of an access before the reset is gone (DESIGN CHOICE, log entry 3). -/
def State.resetEvent (s : State) : State :=
  { State.reset with cfg := s.cfg, events := s.events }

end Sys2Proof.Machine
end

