-- ==== Sys2Proof/Machine/Operands.lean ====
section
/-! DEFINITION. Operand forms and the checks that come before a command computes
(30_encoding.md R83, R85; 40_field.md R100; 41_point.md R120; 60_exceptions.md R184). -/

namespace Sys2Proof.Machine

/-- The modulus flag `M` selects (40_field.md R100). -/
def Curve.modulus (c : Curve) : Modulus → Nat
  | .p => c.p.toNat
  | .n => c.n.toNat

/-- The base point `G = Affine(CUR.GX, CUR.GY)`, always affine (10_state.md R32). -/
def Curve.base (c : Curve) : Point := .affine c.gx.toNat c.gy.toNat

/-- `V[i]` as an integer (00_scope.md R7). -/
def State.nat (s : State) (i : VReg) : Nat := (s.readV i).toNat

/-- `+V[i]` or, with the flag `NEG` or `S`, `−V[i]` (30_encoding.md R83). -/
def State.signed (s : State) (neg : Bool) (i : VReg) : Int :=
  if neg then -(s.nat i : Int) else (s.nat i : Int)

/-- `CfgOK`: the sub-code of the first broken condition on the curve registers, if any
(60_exceptions.md R184 step 2). -/
def Curve.cfgError (c : Curve) : Option Nibble :=
  if c.p.toNat < 2 then some 1
  else if c.n.toNat < 2 then some 2
  else if c.p.toNat ≤ c.gx.toNat ∨ c.p.toNat ≤ c.gy.toNat then some 3
  else none

/-- The configuration check of every command but NOP (60_exceptions.md R184 step 2). -/
def checkCfg (s : State) : Cmd Unit :=
  match s.cur.cfgError with
  | some info => raise .ecfg info
  | none => .ok ()

/-- `x ≥ p` or `y ≥ p`, for an affine point (41_point.md R120). -/
def Point.outOfRange (p : Nat) : Point → Bool
  | .infinity => false
  | .affine x y => p ≤ x || p ≤ y

/-- `CheckPt(j)` (41_point.md R120): the sub-code is the number of the point register plus 1. -/
def checkPt (s : State) (j : PReg) : Cmd Unit :=
  if (s.readPt j).outOfRange s.cur.p.toNat then raise .eoperand (BitVec.ofNat 4 (j.val + 1))
  else .ok ()

/-- The first register of an `e` pair must be even; a term that no word encodes is answered as its
word would be, with EILLEGAL(2) (30_encoding.md R87; 43_ecdsa.md R153, R156). -/
def checkEven (r : VReg) : Cmd Unit :=
  if r.isEven then .ok () else raise .eillegal DecodeError.fieldConstraint.info

end Sys2Proof.Machine
end

