-- ==== Sys2Proof/Machine/Bus.lean ====
section
/-! DEFINITION. The register window and the host's accesses to it (10_state.md R28-R39, R48, R49;
20_memory.md R60-R66). -/

namespace Sys2Proof.Machine

/-- The curve parameter registers in the order of the register map, `CURV(0..6)` (20_memory.md R60). -/
inductive CurReg where
  | a
  | b
  | c
  | p
  | gx
  | gy
  | n
deriving DecidableEq, Repr

/-- `CURV(r)` as a value. -/
def Curve.get (c : Curve) : CurReg → Val
  | .a => c.a
  | .b => c.b
  | .c => c.c
  | .p => c.p
  | .gx => c.gx
  | .gy => c.gy
  | .n => c.n

/-- `CURV(r) <- x`. -/
def Curve.set (c : Curve) (r : CurReg) (x : Val) : Curve :=
  match r with
  | .a => { c with a := x }
  | .b => { c with b := x }
  | .c => { c with c := x }
  | .p => { c with p := x }
  | .gx => { c with gx := x }
  | .gy => { c with gy := x }
  | .n => { c with n := x }

/-- The register with number `r` in `CURV(0..6)`. -/
def curReg (r : Nat) : CurReg :=
  match r with
  | 0 => .a
  | 1 => .b
  | 2 => .c
  | 3 => .p
  | 4 => .gx
  | 5 => .gy
  | _ => .n

/-- What an aligned offset of the window names (10_state.md R28). -/
inductive Target where
  | id
  | ctrl
  | status
  | cmd
  | intStatus
  | inf
  | errinfo
  | v (i : VReg) (w : Fin 8)
  | cur (r : CurReg) (w : Fin 8)
  | reserved
deriving DecidableEq, Repr

/-- The register map (10_state.md R28, 20_memory.md R60), for an offset that is a multiple of 4. -/
def targetAt (off : Nat) : Target :=
  if off = 0x000 then .id
  else if off = 0x004 then .ctrl
  else if off = 0x008 then .status
  else if off = 0x00C then .cmd
  else if off = 0x010 then .intStatus
  else if off = 0x014 then .inf
  else if off = 0x018 then .errinfo
  else if 0x100 ≤ off ∧ off ≤ 0x2FC then
    .v (Fin.ofNat 16 ((off - 0x100) / 32)) (Fin.ofNat 8 ((off - 0x100) % 32 / 4))
  else if 0x300 ≤ off ∧ off ≤ 0x3DC then
    .cur (curReg ((off - 0x300) / 32)) (Fin.ofNat 8 ((off - 0x300) % 32 / 4))
  else .reserved

/-- `BusRead(off)` for an aligned 32-bit access (20_memory.md R60): no read has a side effect (R66). -/
def busRead (s : State) (off : Nat) : Word :=
  match targetAt off with
  | .id => Config.idValue
  | .ctrl => s.ctrlWord
  | .status => s.statusWord
  | .cmd => s.cmdreg
  | .intStatus => s.intStatusWord
  | .inf => s.infWord
  | .errinfo => s.errinfoWord
  | .v i w => getWord (s.readV i) w
  | .cur r w => getWord (s.cur.get r) w
  | .reserved => 0

/-- A dropped register write is reported in `WERR` (10_state.md R48). -/
def State.dropWrite (s : State) : State := { s with werr := true }

/-- A host write to INF: all 8 bits at once, dropped while busy (10_state.md R26, R48). -/
def State.hostWriteInf (s : State) (v : Word) : State :=
  if s.busy then s.dropWrite else { s with inf := v.setWidth 8 }

/-- A host write to one word of an operand register, dropped while busy (10_state.md R48). -/
def State.hostWriteV (s : State) (i : VReg) (w : Fin 8) (v : Word) : State :=
  if s.busy then s.dropWrite else s.writeV i (setWord (s.readV i) w v)

/-- A host write to one word of a curve parameter register, dropped while busy or sealed
(10_state.md R34, R48). -/
def State.hostWriteCur (s : State) (r : CurReg) (w : Fin 8) (v : Word) : State :=
  if s.busy ∨ s.sealed then s.dropWrite
  else { s with cur := s.cur.set r (setWord (s.cur.get r) w v) }

/-- `BusWrite(off, v)` for an aligned 32-bit access (20_memory.md R60). Writes to the read-only
registers and to reserved offsets are ignored, with no flag (R64). -/
def busWrite (s : State) (off : Nat) (v : Word) : State :=
  match targetAt off with
  | .id => s
  | .ctrl => s.ctrlWrite v
  | .status => s.writeStatus v
  | .cmd => s.issue v
  | .intStatus => s.writeIntStatus v
  | .inf => s.hostWriteInf v
  | .errinfo => s
  | .v i w => s.hostWriteV i w v
  | .cur r w => s.hostWriteCur r w v
  | .reserved => s

/-- The byte offset of a system address in the window at `BASE`, or `none` outside the window
(00_scope.md R6, 20_memory.md R60, R64). -/
def Config.offset (cfg : Config) (addr : Nat) : Option Nat :=
  if cfg.base ≤ addr ∧ addr < cfg.base + Config.windowBytes then some (addr - cfg.base) else none

/-- Only an aligned 32-bit access is defined (20_memory.md R61). -/
def accessOk (off : Nat) (width : AccessWidth) : Bool := off % 4 == 0 && width == .w32

/-- A host read. An access outside the window is not decoded by the block, which does not change and
does not answer (20_memory.md R64). A misaligned or narrower or wider access gets a bus error, the data 0,
and no change of the block (R61). -/
def hostRead (s : State) (addr : Nat) (width : AccessWidth) : State :=
  match Config.offset s.cfg addr with
  | none => { s with response := .none }
  | some off =>
    if accessOk off width then { s with response := .readData (busRead s off) }
    else { s with response := .readError 0 }

/-- A host write; see `hostRead` for the accesses that do not reach a register. -/
def hostWrite (s : State) (addr : Nat) (width : AccessWidth) (data : Word) : State :=
  match Config.offset s.cfg addr with
  | none => { s with response := .none }
  | some off =>
    if accessOk off width then { busWrite s off data with response := .writeDone }
    else { s with response := .writeError }

end Sys2Proof.Machine
end

