-- ==== Sys2Proof/Machine/Field.lean ====
section
/-! DEFINITION. The field arithmetic commands and the modular inverse (40_field.md R100-R106). -/

namespace Sys2Proof.Machine

/-- The extended Euclidean algorithm modulo `m`, on remainders `r0 ≥ r1` and the coefficients `t0`,
`t1` that give them from the number inverted. It answers the coefficient of the last non-zero
remainder. The first argument bounds the number of divisions. -/
def euclid (m : Nat) : Nat → Nat → Nat → Nat → Nat → Nat
  | 0, _, _, t0, _ => t0
  | fuel + 1, r0, r1, t0, t1 =>
    if r1 = 0 then t0
    else euclid m fuel r1 (r0 % r1) t1 ((t0 + (m - r0 / r1 * t1 % m)) % m)

/-- `Inv(a, m, ·)` (40_field.md R101): the unique `b` with `1 ≤ b < m` and `a·b mod m = 1`, or `none`
when `gcd(a mod m, m) ≠ 1`. The caller turns `none` into its own report. -/
def modInv (a : Int) (m : Nat) : Option Nat :=
  if Nat.gcd (modNat a m) m = 1 then some (euclid m (modNat a m + 1) m (modNat a m) 0 1) else none

/-- FRED (40_field.md R102). -/
def fredCmd (m : Modulus) (neg : Bool) (vd va : VReg) (s : State) : Cmd Effect := do
  checkCfg s
  pure (writesV vd (modNat (s.signed neg va) (s.cur.modulus m)))

/-- FINV (40_field.md R103): EARITH(1) when there is no inverse. -/
def finvCmd (m : Modulus) (neg : Bool) (vd va : VReg) (s : State) : Cmd Effect := do
  checkCfg s
  let b ← orElse (modInv (s.signed neg va) (s.cur.modulus m)) (raise .earith 1)
  pure (writesV vd b)

/-- FADD (40_field.md R104): the exact sum, then reduced. -/
def faddCmd (m : Modulus) (vd va vb : VReg) (s : State) : Cmd Effect := do
  checkCfg s
  pure (writesV vd (modNat ((s.nat va : Int) + (s.nat vb : Int)) (s.cur.modulus m)))

/-- FSUB (40_field.md R105): the exact difference, then reduced. -/
def fsubCmd (m : Modulus) (vd va vb : VReg) (s : State) : Cmd Effect := do
  checkCfg s
  pure (writesV vd (modNat ((s.nat va : Int) - (s.nat vb : Int)) (s.cur.modulus m)))

/-- FMUL (40_field.md R106): the exact product, then reduced. -/
def fmulCmd (m : Modulus) (vd va vb : VReg) (s : State) : Cmd Effect := do
  checkCfg s
  pure (writesV vd (modNat ((s.nat va : Int) * (s.nat vb : Int)) (s.cur.modulus m)))

/-- `FRED.m vd, ±va` (40_field.md R102). -/
def execFred (m : Modulus) (neg : Bool) (vd va : VReg) (s : State) :
    Host.Outcome State Fault Refusal := finish s (fredCmd m neg vd va s)

/-- `FINV.m vd, ±va` (40_field.md R103). -/
def execFinv (m : Modulus) (neg : Bool) (vd va : VReg) (s : State) :
    Host.Outcome State Fault Refusal := finish s (finvCmd m neg vd va s)

/-- `FADD.m vd, va, vb` (40_field.md R104). -/
def execFadd (m : Modulus) (vd va vb : VReg) (s : State) :
    Host.Outcome State Fault Refusal := finish s (faddCmd m vd va vb s)

/-- `FSUB.m vd, va, vb` (40_field.md R105). -/
def execFsub (m : Modulus) (vd va vb : VReg) (s : State) :
    Host.Outcome State Fault Refusal := finish s (fsubCmd m vd va vb s)

/-- `FMUL.m vd, va, vb` (40_field.md R106). -/
def execFmul (m : Modulus) (vd va vb : VReg) (s : State) :
    Host.Outcome State Fault Refusal := finish s (fmulCmd m vd va vb s)

end Sys2Proof.Machine
end

