-- ==== Sys2Proof/Machine/Point.lean ====
section
/-! DEFINITION. The point arithmetic commands, and addition, negation and the on-curve test
(41_point.md R121-R128). Coordinates are the integers of the registers. -/

namespace Sys2Proof.Machine

/-- The common end of the chord and the tangent case of `Add`: from the slope `lam`, the first point
and the other x coordinate to the sum (41_point.md R121). -/
def Curve.slopeSum (c : Curve) (lam x1 y1 x2 : Nat) : Point :=
  let p := c.p.toNat
  let x3 := modNat ((lam : Int) * lam - (c.a.toNat : Int) - x1 - x2) p
  let nu := modNat ((y1 : Int) - (lam : Int) * x1) p
  .affine x3 (modNat (-(lam : Int) * x3 - nu) p)

/-- The tangent slope `(3·x1² + 2·a·x1 + b) · Inv(2·y1, p) mod p` (41_point.md R121). -/
def Curve.tangent (c : Curve) (x1 y1 : Nat) : Option Nat :=
  match modInv (2 * (y1 : Int)) c.p.toNat with
  | none => none
  | some i =>
    some (modNat ((3 * ((x1 : Int) * x1) + 2 * (c.a.toNat : Int) * x1 + c.b.toNat) * i) c.p.toNat)

/-- The chord slope `(y2 − y1) · Inv(x2 − x1, p) mod p` (41_point.md R121). -/
def Curve.chord (c : Curve) (x1 y1 x2 y2 : Nat) : Option Nat :=
  match modInv ((x2 : Int) - x1) c.p.toNat with
  | none => none
  | some i => some (modNat (((y2 : Int) - y1) * i) c.p.toNat)

/-- `Add(P, Q)` (41_point.md R121), the cases in the document's order; `none` is a failed inverse,
EARITH(2). -/
def Curve.add (c : Curve) : Point → Point → Option Point
  | .infinity, q => some q
  | .affine x1 y1, .infinity => some (.affine x1 y1)
  | .affine x1 y1, .affine x2 y2 =>
    if x1 = x2 ∧ y1 ≠ y2 then some .infinity
    else if x1 = x2 then
      if y1 % c.p.toNat = 0 then some .infinity
      else
        match c.tangent x1 y1 with
        | none => none
        | some lam => some (c.slopeSum lam x1 y1 x2)
    else
      match c.chord x1 y1 x2 y2 with
      | none => none
      | some lam => some (c.slopeSum lam x1 y1 x2)

/-- `Neg(P)` (41_point.md R124). -/
def Curve.neg (c : Curve) : Point → Point
  | .infinity => .infinity
  | .affine x y => .affine x (modNat (-(y : Int)) c.p.toNat)

/-- `Contains(P)` (41_point.md R126): `y² = x³ + a·x² + b·x + c (mod p)`, and true of `Infinity`. -/
def Curve.contains (c : Curve) : Point → Bool
  | .infinity => true
  | .affine x y =>
    modNat ((y : Int) * y
      - ((x : Int) * x * x + (c.a.toNat : Int) * (x * x) + (c.b.toNat : Int) * x + c.c.toNat))
      c.p.toNat == 0

/-- Two points are equal: both `Infinity`, or both affine with the same coordinates
(00_scope.md R9, 41_point.md R127). -/
def Point.same : Point → Point → Bool
  | .infinity, .infinity => true
  | .affine x1 y1, .affine x2 y2 => x1 == x2 && y1 == y2
  | .infinity, .affine _ _ => false
  | .affine _ _, .infinity => false

/-- PADD (41_point.md R122). -/
def paddCmd (pd pa pb : PReg) (s : State) : Cmd Effect := do
  checkCfg s
  checkPt s pa
  checkPt s pb
  let r ← orElse (s.cur.add (s.readPt pa) (s.readPt pb)) (raise .earith 2)
  pure (writesPt pd r)

/-- PDBL (41_point.md R123). -/
def pdblCmd (pd pa : PReg) (s : State) : Cmd Effect := do
  checkCfg s
  checkPt s pa
  let r ← orElse (s.cur.add (s.readPt pa) (s.readPt pa)) (raise .earith 2)
  pure (writesPt pd r)

/-- PNEG (41_point.md R125). -/
def pnegCmd (pd pa : PReg) (s : State) : Cmd Effect := do
  checkCfg s
  checkPt s pa
  pure (writesPt pd (s.cur.neg (s.readPt pa)))

/-- PCHK (41_point.md R126): only `RESULT` is written. -/
def pchkCmd (pa : PReg) (s : State) : Cmd Effect := do
  checkCfg s
  checkPt s pa
  pure (verdict (s.cur.contains (s.readPt pa)))

/-- PEQ (41_point.md R127): only `RESULT` is written. -/
def peqCmd (pa pb : PReg) (s : State) : Cmd Effect := do
  checkCfg s
  checkPt s pa
  checkPt s pb
  pure (verdict ((s.readPt pa).same (s.readPt pb)))

/-- PLDG (41_point.md R128). -/
def pldgCmd (pd : PReg) (s : State) : Cmd Effect := do
  checkCfg s
  pure (writesPt pd s.cur.base)

/-- `PADD pd, pa, pb` (41_point.md R122). -/
def execPadd (pd pa pb : PReg) (s : State) : Host.Outcome State Fault Refusal :=
  finish s (paddCmd pd pa pb s)

/-- `PDBL pd, pa` (41_point.md R123). -/
def execPdbl (pd pa : PReg) (s : State) : Host.Outcome State Fault Refusal :=
  finish s (pdblCmd pd pa s)

/-- `PNEG pd, pa` (41_point.md R125). -/
def execPneg (pd pa : PReg) (s : State) : Host.Outcome State Fault Refusal :=
  finish s (pnegCmd pd pa s)

/-- `PCHK pa` (41_point.md R126). -/
def execPchk (pa : PReg) (s : State) : Host.Outcome State Fault Refusal :=
  finish s (pchkCmd pa s)

/-- `PEQ pa, pb` (41_point.md R127). -/
def execPeq (pa pb : PReg) (s : State) : Host.Outcome State Fault Refusal :=
  finish s (peqCmd pa pb s)

/-- `PLDG pd` (41_point.md R128). -/
def execPldg (pd : PReg) (s : State) : Host.Outcome State Fault Refusal :=
  finish s (pldgCmd pd s)

end Sys2Proof.Machine
end

