-- ==== Sys2Proof/Machine/Scalar.lean ====
section
/-! DEFINITION. The scalar-multiplication unit: `Smul`, PMUL and PORD (42_scalar.md R140-R142). -/

namespace Sys2Proof.Machine

/-- `bitlen(v)` (00_scope.md R7): the number of bits up to the most significant 1, and 0 for 0. -/
def bitlen (v : Nat) : Nat := if v = 0 then 0 else Nat.log2 v + 1

/-- The loop of `Smul` (42_scalar.md R140): right to left, with no doubling after the top bit. The
first argument bounds the number of rounds; `bitlen(k)` rounds end the loop. -/
def Curve.smulLoop (c : Curve) : Nat → Nat → Point → Point → Option Point
  | 0, _, r, _ => some r
  | fuel + 1, k, r, a =>
    if k = 0 then some r
    else
      match if k % 2 = 1 then c.add r a else some r with
      | none => none
      | some r' =>
        if k / 2 = 0 then some r'
        else
          match c.add a a with
          | none => none
          | some a' => smulLoop c fuel (k / 2) r' a'

/-- `Smul(P, k)` (42_scalar.md R140); `none` is a failed inverse inside an `Add`, EARITH(2). -/
def Curve.smul (c : Curve) (pt : Point) (k : Int) : Option Point :=
  if k < 0 then c.smulLoop (bitlen k.natAbs) k.natAbs .infinity (c.neg pt)
  else c.smulLoop (bitlen k.natAbs) k.natAbs .infinity pt

/-- The loop of PORD (42_scalar.md R142) from the count `n` and the sum `q`, which is `n` times `pt`.
The first argument bounds the number of rounds; `limit` rounds always end the loop. -/
def Curve.orderLoop (c : Curve) (limit : Nat) (pt : Point) : Nat → Nat → Point → Cmd Nat
  | 0, _, _ => raise .elimit 0
  | fuel + 1, n, q =>
    match q with
    | .infinity => .ok n
    | .affine x y =>
      if n = limit then raise .elimit 0
      else
        match c.add (.affine x y) pt with
        | none => raise .earith 2
        | some q' => orderLoop c limit pt fuel (n + 1) q'

/-- The order of a point, counting from `Q_1 = P`, up to `limit` (42_scalar.md R142). -/
def Curve.order (c : Curve) (limit : Nat) (pt : Point) : Cmd Nat :=
  c.orderLoop limit pt limit 1 pt

/-- PMUL (42_scalar.md R141): the scalar is not reduced. -/
def pmulCmd (neg : Bool) (pd pa : PReg) (vk : VReg) (s : State) : Cmd Effect := do
  checkCfg s
  checkPt s pa
  let r ← orElse (s.cur.smul (s.readPt pa) (s.signed neg vk)) (raise .earith 2)
  pure (writesPt pd r)

/-- PORD (42_scalar.md R142). -/
def pordCmd (vd : VReg) (pa : PReg) (s : State) : Cmd Effect := do
  checkCfg s
  checkPt s pa
  let n ← s.cur.order Config.ordLimit (s.readPt pa)
  pure (writesV vd n)

/-- `PMUL pd, pa, ±vk` (42_scalar.md R141). -/
def execPmul (neg : Bool) (pd pa : PReg) (vk : VReg) (s : State) :
    Host.Outcome State Fault Refusal := finish s (pmulCmd neg pd pa vk s)

/-- `PORD vd, pa` (42_scalar.md R142). -/
def execPord (vd : VReg) (pa : PReg) (s : State) :
    Host.Outcome State Fault Refusal := finish s (pordCmd vd pa s)

end Sys2Proof.Machine
end

