-- ==== Sys2Proof/Machine/Ecdsa.lean ====
section
/-! DEFINITION. Digest truncation and the ECDSA controller: HTRUNC, SIGN and VERIFY
(43_ecdsa.md R150-R158). -/

namespace Sys2Proof.Machine

/-- `Trunc(H)` (43_ecdsa.md R150), in the reading the build takes (R151). The digest has 256 bits, so
`256 − (bitlen(n) − 1)` is the `257 − bitlen(n)` of the rule. -/
def trunc (mode : TruncMode) (n h : Nat) : Nat :=
  match mode with
  | .digestWidth => h >>> (Config.digestBits + 1 - bitlen n)
  | .integerBitlen =>
    if bitlen h ≤ bitlen n - 1 then h else h >>> (bitlen h - (bitlen n - 1))

/-- HTRUNC (43_ecdsa.md R152). -/
def htruncCmd (vd vh : VReg) (s : State) : Cmd Effect := do
  checkCfg s
  pure (writesV vd (trunc s.cfg.truncMode s.cur.n.toNat (s.nat vh)))

/-- The computation of SIGN (43_ecdsa.md R153) on the digest, the private key and the nonce: `(r, s)`
or ERETRY with the reason of R154. -/
def Curve.sign (c : Curve) (mode : TruncMode) (h d k : Nat) : Cmd (Nat × Nat) := do
  let n := c.n.toNat
  let z := trunc mode n h
  let big ← orElse (c.smul c.base k) (raise .eretry 1)
  match big with
  | .infinity => raise .eretry 2
  | .affine x _ =>
    let r := x % n
    let kinv ← orElse (modInv k n) (raise .eretry 3)
    let sg := kinv * (z + r * d) % n
    if r = 0 then raise .eretry 4
    else if sg = 0 then raise .eretry 5
    else pure (r, sg)

/-- SIGN (43_ecdsa.md R153): `r` to `V[RD]`, `s` to `V[RD+1]`. -/
def signCmd (vd vh vkey vk : VReg) (s : State) : Cmd Effect := do
  checkEven vd
  checkCfg s
  let (r, sg) ← s.cur.sign s.cfg.truncMode (s.nat vh) (s.nat vkey) (s.nat vk)
  pure ⟨[.v vd (toVal r), .v (pairReg vd) (toVal sg)], false⟩

/-- Step 1 of VERIFY: the public key is affine, in range and on the curve (43_ecdsa.md R156, R157). -/
def Curve.verifyKey (c : Curve) : Point → Cmd Unit
  | .infinity => reject 1
  | .affine x y =>
    if c.p.toNat ≤ x ∨ c.p.toNat ≤ y then reject 2
    else if c.contains (.affine x y) then .ok () else reject 3

/-- Step 2 of VERIFY: `n·Q` is `Infinity` (43_ecdsa.md R156). -/
def Curve.verifyOrder (c : Curve) (q : Point) : Cmd Unit := do
  let t ← orElse (c.smul q c.n.toNat) (reject 4)
  match t with
  | .infinity => .ok ()
  | .affine _ _ => reject 5

/-- Step 3 of VERIFY for one of `r` and `s`: rejected with reason `k` when flagged as overflowing or
above `n`; the comparison is `>` (43_ecdsa.md R156). -/
def verifyBound (ovf : Bool) (n x : Nat) (k : Nibble) : Cmd Unit :=
  if ovf ∨ n < x then reject k else .ok ()

/-- Step 5 of VERIFY: `C = u1·G + u2·Q`, or `none` when an inverse fails (43_ecdsa.md R156). -/
def Curve.combine (c : Curve) (u1 u2 : Nat) (q : Point) : Option Point :=
  match c.smul c.base u1 with
  | none => none
  | some a =>
    match c.smul q u2 with
    | none => none
    | some b => c.add a b

/-- The computation of VERIFY (43_ecdsa.md R156): an accept, or a reject with its reason. -/
def Curve.verify (c : Curve) (mode : TruncMode) (rovf sovf : Bool) (h r sg : Nat) (q : Point) :
    Cmd Unit := do
  let n := c.n.toNat
  c.verifyKey q
  c.verifyOrder q
  verifyBound rovf n r 6
  verifyBound sovf n sg 7
  let z := trunc mode n h
  let w ← orElse (modInv sg n) (reject 8)
  let big ← orElse (c.combine (z * w % n) (r * w % n) q) (reject 9)
  match big with
  | .infinity => reject 10
  | .affine x _ => if r % n = x % n then .ok () else reject 11

/-- VERIFY (43_ecdsa.md R156): no register is written. -/
def verifyCmd (rovf sovf : Bool) (vh vr : VReg) (pq : PReg) (s : State) : Cmd Effect := do
  checkEven vr
  checkCfg s
  s.cur.verify s.cfg.truncMode rovf sovf (s.nat vh) (s.nat vr) (s.nat (pairReg vr)) (s.readPt pq)
  pure (verdict true)

/-- `HTRUNC vd, vh` (43_ecdsa.md R152). -/
def execHtrunc (vd vh : VReg) (s : State) : Host.Outcome State Fault Refusal :=
  finish s (htruncCmd vd vh s)

/-- `SIGN vd, vh, vkey, vk` (43_ecdsa.md R153). -/
def execSign (vd vh vkey vk : VReg) (s : State) : Host.Outcome State Fault Refusal :=
  finish s (signCmd vd vh vkey vk s)

/-- `VERIFY vh, vr, pq` (43_ecdsa.md R156). -/
def execVerify (rovf sovf : Bool) (vh vr : VReg) (pq : PReg) (s : State) :
    Host.Outcome State Fault Refusal := finish s (verifyCmd rovf sovf vh vr pq s)

end Sys2Proof.Machine
end

