-- ==== Sys2Proof/Machine/System.lean ====
section
/-! DEFINITION. The system command (44_system.md R170). The control actions IE, SEAL and ABORT are
host writes, in Ops.lean. -/

namespace Sys2Proof.Machine

/-- NOP (44_system.md R170): no register is written and the configuration is not checked. -/
def nopCmd : Cmd Effect := .ok (verdict false)

/-- `NOP` (44_system.md R170). -/
def execNop (s : State) : Host.Outcome State Fault Refusal := finish s nopCmd

end Sys2Proof.Machine
end

