-- ==== Sys2Proof/Machine/Dispatch.lean ====
section
/-! DEFINITION. One arm per command (30_encoding.md R84). -/

namespace Sys2Proof.Machine

/-- `Exec` and the completion of the command (10_state.md R53, R54). -/
def exec (i : Instr) (s : State) : Host.Outcome State Fault Refusal :=
  match i with
  | .nop => Sys2Proof.Machine.execNop s
  | .fred m neg vd va => Sys2Proof.Machine.execFred m neg vd va s
  | .finv m neg vd va => Sys2Proof.Machine.execFinv m neg vd va s
  | .fadd m vd va vb => Sys2Proof.Machine.execFadd m vd va vb s
  | .fsub m vd va vb => Sys2Proof.Machine.execFsub m vd va vb s
  | .fmul m vd va vb => Sys2Proof.Machine.execFmul m vd va vb s
  | .padd pd pa pb => Sys2Proof.Machine.execPadd pd pa pb s
  | .pdbl pd pa => Sys2Proof.Machine.execPdbl pd pa s
  | .pneg pd pa => Sys2Proof.Machine.execPneg pd pa s
  | .pchk pa => Sys2Proof.Machine.execPchk pa s
  | .peq pa pb => Sys2Proof.Machine.execPeq pa pb s
  | .pldg pd => Sys2Proof.Machine.execPldg pd s
  | .pmul neg pd pa vk => Sys2Proof.Machine.execPmul neg pd pa vk s
  | .pord vd pa => Sys2Proof.Machine.execPord vd pa s
  | .htrunc vd vh => Sys2Proof.Machine.execHtrunc vd vh s
  | .sign vd vh vkey vk => Sys2Proof.Machine.execSign vd vh vkey vk s
  | .verify rovf sovf vh vr pq => Sys2Proof.Machine.execVerify rovf sovf vh vr pq s

end Sys2Proof.Machine
end

