-- ==== Sys2Proof/Machine/Engine.lean ====
section
/-! DEFINITION. The engine's step, and what each event of the total order does (10_state.md R54,
20_memory.md R69, 70_reset_and_hazards.md R226). -/

namespace Sys2Proof.Machine

/-- The engine's step, which it has only while `BUSY = 1` (10_state.md R40, R54): the word in `CMDREG`
is decoded and run. An idle block does nothing and keeps all its state (60_exceptions.md R195). -/
def engineStep (s : State) : Host.Outcome State Fault Refusal :=
  if s.busy then
    match decode s.cmdreg with
    | .ok i => exec i s
    | .error e => .next (s.takeIllegal e)
  else .next s

/-- One event of the total order, each a single indivisible step (20_memory.md R65, R69). -/
def handle (e : Event) (s : State) : Host.Outcome State Fault Refusal :=
  match e with
  | .engine => engineStep s
  | .read addr width => .next (hostRead s addr width)
  | .write addr width data => .next (hostWrite s addr width data)
  | .reset => .next s.resetEvent

/-- The word `w` accepted, with the engine to step next: what a CMD write to the idle block leaves
(10_state.md R52), whatever ran before. -/
def State.placeCommand (s : State) (w : Word) : State :=
  { s.accept w with events := .engine :: s.events }

end Sys2Proof.Machine
end

