-- ==== Sys2Proof/Machine/Step.lean ====
section
/-! DEFINITION. One step of the machine, and the host's way to place a command. -/

namespace Sys2Proof.Machine

/-- One step: the next event of the schedule takes effect. When no event is left the host is quiet, and
the engine, if busy, takes its step, as the fairness of 70_reset_and_hazards.md R226 has it. -/
def step (s : State) : Host.Outcome State Fault Refusal :=
  match s.events with
  | [] => engineStep s
  | e :: rest => handle e { s with events := rest }

/-- `s` with the command word whose bits are `w` accepted, so that the next step runs it. The block
fetches nothing: a command comes from the host's CMD write (10_state.md R21, 20_memory.md R73; log
entry 4). -/
def State.withFetchWord (s : State) (nbits w : Nat) : State :=
  s.placeCommand (BitVec.ofNat 32 (w % 2 ^ nbits))

end Sys2Proof.Machine
end

