-- ==== Sys2Proof/Machine/HostDuties.lean ====
section
/-! DEFINITION. What the spec has the host compute around the block: the digest value
(20_memory.md R63), the mapping of a request's integers (43_ecdsa.md R160) beside the verdict of the
document's `verify` on them, and the key recovery of 43_ecdsa.md R162. No step of the machine reads this
file. -/

namespace Sys2Proof.Machine

/-- `H = Σ D[i] · 2^(8·(31−i))`: the digest bytes, first byte most significant (20_memory.md R63). -/
def digestValue (bytes : List (BitVec 8)) : Nat :=
  bytes.foldl (fun acc d => 256 * acc + d.toNat) 0

/-- What the host writes for one integer of a request, and its overflow flag (43_ecdsa.md R160). -/
def mapInteger (n : Nat) (x : Int) : Bool × Nat :=
  if x < 0 then (false, modNat x n)
  else if x < 2 ^ 256 then (false, x.toNat)
  else (true, 0)

/-- What the host writes for a request; `none` is a malformed integer, which makes both 0
(43_ecdsa.md R160). The result is `((ROVF, r), (SOVF, s))`. -/
def mapRequest (n : Nat) (r sg : Option Int) : (Bool × Nat) × (Bool × Nat) :=
  match r, sg with
  | some x, some y => (mapInteger n x, mapInteger n y)
  | _, _ => ((false, 0), (false, 0))

/-- The verdict of the document's `verify` on integers of any size and sign: the steps of
43_ecdsa.md R156 with `r` and `s` unbounded (R160). -/
def Curve.softwareVerify (c : Curve) (mode : TruncMode) (h : Nat) (r sg : Int) (q : Point) : Bool :=
  let n := c.n.toNat
  match c.verifyKey q, c.verifyOrder q with
  | .ok (), .ok () =>
    if (n : Int) < r ∨ (n : Int) < sg then false
    else
      match modInv sg n with
      | none => false
      | some w =>
        match c.combine (trunc mode n h * w % n) (modNat (r * w) n) q with
        | some (.affine x _) => modNat r n == x % n
        | _ => false
  | _, _ => false

/-- The nonce from two signatures made with it: `k = (z1 − z2)·inverse(s1 − s2, n) mod n`
(43_ecdsa.md R162). -/
def recoverNonce (n : Nat) (z1 z2 s1 s2 : Int) : Option Nat :=
  (modInv (s1 - s2) n).map (fun i => modNat ((z1 - z2) * i) n)

/-- The private key from a signature and its nonce: `d = (s1·k − z1)·inverse(r, n) mod n`
(43_ecdsa.md R162). -/
def recoverKey (n : Nat) (r s1 z1 k : Int) : Option Nat :=
  (modInv r n).map (fun i => modNat ((s1 * k - z1) * i) n)

end Sys2Proof.Machine
end

