-- ==== Sys2Proof/Machine/Assembler.lean ====
section
/-! DEFINITION. The assembler syntax of commands and the pseudo-instructions (30_encoding.md R90, R91),
on lists of characters. Nothing in the machine reads this file: a host uses it to write programs. -/

namespace Sys2Proof.Machine

/-! ### Lexing: case-insensitive, `;` comments, operands separated by commas (R90) -/

/-- A line without its comment, in lower case, without blanks at its ends. R90 says that mnemonics and
register names are case-insensitive. That the rest of the line is too is the model's: label names (DESIGN
CHOICE, log entry 15), and the letters of a number, so that `0X` reads as `0x`, and the names `ROVF` and
`SOVF` (DESIGN CHOICE, log entry 10). -/
def cleanLine (l : List Char) : List Char :=
  let body := (l.takeWhile (· != ';')).map Char.toLower
  (((body.dropWhile Char.isWhitespace).reverse).dropWhile Char.isWhitespace).reverse

/-- The pieces of `l` between the characters `sep`. -/
def splitOnChar (sep : Char) : List Char → List (List Char)
  | [] => [[]]
  | ch :: rest =>
    if ch = sep then [] :: splitOnChar sep rest
    else
      match splitOnChar sep rest with
      | [] => [[ch]]
      | first :: others => (ch :: first) :: others

/-- A clean line as its first word and its operands. -/
def headAndOperands (l : List Char) : List Char × List (List Char) :=
  let word := l.takeWhile (fun ch => !ch.isWhitespace)
  let rest := cleanLine (l.drop word.length)
  (word, if rest.isEmpty then [] else (splitOnChar ',' rest).map cleanLine)

/-- The value of a hexadecimal digit in lower case. -/
def hexDigit (ch : Char) : Option Nat :=
  if '0' ≤ ch ∧ ch ≤ '9' then some (ch.toNat - '0'.toNat)
  else if 'a' ≤ ch ∧ ch ≤ 'f' then some (ch.toNat - 'a'.toNat + 10)
  else none

/-- Digits in a base, most significant first, from the value `acc` of those already read; `ready` says
that the last character was a digit. DESIGN CHOICE (log entry 10): an `_` stands only between two digits
(00_scope.md R7 has it "inside a number"), so a string without a digit is no number. -/
def digits (base : Nat) (ready : Bool) : List Char → Nat → Option Nat
  | [], acc => if ready then some acc else none
  | ch :: rest, acc =>
    if ch = '_' then
      if ready then digits base false rest acc else none
    else
      match hexDigit ch with
      | some d => if d < base then digits base true rest (acc * base + d) else none
      | none => none

/-- A number of a clean line: decimal, or hexadecimal with `0x` (R90), which the text may have written
`0X` (`cleanLine`). Leading zeros change nothing (DESIGN CHOICE, log entry 10). -/
def parseNumber : List Char → Option Nat
  | '0' :: 'x' :: ds => digits 16 false ds 0
  | ds => digits 10 false ds 0

/-- The one spelling of a register number: decimal, without leading zeros (10_state.md R23). -/
def numeral (n : Nat) : List Char := Nat.toDigits 10 n

/-- `vN`, rejected from `v16` on (R90). DESIGN CHOICE (log entry 14): only the names `v0` to `v15` of
10_state.md R23 are taken, so `v05`, `v1_5` and `v_` name no register. -/
def parseV : List Char → Option VReg
  | 'v' :: ds => (List.finRange 16).find? (fun r => ds == numeral r.val)
  | _ => none

/-- `pN`, rejected from `p8` on (R90); only the names `p0` to `p7` are taken (DESIGN CHOICE, log
entry 14). -/
def parseP : List Char → Option PReg
  | 'p' :: ds => (List.finRange 8).find? (fun j => ds == numeral j.val)
  | _ => none

/-- `vN` or `-vN` (R90). -/
def parseSignedV : List Char → Option (Bool × VReg)
  | '-' :: rest => (parseV rest).map (fun r => (true, r))
  | l => (parseV l).map (fun r => (false, r))

/-- The optional flags of VERIFY (R90). -/
def parseOverflow (ops : List (List Char)) : Option (Bool × Bool) :=
  if ops = [] then some (false, false)
  else if ops = [['r', 'o', 'v', 'f']] then some (true, false)
  else if ops = [['s', 'o', 'v', 'f']] then some (false, true)
  else if ops = [['r', 'o', 'v', 'f'], ['s', 'o', 'v', 'f']] then some (true, true)
  else none

/-- Whether a word of a line is the given name, written in lower case. -/
def isName (l : List Char) (name : String) : Bool := l == name.toList

/-- The stem of a mnemonic with a modulus suffix, and the modulus (R90). -/
def splitModulus (l : List Char) : Option (List Char × Modulus) :=
  match l.reverse with
  | 'p' :: '.' :: stem => some (stem.reverse, .p)
  | 'n' :: '.' :: stem => some (stem.reverse, .n)
  | _ => none

/-! ### Commands (R90) -/

/-- A field mnemonic with its modulus. -/
def assembleField (stem : List Char) (m : Modulus) (ops : List (List Char)) : Option Instr :=
  match ops with
  | [d, a] => do
    let vd ← parseV d
    let (neg, va) ← parseSignedV a
    if isName stem "fred" then some (.fred m neg vd va)
    else if isName stem "finv" then some (.finv m neg vd va)
    else none
  | [d, a, b] => do
    let vd ← parseV d
    let va ← parseV a
    let vb ← parseV b
    if isName stem "fadd" then some (.fadd m vd va vb)
    else if isName stem "fsub" then some (.fsub m vd va vb)
    else if isName stem "fmul" then some (.fmul m vd va vb)
    else none
  | _ => none

/-- A mnemonic without a modulus. -/
def assemblePlain (name : List Char) (ops : List (List Char)) : Option Instr :=
  match ops with
  | [] => if isName name "nop" then some .nop else none
  | [x] =>
    if isName name "pchk" then (parseP x).map .pchk
    else if isName name "pldg" then (parseP x).map .pldg
    else none
  | [x, y] =>
    if isName name "pdbl" then do some (.pdbl (← parseP x) (← parseP y))
    else if isName name "pneg" then do some (.pneg (← parseP x) (← parseP y))
    else if isName name "peq" then do some (.peq (← parseP x) (← parseP y))
    else if isName name "pord" then do some (.pord (← parseV x) (← parseP y))
    else if isName name "htrunc" then do some (.htrunc (← parseV x) (← parseV y))
    else none
  | x :: y :: z :: more =>
    if isName name "padd" ∧ more = [] then do
      some (.padd (← parseP x) (← parseP y) (← parseP z))
    else if isName name "pmul" ∧ more = [] then do
      let (neg, vk) ← parseSignedV z
      some (.pmul neg (← parseP x) (← parseP y) vk)
    else if isName name "sign" then
      match more with
      | [k] => do some (.sign (← parseV x) (← parseV y) (← parseV z) (← parseV k))
      | _ => none
    else if isName name "verify" then do
      let (rovf, sovf) ← parseOverflow more
      some (.verify rovf sovf (← parseV x) (← parseV y) (← parseP z))
    else none

/-- One command as words of a line; an odd register for an `e` operand is rejected (R90). -/
def assembleInstr (name : List Char) (ops : List (List Char)) : Option Instr :=
  let i := match splitModulus name with
    | some (stem, m) => assembleField stem m ops
    | none => assemblePlain name ops
  match i with
  | some j => if j.wf then some j else none
  | none => none

/-! ### Pseudo-instructions (R91) -/

/-- The four pseudo-instructions. -/
inductive Pseudo where
  | fneg (m : Modulus) (vd va : VReg)
  | fmov (m : Modulus) (vd va : VReg)
  | keygen (pd : PReg) (vkey : VReg)
  | psub (pd pa pb : PReg)
deriving DecidableEq, Repr

/-- The constraint of R91: the first command must not overwrite what the second reads. -/
def Pseudo.allowed : Pseudo → Bool
  | .fneg _ _ _ => true
  | .fmov _ _ _ => true
  | .keygen pd vkey => vkey.val != 2 * pd.val && vkey.val != 2 * pd.val + 1
  | .psub pd pa _ => pd != pa

/-- The commands a pseudo-instruction stands for, in order (R91). -/
def Pseudo.expand : Pseudo → List Instr
  | .fneg m vd va => [.fred m true vd va]
  | .fmov m vd va => [.fred m false vd va]
  | .keygen pd vkey => [.pldg pd, .pmul false pd pd vkey]
  | .psub pd pa pb => [.pneg pd pb, .padd pd pa pd]

/-- A pseudo-instruction as words of a line. -/
def assemblePseudo (name : List Char) (ops : List (List Char)) : Option Pseudo :=
  match splitModulus name, ops with
  | some (stem, m), [d, a] => do
    let vd ← parseV d
    let va ← parseV a
    if isName stem "fneg" then some (.fneg m vd va)
    else if isName stem "fmov" then some (.fmov m vd va)
    else none
  | none, [x, y] =>
    if isName name "keygen" then do some (.keygen (← parseP x) (← parseV y)) else none
  | none, [x, y, z] =>
    if isName name "psub" then do some (.psub (← parseP x) (← parseP y) (← parseP z)) else none
  | _, _ => none

/-- The words a command line stands for, one after the other: a command, a pseudo-instruction whose
constraint holds, or `.word imm32`, which is not checked (R90, R91). -/
def assembleWords (name : List Char) (ops : List (List Char)) : Option (List Word) :=
  match assembleInstr name ops with
  | some i => some [encode i]
  | none =>
    match assemblePseudo name ops with
    | some ps => if ps.allowed then some (ps.expand.map encode) else none
    | none =>
      match isName name ".word", ops with
      | true, [x] =>
        match parseNumber x with
        | some n => if n < 2 ^ 32 then some [BitVec.ofNat 32 n] else none
        | none => none
      | _, _ => none

/-- One command line (R90). -/
def assemble (line : List Char) : Option (List Word) :=
  let (name, ops) := headAndOperands (cleanLine line)
  assembleWords name ops

end Sys2Proof.Machine
end

