-- ==== Sys2Proof/Machine/Script.lean ====
section
/-! DEFINITION. Host scripts (30_encoding.md R92): their steps as bus accesses, their text, and a host
that runs one against the machine. The host is outside the block (00_scope.md §5, "Host"); this file
drives the machine and is read by no part of it. -/

namespace Sys2Proof.Machine

/-- One step of a script, after `label:` lines have been read off (R92). -/
inductive ScriptStep where
  | write (off : Nat) (v : Word)
  | read (off : Nat)
  | ldv (i : VReg) (imm : Val)
  | ldc (r : CurReg) (imm : Val)
  | setinf (b : Word)
  | seal
  | abort
  | issue (w : Word)
  | wait
  /-- A command alone: issued, and waited for. -/
  | command (w : Word)
  | label (name : List Char)
  | jif (off : Nat) (mask val : Word) (target : List Char)
  | stop
deriving DecidableEq, Repr

/-- One access of the host, or its end. A `jif` reads `off`, and goes to the operation `target` when
the bits of `mask` have the value `val`; the target `none` is the end of the program. -/
inductive HostOp where
  | write (off : Nat) (v : Word)
  | read (off : Nat)
  | jif (off : Nat) (mask val : Word) (target : Option Nat)
  | stop
deriving DecidableEq, Repr

/-- Eight word writes from the offset `base` on, word 0 first (20_memory.md R62). -/
def loadOps (base : Nat) (imm : Val) : List HostOp :=
  (List.finRange 8).map (fun w => .write (base + 4 * w.val) (getWord imm w))

/-- The number of a curve parameter register in the map (R92: in the order `A … N`). -/
def CurReg.index : CurReg → Nat
  | .a => 0
  | .b => 1
  | .c => 2
  | .p => 3
  | .gx => 4
  | .gy => 5
  | .n => 6

/-- `WAIT`, standing at operation number `pos` (R92). -/
def waitOp (pos : Nat) : HostOp := .jif 0x008 1 1 (some pos)

/-- The accesses of one step that stands at operation number `pos`; `labels` gives the number a label
marks. A JIF reads whatever its label is, and goes on to the next line where its condition fails; where the
condition holds, the jump to a label that no line marks ends the script (DESIGN CHOICE, log entry 7), and
one to a label that two lines mark goes to the first of them (DESIGN CHOICE, log entry 15). -/
def ScriptStep.ops (labels : List (List Char × Nat)) (pos : Nat) : ScriptStep → List HostOp
  | .write off v => [.write off v]
  | .read off => [.read off]
  | .ldv i imm => loadOps (0x100 + 32 * i.val) imm
  | .ldc r imm => loadOps (0x300 + 32 * r.index) imm
  | .setinf b => [.write 0x014 b]
  | .seal => [.write 0x004 0x2]
  | .abort => [.write 0x004 0x4]
  | .issue w => [.write 0x00C w]
  | .wait => [waitOp pos]
  | .command w => [.write 0x00C w, waitOp (pos + 1)]
  | .label _ => []
  | .jif off mask val target => [.jif off mask val (labels.lookup target)]
  | .stop => [.stop]

/-- The operation number each label of a script marks. -/
def labelsFrom (pos : Nat) : List ScriptStep → List (List Char × Nat)
  | [] => []
  | .label name :: rest => (name, pos) :: labelsFrom pos rest
  | st :: rest => labelsFrom (pos + (st.ops [] pos).length) rest

/-- A script as its accesses, from operation number `pos` on. -/
def lowerFrom (labels : List (List Char × Nat)) (pos : Nat) : List ScriptStep → List HostOp
  | [] => []
  | st :: rest =>
    let ops := st.ops labels pos
    ops ++ lowerFrom labels (pos + ops.length) rest

/-- A whole script as its accesses (R92). -/
def lower (script : List ScriptStep) : List HostOp := lowerFrom (labelsFrom 0 script) 0 script

/-! ### The host -/

/-- The host's own position in its program, and the values its READ steps recorded, newest first. -/
structure Driver where
  pc : Nat
  reads : List Word
deriving DecidableEq, Repr

/-- `BusRead(off)` by the host: the state after it, and the data (20_memory.md R60). At an offset outside
the window, which 20_memory.md R64 leaves to the platform, the block gives no answer and the host takes 0
as the data and goes on (DESIGN CHOICE, log entry 16). -/
def driverRead (s : State) (off : Nat) : State × Word :=
  let s' := hostRead s (s.cfg.base + off) .w32
  match s'.response with
  | .readData v => (s', v)
  | .readError v => (s', v)
  | _ => (s', 0)

/-- One access of the host; `none` when its program has ended. -/
def Driver.step (prog : List HostOp) (d : Driver) (s : State) : Option (Driver × State) :=
  match prog[d.pc]? with
  | some (.write off v) =>
    some ({ d with pc := d.pc + 1 }, hostWrite s (s.cfg.base + off) .w32 v)
  | some (.read off) =>
    let (s', v) := driverRead s off
    some ({ pc := d.pc + 1, reads := v :: d.reads }, s')
  | some (.jif off mask val target) =>
    let (s', v) := driverRead s off
    some ({ d with pc := if v &&& mask = val then target.getD prog.length else d.pc + 1 }, s')
  | some .stop => none
  | none => none

/-- The host and the block together under a schedule: `true` gives the engine its step, `false` the
host its next access, if its program has not ended (70_reset_and_hazards.md R226). -/
def runScript (prog : List HostOp) : List Bool → Driver → State → Driver × State
  | [], d, s => (d, s)
  | true :: rest, d, s =>
    match engineStep s with
    | .next s' => runScript prog rest d s'
    | _ => (d, s)
  | false :: rest, d, s =>
    match d.step prog s with
    | some (d', s') => runScript prog rest d' s'
    | none => runScript prog rest d s

/-! ### Script text (R92) -/

/-- The name of a curve parameter register. -/
def parseCurReg (l : List Char) : Option CurReg :=
  if isName l "a" then some .a
  else if isName l "b" then some .b
  else if isName l "c" then some .c
  else if isName l "p" then some .p
  else if isName l "gx" then some .gx
  else if isName l "gy" then some .gy
  else if isName l "n" then some .n
  else none

/-- A 32-bit value. -/
def parseWord (l : List Char) : Option Word :=
  match parseNumber l with
  | some n => if n < 2 ^ 32 then some (BitVec.ofNat 32 n) else none
  | none => none

/-- A 256-bit value. -/
def parseVal (l : List Char) : Option Val :=
  match parseNumber l with
  | some n => if n < 2 ^ 256 then some (toVal n) else none
  | none => none

/-- The script steps that are not commands. -/
def parseAccess (name : List Char) (ops : List (List Char)) : Option ScriptStep :=
  match ops with
  | [] =>
    if isName name "seal" then some .seal
    else if isName name "abort" then some .abort
    else if isName name "wait" then some .wait
    else if isName name "end" then some .stop
    else
      match name.reverse with
      | ':' :: l => some (.label l.reverse)
      | _ => none
  | [x] =>
    if isName name "read" then (parseNumber x).map .read
    else if isName name "setinf" then (parseWord x).map .setinf
    else none
  | [x, y] =>
    if isName name "write" then do some (.write (← parseNumber x) (← parseWord y))
    else if isName name "ldv" then do some (.ldv (← parseV x) (← parseVal y))
    else if isName name "ldc" then do some (.ldc (← parseCurReg x) (← parseVal y))
    else none
  | [x, m, v, l] =>
    if isName name "jif" then do some (.jif (← parseNumber x) (← parseWord m) (← parseWord v) l)
    else none
  | _ => none

/-- One line of a script as its steps; an empty line has none. A command alone is issued and waited
for, and each command of a pseudo-instruction is (R91, R92). -/
def parseLine (line : List Char) : Option (List ScriptStep) :=
  let l := cleanLine line
  if l = [] then some []
  else
    let (name, ops) := headAndOperands l
    match parseAccess name ops with
    | some st => some [st]
    | none =>
      if isName name "issue" then
        match assemble (l.drop 5) with
        | some [w] => some [.issue w]
        | _ => none
      else (assembleWords name ops).map (fun ws => ws.map .command)

/-- The lines of a script; `none` when one of them is no step. -/
def parseScript : List (List Char) → Option (List ScriptStep)
  | [] => some []
  | l :: rest =>
    match parseLine l, parseScript rest with
    | some a, some b => some (a ++ b)
    | _, _ => none

end Sys2Proof.Machine
end

