-- ==== Sys2Proof/Safety.lean ====
section
/-! DEFINITION. What the claims are stated in: the conditions under which a command runs normally, what a
completion leaves unchanged, which reports are legal, the invariant of the report fields, the field
shapes of 30_encoding.md R84, and repeated addition. -/

namespace Sys2Proof.Machine

/-! ### Conditions on the state -/

/-- The configuration passes every check of 60_exceptions.md R184 step 2. -/
abbrev Curve.Ok (c : Curve) : Prop :=
  2 ≤ c.p.toNat ∧ 2 ≤ c.n.toNat ∧ c.gx.toNat < c.p.toNat ∧ c.gy.toNat < c.p.toNat

/-- Point register `j` passes `CheckPt` (41_point.md R120). -/
abbrev State.PtOk (s : State) (j : PReg) : Prop :=
  s.readInf j = true ∨
    ((s.readV (xReg j)).toNat < s.cur.p.toNat ∧ (s.readV (yReg j)).toNat < s.cur.p.toNat)

/-- A point of the data model: `Infinity`, or both coordinates in `[0, p)` (41_point.md R129). -/
def Point.InRange (p : Nat) : Point → Prop
  | .infinity => True
  | .affine x y => x < p ∧ y < p

/-- The point registers a command checks, in order (41_point.md R120, 60_exceptions.md R184 step 3). -/
def pointOperands : Instr → List PReg
  | .padd _ pa pb => [pa, pb]
  | .pdbl _ pa => [pa]
  | .pneg _ pa => [pa]
  | .pchk pa => [pa]
  | .peq pa pb => [pa, pb]
  | .pmul _ _ pa _ => [pa]
  | .pord _ pa => [pa]
  | .nop => []
  | .fred _ _ _ _ => []
  | .finv _ _ _ _ => []
  | .fadd _ _ _ _ => []
  | .fsub _ _ _ _ => []
  | .fmul _ _ _ _ => []
  | .pldg _ => []
  | .htrunc _ _ => []
  | .sign _ _ _ _ => []
  | .verify _ _ _ _ _ => []

/-! ### What a completion leaves -/

/-- What no command writes: the curve registers, the control and sticky bits, `CMDREG`, and the
model's own fields. -/
structure State.SameControl (s t : State) : Prop where
  cur : t.cur = s.cur
  sealed : t.sealed = s.sealed
  ie : t.ie = s.ie
  ovr : t.ovr = s.ovr
  werr : t.werr = s.werr
  cmdreg : t.cmdreg = s.cmdreg
  cfg : t.cfg = s.cfg
  events : t.events = s.events
  response : t.response = s.response

/-- The report of a completion (10_state.md R54). -/
structure State.Reports (t : State) (code info : Nibble) (res : Bool) : Prop where
  busy : t.busy = false
  done : t.done = true
  err : t.err = (code != 0)
  errcode : t.errcode = code
  errinfo : t.errinfo = info
  result : t.result = res
  doneIrq : t.doneIrq = true

/-- No operand register and no `INF` bit is written. -/
structure State.SameOperands (s t : State) : Prop where
  v : t.v = s.v
  inf : t.inf = s.inf

/-- Only the operand registers of the list may differ; `INF` is the same. -/
structure State.OnlyV (s t : State) (regs : List VReg) : Prop where
  v : ∀ i, i ∉ regs → t.readV i = s.readV i
  inf : t.inf = s.inf

/-- Only point register `j` may differ: its two coordinates and its `INF` bit. -/
structure State.OnlyPt (s t : State) (j : PReg) : Prop where
  v : ∀ i, i ≠ xReg j → i ≠ yReg j → t.readV i = s.readV i
  inf : ∀ k, k ≠ j → t.readInf k = s.readInf k

/-- The command ended with an error: nothing is written, and the report says which
(60_exceptions.md R180). -/
structure State.Fails (s t : State) (code info : Nibble) : Prop where
  operands : s.SameOperands t
  control : s.SameControl t
  report : t.Reports code info false

/-! ### Legal reports and the invariant of the report fields -/

/-- The pairs of ERRCODE and ERRINFO of 60_exceptions.md R182. -/
def legalReport (code info : Nibble) : Bool :=
  match code.toNat with
  | 0 => info.toNat ≤ 11
  | 1 => 1 ≤ info.toNat && info.toNat ≤ 2
  | 2 => 1 ≤ info.toNat && info.toNat ≤ 3
  | 3 => 1 ≤ info.toNat && info.toNat ≤ 8
  | 4 => 1 ≤ info.toNat && info.toNat ≤ 2
  | 5 => 1 ≤ info.toNat && info.toNat ≤ 5
  | 6 => info.toNat == 0
  | 7 => info.toNat == 0
  | _ => false

/-- The report fields are as the life of a command leaves them (10_state.md R40-R43, R52, R54): no
report while a command runs, `ERR` says whether there is a code, the pair of code and sub-code is in the
table of 60_exceptions.md R182, a result comes without an error, and an idle block that is not done has
never accepted a command. -/
structure State.ReportInv (s : State) : Prop where
  running : s.busy = true →
    s.done = false ∧ s.err = false ∧ s.result = false ∧ s.errcode = 0 ∧ s.errinfo = 0
  errBit : s.err = (s.errcode != 0)
  legal : legalReport s.errcode s.errinfo = true
  resultClean : s.result = true → s.errcode = 0 ∧ s.errinfo = 0
  fresh : s.busy = false → s.done = false →
    s.cmdreg = 0 ∧ s.result = false ∧ s.errcode = 0 ∧ s.errinfo = 0 ∧ s.doneIrq = false

/-- The machine goes on: no fault and no refusal (60_exceptions.md R196). -/
def Safe (s : State) : Prop := ∃ t, step s = .next t

/-! ### The field shapes of 30_encoding.md R84 -/

/-- How a command uses a register field (30_encoding.md R84, R85). -/
inductive FieldKind where
  /-- Must be 0. -/
  | unused
  /-- Any operand register. -/
  | v
  /-- An even operand register. -/
  | e
  /-- A point register: bit 3 is 0. -/
  | p
deriving DecidableEq, Repr

/-- Whether a field's value is legal for its kind (30_encoding.md R85, R87). -/
def FieldKind.legal (k : FieldKind) (f : BitVec 4) : Bool :=
  match k with
  | .unused => f == 0
  | .v => true
  | .e => !f.getLsbD 0
  | .p => !f.getLsbD 3

/-- One row of the table of 30_encoding.md R84: the four fields, and the flags allowed. -/
structure Shape where
  rd : FieldKind
  ra : FieldKind
  rb : FieldKind
  rc : FieldKind
  flags : BitVec 10
deriving DecidableEq, Repr

/-- The table of 30_encoding.md R84 with the flag bits of R83. -/
def shapeOf (opc : Nat) : Option Shape :=
  match opc with
  | 0x00 => some ⟨.unused, .unused, .unused, .unused, 0⟩
  | 0x01 => some ⟨.v, .v, .unused, .unused, 0x3⟩
  | 0x02 => some ⟨.v, .v, .unused, .unused, 0x3⟩
  | 0x03 => some ⟨.v, .v, .v, .unused, 0x1⟩
  | 0x04 => some ⟨.v, .v, .v, .unused, 0x1⟩
  | 0x05 => some ⟨.v, .v, .v, .unused, 0x1⟩
  | 0x08 => some ⟨.p, .p, .p, .unused, 0⟩
  | 0x09 => some ⟨.p, .p, .unused, .unused, 0⟩
  | 0x0A => some ⟨.p, .p, .unused, .unused, 0⟩
  | 0x0B => some ⟨.unused, .p, .unused, .unused, 0⟩
  | 0x0C => some ⟨.unused, .p, .p, .unused, 0⟩
  | 0x0D => some ⟨.p, .unused, .unused, .unused, 0⟩
  | 0x10 => some ⟨.p, .p, .v, .unused, 0x4⟩
  | 0x11 => some ⟨.v, .p, .unused, .unused, 0⟩
  | 0x18 => some ⟨.v, .v, .unused, .unused, 0⟩
  | 0x19 => some ⟨.e, .v, .v, .v, 0⟩
  | 0x1A => some ⟨.unused, .v, .e, .p, 0x18⟩
  | _ => none

/-- No constraint of 30_encoding.md R87 is broken: the fields are legal for their kinds, and no flag
outside the allowed ones is set. -/
def Shape.legal (sh : Shape) (w : Word) : Bool :=
  sh.rd.legal (w.extractLsb' 22 4) && sh.ra.legal (w.extractLsb' 18 4)
    && sh.rb.legal (w.extractLsb' 14 4) && sh.rc.legal (w.extractLsb' 10 4)
    && (w.extractLsb' 0 10 &&& ~~~sh.flags == 0)

/-! ### Repeated addition -/

/-- `Q_k`: `Q_1 = P` and `Q_(k+1) = Add(Q_k, P)` (42_scalar.md R142); `none` is a failed inverse. There
is no `Q_0`. -/
def Curve.multiple (c : Curve) (pt : Point) : Nat → Option Point
  | 0 => none
  | 1 => some pt
  | k + 2 =>
    match multiple c pt (k + 1) with
    | none => none
    | some q => c.add q pt

end Sys2Proof.Machine
end

