-- ==== Sys2Proof/Certificates/Slice0/Obligations.lean ====
section
/-! DEFINITION. The statements about ECC-CORE, in the order of OBLIGATIONS.json. Each docstring names the
rule of spec/ the statement formalises. -/

open Sys2Proof Sys2Proof.Machine

/-! ### Decoding -/

/-- Words written out from the fields of 30_encoding.md R81, R84 decode to the instruction they stand
for, at least one for each family, and illegal ones are refused by name. -/
def Obligations.DecodeReadsSpecWords : Prop :=
  decode 0x00000000 = .ok .nop ∧
  decode 0x12A24001 = .ok (.fsub .n 10 8 9) ∧
  decode 0x04040003 = .ok (.fred .n true 0 1) ∧
  decode 0x2108C000 = .ok (.padd 4 2 3) ∧
  decode 0x30004000 = .ok (.peq 0 1) ∧
  decode 0x40410004 = .ok (.pmul true 1 0 4) ∧
  decode 0x45800000 = .ok (.pord 6 0) ∧
  decode 0x672A2400 = .ok (.sign 12 10 8 9) ∧
  decode 0x68190018 = .ok (.verify true true 6 4 0) ∧
  decode 0x18000000 = .error .undefinedOpcode ∧
  decode 0x20200000 = .error .fieldConstraint ∧
  decode 0x00000001 = .error .fieldConstraint

/-- Decoding the word of a well-formed instruction gives it back, for every instruction and every value
of its operands (30_encoding.md R81-R85). -/
def Obligations.DecodeOfEncode : Prop :=
  ∀ i : Instr, i.WellFormed → decode (encode i) = .ok i

/-- Each legal word has one meaning: encoding what it decodes to gives the word back, and what it decodes
to is well-formed (30_encoding.md R81-R88). -/
def Obligations.EncodeOfDecode : Prop :=
  ∀ (w : Word) (i : Instr), decode w = .ok i → encode i = w ∧ i.WellFormed

/-- 30_encoding.md R88: an opcode outside the table is `Illegal(1)`; for a row, a word that fails the
row's mask is `Illegal(2)`, and one that passes gives the row applied to its fields; the word decodes to
the row exactly when it passes, and it passes no other row. -/
def Obligations.DecodeIsTheMatchMaskTable : Prop :=
  (∀ w : Word, rowOf (opcOf w) = none → decode w = .error .undefinedOpcode) ∧
  (∀ (w : Word) (r : Row), rowOf (opcOf w) = some r → w &&& r.mask ≠ r.pattern →
    decode w = .error .fieldConstraint) ∧
  (∀ (w : Word) (r : Row), rowOf (opcOf w) = some r → w &&& r.mask = r.pattern →
    ∃ i, applyRow (opcOf w) w = some i ∧ decode w = .ok i) ∧
  (∀ (w : Word) (opc : Nat) (r : Row), rowOf opc = some r → w &&& r.mask = r.pattern →
    opcOf w = opc ∧ ∃ i, decode w = .ok i)

/-- 30_encoding.md R87 against the table of R84: for a defined opcode the word is illegal exactly when a
field breaks its kind or a flag that is not allowed is set. -/
def Obligations.IllegalExactlyOnBrokenField : Prop :=
  ∀ (w : Word) (sh : Shape), shapeOf (opcOf w) = some sh →
    (decode w = .error .fieldConstraint ↔ sh.legal w = false) ∧
    ((∃ i, decode w = .ok i) ↔ sh.legal w = true)

/-- 30_encoding.md R86 on the undefined opcodes of R84: an idle block accepts such a word, and it then
completes with EILLEGAL(1) and writes nothing. -/
def Obligations.UndefinedOpcodeCompletesIllegal : Prop :=
  ∀ (s : State) (w : Word), s.busy = false →
    opcOf w ∈ [0x06, 0x07, 0x0E, 0x0F, 0x12, 0x13, 0x14, 0x15, 0x16, 0x17] ∨ 0x1B ≤ opcOf w →
    (s.issue w).busy = true ∧ (s.issue w).cmdreg = w ∧
      ∃ t, engineStep (s.issue w) = .next t ∧ (s.issue w).Fails t 1 1

/-! ### The step -/

/-- A step performs the next event. When a command is running, its word decodes, and the engine is next
(by the schedule, or because no event is left: log entry 1), the step is `exec` of the instruction on the
state with that event taken off the schedule. When a host access is next, the step is that access on the
state with the event taken off, and an aligned 32-bit access at `BASE + off` in the window is `BusRead` or
`BusWrite` with its answer (20_memory.md R60, R69; the answer is kept in the model's field `response`, log
entry 3). -/
def Obligations.StepPerformsTheNextEvent : Prop :=
  ∀ (s : State) (rest : List Event),
    (∀ i : Instr, s.busy = true → decode s.cmdreg = .ok i →
      (s.events = .engine :: rest ∨ (s.events = [] ∧ rest = [])) →
      step s = exec i { s with events := rest }) ∧
    (∀ addr width, s.events = .read addr width :: rest →
      step s = .next (hostRead { s with events := rest } addr width)) ∧
    (∀ addr width v, s.events = .write addr width v :: rest →
      step s = .next (hostWrite { s with events := rest } addr width v)) ∧
    ∀ (off : Nat) (v : Word), off < 0x1000 → off % 4 = 0 →
      hostRead s (s.cfg.base + off) .w32 = { s with response := .readData (busRead s off) } ∧
      hostWrite s (s.cfg.base + off) .w32 v = { busWrite s off v with response := .writeDone }

/-- A running word that does not decode completes with EILLEGAL and its sub-code, and writes nothing
(30_encoding.md R86, R87; 60_exceptions.md R180). -/
def Obligations.IllegalWordCompletes : Prop :=
  ∀ (s : State) (e : DecodeError) (rest : List Event), s.busy = true → decode s.cmdreg = .error e →
    (s.events = .engine :: rest ∨ (s.events = [] ∧ rest = [])) →
    ∃ t, step s = .next t ∧
      ({ s with events := rest } : State).Fails t 1 (match e with
        | .undefinedOpcode => 1
        | .fieldConstraint => 2)

/-- "The block has no fault that stops it": every step of every state answers a next state
(60_exceptions.md R196). -/
def Obligations.EveryStepGoesOn : Prop := ∀ s : State, Safe s

/-- 10_state.md R50 with R33: every piece of block state after reset. -/
def Obligations.ResetValues : Prop :=
  (∀ i, State.reset.readV i = 0) ∧ (∀ j, State.reset.readInf j = false) ∧
  State.reset.cur.a = 0 ∧ State.reset.cur.b = 0 ∧ State.reset.cur.c = 7 ∧
  State.reset.cur.p.toNat = 2 ^ 256 - 2 ^ 32 - 2 ^ 9 - 2 ^ 8 - 2 ^ 7 - 2 ^ 6 - 2 ^ 4 - 1 ∧
  State.reset.cur.gx = 0x79BE667EF9DCBBAC55A06295CE870B07029BFCDB2DCE28D959F2815B16F81798 ∧
  State.reset.cur.gy = 0x483ADA7726A3C4655DA4FBFC0E1108A8FD17B448A68554199C47D08FFB10D4B8 ∧
  State.reset.cur.n = 0xFFFFFFFFFFFFFFFFFFFFFFFFFFFFFFFEBAAEDCE6AF48A03BBFD25E8CD0364141 ∧
  State.reset.sealed = false ∧ State.reset.ie = false ∧ State.reset.busy = false ∧
  State.reset.done = false ∧ State.reset.err = false ∧ State.reset.result = false ∧
  State.reset.ovr = false ∧ State.reset.werr = false ∧ State.reset.errcode = 0 ∧
  State.reset.errinfo = 0 ∧ State.reset.cmdreg = 0 ∧ State.reset.doneIrq = false ∧
  State.reset.irq = false

/-- A reset event gives every piece of block state its reset value in one step, whatever the state was:
nothing survives, a running command is lost with no completion, and `SEALED` and the curve registers
return too (70_reset_and_hazards.md R210-R212). That the schedule and the configuration stay is the
model's choice (log entries 2, 3). -/
def Obligations.ResetEventRestoresTheBlock : Prop :=
  ∀ (s : State) (rest : List Event), s.events = .reset :: rest →
    ∃ t, step s = .next t ∧ t.toBlock = State.reset.toBlock ∧ t.cfg = s.cfg ∧ t.events = rest

/-- The invariant of the report fields holds after reset. -/
def Obligations.ReportInvariantAtReset : Prop := State.reset.ReportInv

/-- Every step keeps the invariant of the report fields, from every state that has it
(10_state.md R40-R43, R52, R54; 60_exceptions.md R181, R182; 44_system.md R172): no report while a
command runs, `ERR` exactly when there is a code, only the pairs of the sub-code table, a result only
without an error, and `BUSY = 0 ∧ DONE = 0` only before the first command after reset. -/
def Obligations.StepKeepsReportInvariant : Prop :=
  ∀ s t : State, s.ReportInv → step s = .next t → t.ReportInv

/-- While `SEALED = 1` nothing but reset changes the curve parameter registers or clears `SEALED`
(10_state.md R35). -/
def Obligations.SealedCurveChangesOnlyAtReset : Prop :=
  ∀ s t : State, s.sealed = true → (∀ rest, s.events ≠ .reset :: rest) → step s = .next t →
    t.sealed = true ∧ t.cur = s.cur

/-- Bounded fairness: with only host reads scheduled, the running command is done after one step more
than there are reads (70_reset_and_hazards.md R226; that the engine steps once the host is quiet is the
model's reading of its fairness, log entry 1). -/
def Obligations.ReadsThenCompletion : Prop :=
  ∀ s : State, s.busy = true → (∀ e ∈ s.events, ∃ addr width, e = .read addr width) →
    ∃ t, Host.Core.run Sys2Proof.core (s.events.length + 1) s = .next t ∧
      t.busy = false ∧ t.done = true ∧ t.doneIrq = true

/-- Every command: it completes, leaving the engine idle with DONE and the interrupt pending, and outside
the operand registers, `INF` and the report it changes nothing (10_state.md R53, R54). -/
def Obligations.CommandsChangeOperandsAndReportOnly : Prop :=
  ∀ (i : Instr) (s : State), ∃ t, exec i s = .next t ∧ s.SameControl t ∧
    t.busy = false ∧ t.done = true ∧ t.doneIrq = true ∧ t.err = (t.errcode != 0)

/-- An error is precise: the state before the command plus the report, and `RESULT` is 0
(60_exceptions.md R180). -/
def Obligations.ErrorsWriteNothing : Prop :=
  ∀ (i : Instr) (s t : State), exec i s = .next t → t.err = true →
    s.SameOperands t ∧ s.SameControl t ∧ t.result = false

/-- Only point results change `INF`: a command that writes operand registers as scalars, and one that
writes none, leaves it (10_state.md R27). -/
def Obligations.OnlyPointResultsChangeInf : Prop :=
  ∀ (i : Instr) (s t : State), exec i s = .next t → t.inf ≠ s.inf →
    (∃ pd pa pb, i = .padd pd pa pb) ∨ (∃ pd pa, i = .pdbl pd pa) ∨ (∃ pd pa, i = .pneg pd pa) ∨
      (∃ pd, i = .pldg pd) ∨ (∃ neg pd pa vk, i = .pmul neg pd pa vk)

/-- Which commands report what (60_exceptions.md R181, 10_state.md R43): a well-formed command never reports
EILLEGAL or EABORT of itself, no command reports a reserved code, each other code comes only from the
commands of the table, and `RESULT` is set by PCHK, PEQ and VERIFY only, never with an error, and with no
operand written. -/
def Obligations.ReportsByCommand : Prop :=
  ∀ (i : Instr) (s t : State), i.WellFormed → exec i s = .next t →
    t.errcode.toNat ≤ 6 ∧ t.errcode ≠ 1 ∧
    (t.errcode = 2 → i ≠ .nop) ∧
    (t.errcode = 3 → pointOperands i ≠ []) ∧
    (t.errcode = 4 → (∃ m neg vd va, i = .finv m neg vd va) ∨ (∃ pd pa pb, i = .padd pd pa pb) ∨
      (∃ pd pa, i = .pdbl pd pa) ∨ (∃ neg pd pa vk, i = .pmul neg pd pa vk) ∨
      (∃ vd pa, i = .pord vd pa)) ∧
    (t.errcode = 5 → ∃ vd vh vkey vk, i = .sign vd vh vkey vk) ∧
    ((∀ vd pa, i ≠ .pord vd pa) → t.errcode ≠ 6) ∧
    (t.result = true → t.errcode = 0 ∧ t.errinfo = 0 ∧ s.SameOperands t ∧
      ((∃ pa, i = .pchk pa) ∨ (∃ pa pb, i = .peq pa pb) ∨
        ∃ rovf sovf vh vr pq, i = .verify rovf sovf vh vr pq))

/-- The outcome of a command is a function of `V`, `INF`, the curve registers and `TRUNC_MODE` alone
(10_state.md R53): two states that agree on those are left with the same operands and the same report,
sealed or not, whatever the other registers hold. -/
def Obligations.OutcomeDependsOnInputsOnly : Prop :=
  ∀ (i : Instr) (s s' t t' : State), s.v = s'.v → s.inf = s'.inf → s.cur = s'.cur →
    s.cfg.truncMode = s'.cfg.truncMode → exec i s = .next t → exec i s' = .next t' →
    t.v = t'.v ∧ t.inf = t'.inf ∧ t.err = t'.err ∧ t.result = t'.result ∧
      t.errcode = t'.errcode ∧ t.errinfo = t'.errinfo

/-- The configuration check comes before everything but decoding, in its order, for every command but
NOP (60_exceptions.md R184 step 2). -/
def Obligations.ConfigurationErrors : Prop :=
  ∀ (i : Instr) (s : State), i.WellFormed → i ≠ .nop →
    (s.cur.p.toNat < 2 → ∃ t, exec i s = .next t ∧ s.Fails t 2 1) ∧
    (2 ≤ s.cur.p.toNat → s.cur.n.toNat < 2 → ∃ t, exec i s = .next t ∧ s.Fails t 2 2) ∧
    (2 ≤ s.cur.p.toNat → 2 ≤ s.cur.n.toNat →
      (s.cur.p.toNat ≤ s.cur.gx.toNat ∨ s.cur.p.toNat ≤ s.cur.gy.toNat) →
      ∃ t, exec i s = .next t ∧ s.Fails t 2 3)

/-- With a usable configuration, the first point operand out of range, in the order `pa`, `pb`, ends the
command with EOPERAND and its number plus 1 (41_point.md R120, 60_exceptions.md R184 step 3). -/
def Obligations.PointOperandErrors : Prop :=
  ∀ (i : Instr) (s : State) (before after : List PReg) (j : PReg), s.cur.Ok →
    pointOperands i = before ++ j :: after → (∀ k ∈ before, s.PtOk k) → ¬ s.PtOk j →
    ∃ t, exec i s = .next t ∧ s.Fails t 3 (BitVec.ofNat 4 (j.val + 1))

/-! ### System and field commands -/

/-- NOP completes with the report of a success and changes nothing else, whatever the configuration
(44_system.md R170). -/
def Obligations.NopCompletes : Prop :=
  ∀ s : State, exec .nop s = .next { s with
    busy := false, done := true, err := false, result := false, errcode := 0, errinfo := 0,
    doneIrq := true }

/-- FRED leaves `±V[RA] mod m` in `V[RD]`, in `[0, m)`, and changes nothing else but the report
(40_field.md R102). -/
def Obligations.FredResult : Prop :=
  ∀ (m : Modulus) (neg : Bool) (vd va : VReg) (s : State), s.cur.Ok →
    ∃ t, exec (.fred m neg vd va) s = .next t ∧
      ((t.readV vd).toNat : Int) =
        (if neg then -((s.readV va).toNat : Int) else ((s.readV va).toNat : Int)) %
          (s.cur.modulus m : Int) ∧
      s.OnlyV t [vd] ∧ s.SameControl t ∧ t.Reports 0 0 false

/-- FADD, FSUB and FMUL leave the exact sum, difference or product of `V[RA]` and `V[RB]`, reduced modulo
`m`, in `V[RD]`, and change nothing else but the report (40_field.md R104-R106). -/
def Obligations.SumDifferenceProductResults : Prop :=
  ∀ (m : Modulus) (vd va vb : VReg) (s : State), s.cur.Ok →
    (∃ t, exec (.fadd m vd va vb) s = .next t ∧
      ((t.readV vd).toNat : Int) =
        ((s.readV va).toNat + (s.readV vb).toNat : Int) % (s.cur.modulus m : Int) ∧
      s.OnlyV t [vd] ∧ s.SameControl t ∧ t.Reports 0 0 false) ∧
    (∃ t, exec (.fsub m vd va vb) s = .next t ∧
      ((t.readV vd).toNat : Int) =
        ((s.readV va).toNat - (s.readV vb).toNat : Int) % (s.cur.modulus m : Int) ∧
      s.OnlyV t [vd] ∧ s.SameControl t ∧ t.Reports 0 0 false) ∧
    (∃ t, exec (.fmul m vd va vb) s = .next t ∧
      ((t.readV vd).toNat : Int) =
        ((s.readV va).toNat * (s.readV vb).toNat : Int) % (s.cur.modulus m : Int) ∧
      s.OnlyV t [vd] ∧ s.SameControl t ∧ t.Reports 0 0 false)

/-- FINV on an invertible source leaves the inverse in `[1, m)`; otherwise it ends with EARITH(1) and
writes nothing (40_field.md R101, R103). -/
def Obligations.FinvResult : Prop :=
  ∀ (m : Modulus) (neg : Bool) (vd va : VReg) (s : State) (x : Int), s.cur.Ok →
    x = (if neg then -((s.readV va).toNat : Int) else ((s.readV va).toNat : Int)) →
    (Int.gcd x (s.cur.modulus m) = 1 → ∃ t, exec (.finv m neg vd va) s = .next t ∧
      1 ≤ (t.readV vd).toNat ∧ (t.readV vd).toNat < s.cur.modulus m ∧
      x * ((t.readV vd).toNat : Int) % (s.cur.modulus m : Int) = 1 ∧
      s.OnlyV t [vd] ∧ s.SameControl t ∧ t.Reports 0 0 false) ∧
    (Int.gcd x (s.cur.modulus m) ≠ 1 → ∃ t, exec (.finv m neg vd va) s = .next t ∧
      s.Fails t 4 1)

/-- The inverse primitive (40_field.md R101): it exists exactly when `gcd(a mod m, m) = 1`, it is then
the unique `b` in `[1, m)` with `a·b mod m = 1`, and for a prime modulus it exists exactly when
`a mod m ≠ 0` and is `(a mod m)^(m−2) mod m`. -/
def Obligations.InverseContract : Prop :=
  ∀ (a : Int) (m : Nat), 2 ≤ m →
    ((∃ b, modInv a m = some b) ↔ Int.gcd (a % m) m = 1) ∧
    (∀ b, modInv a m = some b ↔ (1 ≤ b ∧ b < m ∧ a % m * b % m = 1)) ∧
    (m.Prime → (modInv a m = none ↔ a % m = 0)) ∧
    (m.Prime → a % m ≠ 0 → modInv a m = some ((a % m).toNat ^ (m - 2) % m))

/-! ### Points -/

/-- 41_point.md R121, the cases in order, for coordinates below `p`. The slope is any solution `lam` of
its defining equation, so the statement does not depend on how the inverse is found. -/
def Obligations.AddFollowsTheFormulas : Prop :=
  ∀ (c : Curve), 2 ≤ c.p.toNat →
    (∀ q, c.add .infinity q = some q) ∧ (∀ q, c.add q .infinity = some q) ∧
    ∀ x1 y1 x2 y2 : Nat, x1 < c.p.toNat → y1 < c.p.toNat → x2 < c.p.toNat → y2 < c.p.toNat →
      (x1 = x2 → y1 ≠ y2 → c.add (.affine x1 y1) (.affine x2 y2) = some .infinity) ∧
      (x1 = x2 → y1 = y2 → y1 = 0 → c.add (.affine x1 y1) (.affine x2 y2) = some .infinity) ∧
      (x1 = x2 → y1 = y2 → y1 ≠ 0 → Int.gcd (2 * y1) c.p.toNat ≠ 1 →
        c.add (.affine x1 y1) (.affine x2 y2) = none) ∧
      (x1 ≠ x2 → Int.gcd ((x2 : Int) - x1) c.p.toNat ≠ 1 →
        c.add (.affine x1 y1) (.affine x2 y2) = none) ∧
      ∀ lam x3 y3 : Int,
        (x1 = x2 ∧ y1 = y2 ∧ y1 ≠ 0 ∧ Int.gcd (2 * y1) c.p.toNat = 1 ∧
            2 * (y1 : Int) * lam ≡ 3 * (x1 : Int) ^ 2 + 2 * (c.a.toNat : Int) * x1 + c.b.toNat
              [ZMOD c.p.toNat]) ∨
          (x1 ≠ x2 ∧ Int.gcd ((x2 : Int) - x1) c.p.toNat = 1 ∧
            ((x2 : Int) - x1) * lam ≡ (y2 : Int) - y1 [ZMOD c.p.toNat]) →
        x3 = (lam ^ 2 - c.a.toNat - x1 - x2) % (c.p.toNat : Int) →
        y3 = (-lam * x3 - (y1 - lam * x1)) % (c.p.toNat : Int) →
        c.add (.affine x1 y1) (.affine x2 y2) = some (.affine x3.toNat y3.toNat)

/-- For an odd prime `p`, addition of points in range never fails and stays in range, and a point plus its
negative is `Infinity` (41_point.md R129 items 1 and 3). -/
def Obligations.AddTotalWithInverses : Prop :=
  ∀ (c : Curve) (q r : Point), c.p.toNat.Prime → c.p.toNat ≠ 2 → q.InRange c.p.toNat →
    r.InRange c.p.toNat →
    (∃ t, c.add q r = some t ∧ t.InRange c.p.toNat) ∧ c.add q (c.neg q) = some .infinity

/-- Closure: for an odd prime `p`, the sum of two points on the curve is `Infinity` or on the curve
(41_point.md R129 item 4). -/
def Obligations.AddClosedOnCurve : Prop :=
  ∀ (c : Curve) (q r : Point), c.p.toNat.Prime → c.p.toNat ≠ 2 → q.InRange c.p.toNat →
    r.InRange c.p.toNat → c.contains q = true → c.contains r = true →
    ∃ t, c.add q r = some t ∧ c.contains t = true

/-- PADD and PDBL leave the sum in `Pt(RD)` (with zeros for `Infinity`) and change nothing else but the
report; where an inverse fails they end with EARITH(2) and write nothing (41_point.md R122, R123;
10_state.md R25). -/
def Obligations.PaddPdblResults : Prop :=
  ∀ (pd pa pb : PReg) (s : State), s.cur.Ok → s.PtOk pa → s.PtOk pb →
    (∀ q, s.cur.add (s.readPt pa) (s.readPt pb) = some q →
      ∃ t, exec (.padd pd pa pb) s = .next t ∧ t.readPt pd = q ∧
        (q = .infinity → t.readV (xReg pd) = 0 ∧ t.readV (yReg pd) = 0) ∧
        s.OnlyPt t pd ∧ s.SameControl t ∧ t.Reports 0 0 false) ∧
    (s.cur.add (s.readPt pa) (s.readPt pb) = none →
      ∃ t, exec (.padd pd pa pb) s = .next t ∧ s.Fails t 4 2) ∧
    (∀ q, s.cur.add (s.readPt pa) (s.readPt pa) = some q →
      ∃ t, exec (.pdbl pd pa) s = .next t ∧ t.readPt pd = q ∧
        (q = .infinity → t.readV (xReg pd) = 0 ∧ t.readV (yReg pd) = 0) ∧
        s.OnlyPt t pd ∧ s.SameControl t ∧ t.Reports 0 0 false) ∧
    (s.cur.add (s.readPt pa) (s.readPt pa) = none →
      ∃ t, exec (.pdbl pd pa) s = .next t ∧ s.Fails t 4 2)

/-- PNEG leaves `Infinity`, or the same `x` and `−y mod p`, in `Pt(RD)`; PLDG leaves the base point there;
neither changes anything else but the report (41_point.md R124, R125, R128). -/
def Obligations.PnegPldgResults : Prop :=
  ∀ (pd pa : PReg) (s : State), s.cur.Ok →
    (s.PtOk pa → ∃ t, exec (.pneg pd pa) s = .next t ∧
      (s.readInf pa = true →
        t.readInf pd = true ∧ t.readV (xReg pd) = 0 ∧ t.readV (yReg pd) = 0) ∧
      (s.readInf pa = false →
        t.readInf pd = false ∧ t.readV (xReg pd) = s.readV (xReg pa) ∧
        ((t.readV (yReg pd)).toNat : Int) =
          -((s.readV (yReg pa)).toNat : Int) % (s.cur.p.toNat : Int)) ∧
      s.OnlyPt t pd ∧ s.SameControl t ∧ t.Reports 0 0 false) ∧
    ∃ t, exec (.pldg pd) s = .next t ∧ t.readInf pd = false ∧ t.readV (xReg pd) = s.cur.gx ∧
      t.readV (yReg pd) = s.cur.gy ∧ s.OnlyPt t pd ∧ s.SameControl t ∧ t.Reports 0 0 false

/-- PCHK sets `RESULT` exactly for `Infinity` and for the points of the curve equation, PEQ exactly for
equal points; neither writes an operand (41_point.md R126, R127). -/
def Obligations.PchkPeqResults : Prop :=
  ∀ (pa pb : PReg) (s : State), s.cur.Ok → s.PtOk pa → s.PtOk pb →
    (∃ t b, exec (.pchk pa) s = .next t ∧ s.SameOperands t ∧ s.SameControl t ∧ t.Reports 0 0 b ∧
      (b = true ↔ s.readInf pa = true ∨
        ∃ x y : Int, x = (s.readV (xReg pa)).toNat ∧ y = (s.readV (yReg pa)).toNat ∧
          (y ^ 2 - (x ^ 3 + s.cur.a.toNat * x ^ 2 + s.cur.b.toNat * x + s.cur.c.toNat)) %
            (s.cur.p.toNat : Int) = 0)) ∧
    (∃ t b, exec (.peq pa pb) s = .next t ∧ s.SameOperands t ∧ s.SameControl t ∧ t.Reports 0 0 b ∧
      (b = true ↔ (s.readInf pa = true ∧ s.readInf pb = true) ∨
        (s.readInf pa = false ∧ s.readInf pb = false ∧
          s.readV (xReg pa) = s.readV (xReg pb) ∧ s.readV (yReg pa) = s.readV (yReg pb))))

/-! ### The scalar unit -/

/-- `Smul` is the loop of 42_scalar.md R140: a negative scalar negates the point; 0 and `Infinity` give
`Infinity`; and the loop from `R`, `A` and a scalar `k` does one round, with no doubling after the top
bit, and goes on with half of `k`. -/
def Obligations.SmulIsTheBinaryLoop : Prop :=
  ∀ (c : Curve),
    (∀ pt, c.smul pt 0 = some .infinity) ∧ (∀ k, c.smul .infinity k = some .infinity) ∧
    (∀ pt k, k < 0 → c.smul pt k = c.smul (c.neg pt) (-k)) ∧
    (∀ pt (k : Nat), c.smul pt k = c.smulLoop (bitlen k) k .infinity pt) ∧
    ∀ (k : Nat) (r a : Point), 0 < k →
      c.smulLoop (bitlen k) k r a =
        (if k % 2 = 1 then c.add r a else some r).bind fun r' =>
          if k / 2 = 0 then some r'
          else (c.add a a).bind fun a' => c.smulLoop (bitlen (k / 2)) (k / 2) r' a'

/-- For an odd prime `p` and a point in range, scalar multiplication never fails and stays in range
(42_scalar.md R143 item 1). -/
def Obligations.SmulNeverFailsOnOddPrime : Prop :=
  ∀ (c : Curve) (pt : Point) (k : Int), c.p.toNat.Prime → c.p.toNat ≠ 2 →
    pt.InRange c.p.toNat → ∃ q, c.smul pt k = some q ∧ q.InRange c.p.toNat

/-- PMUL leaves `±V[RB]` times the point in `Pt(RD)` and changes nothing else but the report; where an
inverse fails it ends with EARITH(2) and writes nothing (42_scalar.md R141). -/
def Obligations.PmulResult : Prop :=
  ∀ (neg : Bool) (pd pa : PReg) (vk : VReg) (s : State) (k : Int), s.cur.Ok → s.PtOk pa →
    k = (if neg then -((s.readV vk).toNat : Int) else ((s.readV vk).toNat : Int)) →
    (∀ q, s.cur.smul (s.readPt pa) k = some q →
      ∃ t, exec (.pmul neg pd pa vk) s = .next t ∧ t.readPt pd = q ∧
        (q = .infinity → t.readV (xReg pd) = 0 ∧ t.readV (yReg pd) = 0) ∧
        s.OnlyPt t pd ∧ s.SameControl t ∧ t.Reports 0 0 false) ∧
    (s.cur.smul (s.readPt pa) k = none →
      ∃ t, exec (.pmul neg pd pa vk) s = .next t ∧ s.Fails t 4 2)

/-- The order loop (42_scalar.md R142): it answers `n` exactly when `Q_n` is the first `Infinity` and
`n` is at most the limit, and ELIMIT exactly when none of `Q_1` … `Q_limit` is. -/
def Obligations.OrderIsTheFirstInfinity : Prop :=
  ∀ (c : Curve) (limit : Nat) (pt : Point), 1 ≤ limit →
    (∀ n, c.order limit pt = .ok n ↔
      1 ≤ n ∧ n ≤ limit ∧ c.multiple pt n = some .infinity ∧
        ∀ k, 1 ≤ k → k < n → ∃ x y, c.multiple pt k = some (.affine x y)) ∧
    (c.order limit pt = .error (.raise .elimit 0) ↔
      ∀ k, 1 ≤ k → k ≤ limit → ∃ x y, c.multiple pt k = some (.affine x y)) ∧
    (∀ e, c.order limit pt = .error e → e = .raise .elimit 0 ∨ e = .raise .earith 2)

/-- PORD leaves the order of the point in `V[RD]`, when it has one up to `2^256 − 1`, and changes nothing
else but the report; where the order loop raises an error, ELIMIT(0) or EARITH(2), PORD ends with it and
writes nothing (42_scalar.md R142). -/
def Obligations.PordResult : Prop :=
  ∀ (vd : VReg) (pa : PReg) (s : State), s.cur.Ok → s.PtOk pa →
    (∀ n, 1 ≤ n → n ≤ 2 ^ 256 - 1 → s.cur.multiple (s.readPt pa) n = some .infinity →
      (∀ k, 1 ≤ k → k < n → ∃ x y, s.cur.multiple (s.readPt pa) k = some (.affine x y)) →
      ∃ t, exec (.pord vd pa) s = .next t ∧ (t.readV vd).toNat = n ∧
        s.OnlyV t [vd] ∧ s.SameControl t ∧ t.Reports 0 0 false) ∧
    ∀ code info, s.cur.order (2 ^ 256 - 1) (s.readPt pa) = .error (.raise code info) →
      ∃ t, exec (.pord vd pa) s = .next t ∧ s.Fails t code.code info

/-! ### Digests and ECDSA -/

/-- Truncation (43_ecdsa.md R150, R151): in both readings the result is below `2^(bitlen(n)−1)`, which is
at most `n`; the default reading keeps the top `bitlen(n) − 1` of the 256 bits; the other reading keeps a
digest of at most `bitlen(n) − 1` bits as it is and the top `bitlen(n) − 1` bits of a longer one; and the
two readings agree on every digest whose first bit is 1. -/
def Obligations.TruncationContract : Prop :=
  ∀ (n h : Nat), 2 ≤ n → n < 2 ^ 256 → h < 2 ^ 256 →
    (∀ mode, trunc mode n h < 2 ^ (bitlen n - 1)) ∧ 2 ^ (bitlen n - 1) ≤ n ∧
    trunc .digestWidth n h = h / 2 ^ (257 - bitlen n) ∧
    (h < 2 ^ (bitlen n - 1) → trunc .integerBitlen n h = h) ∧
    (2 ^ (bitlen n - 1) ≤ h →
      trunc .integerBitlen n h = h / 2 ^ (bitlen h - (bitlen n - 1))) ∧
    (2 ^ 255 ≤ h → trunc .digestWidth n h = trunc .integerBitlen n h)

/-- HTRUNC leaves the truncated digest in `V[RD]` and changes nothing else but the report
(43_ecdsa.md R152). -/
def Obligations.HtruncResult : Prop :=
  ∀ (vd vh : VReg) (s : State), s.cur.Ok →
    ∃ t, exec (.htrunc vd vh) s = .next t ∧
      (t.readV vd).toNat = trunc s.cfg.truncMode s.cur.n.toNat (s.readV vh).toNat ∧
      s.OnlyV t [vd] ∧ s.SameControl t ∧ t.Reports 0 0 false

/-- SIGN with a nonce that is invertible modulo `n`, whose multiple of `G` is affine with `r ≠ 0`, and
with `s ≠ 0`: `V[RD]` is `r = R.x mod n`, `V[RD+1]` is the `s` below `n` with
`k·s ≡ z + r·d (mod n)`, both at least 1, and nothing else but the report changes
(43_ecdsa.md R153, R155 item 1). -/
def Obligations.SignResult : Prop :=
  ∀ (vd vh vkey vk : VReg) (s : State) (x y n k d z : Nat), s.cur.Ok → vd.val % 2 = 0 →
    n = s.cur.n.toNat → k = (s.readV vk).toNat → d = (s.readV vkey).toNat →
    z = trunc s.cfg.truncMode n (s.readV vh).toNat →
    s.cur.smul (.affine s.cur.gx.toNat s.cur.gy.toNat) k = some (.affine x y) →
    Nat.gcd k n = 1 → x % n ≠ 0 → (z + x % n * d) % n ≠ 0 →
    ∃ t, exec (.sign vd vh vkey vk) s = .next t ∧
      (t.readV vd).toNat = x % n ∧ 1 ≤ (t.readV vd).toNat ∧ (t.readV vd).toNat < n ∧
      k * (t.readV (pairReg vd)).toNat % n = (z + (t.readV vd).toNat * d) % n ∧
      1 ≤ (t.readV (pairReg vd)).toNat ∧ (t.readV (pairReg vd)).toNat < n ∧
      s.OnlyV t [vd, pairReg vd] ∧ s.SameControl t ∧ t.Reports 0 0 false

/-- SIGN cannot sign with this nonce: ERETRY with the reason, in the order of the steps, and nothing
written (43_ecdsa.md R153, R154). -/
def Obligations.SignRetryReasons : Prop :=
  ∀ (vd vh vkey vk : VReg) (s : State) (n k d z : Nat), s.cur.Ok → vd.val % 2 = 0 →
    n = s.cur.n.toNat → k = (s.readV vk).toNat → d = (s.readV vkey).toNat →
    z = trunc s.cfg.truncMode n (s.readV vh).toNat →
    (s.cur.smul (.affine s.cur.gx.toNat s.cur.gy.toNat) k = none →
      ∃ t, exec (.sign vd vh vkey vk) s = .next t ∧ s.Fails t 5 1) ∧
    (s.cur.smul (.affine s.cur.gx.toNat s.cur.gy.toNat) k = some .infinity →
      ∃ t, exec (.sign vd vh vkey vk) s = .next t ∧ s.Fails t 5 2) ∧
    ∀ x y, s.cur.smul (.affine s.cur.gx.toNat s.cur.gy.toNat) k = some (.affine x y) →
      (Nat.gcd k n ≠ 1 → ∃ t, exec (.sign vd vh vkey vk) s = .next t ∧ s.Fails t 5 3) ∧
      (Nat.gcd k n = 1 → x % n = 0 →
        ∃ t, exec (.sign vd vh vkey vk) s = .next t ∧ s.Fails t 5 4) ∧
      (Nat.gcd k n = 1 → x % n ≠ 0 → (z + x % n * d) % n = 0 →
        ∃ t, exec (.sign vd vh vkey vk) s = .next t ∧ s.Fails t 5 5)

/-- VERIFY always completes with ENONE, writes no operand, and reports its verdict: `RESULT` is 1 exactly
when `ERRINFO` is 0, and a reject reason is 1 to 11 (43_ecdsa.md R156, R158). -/
def Obligations.VerifyAlwaysReportsAVerdict : Prop :=
  ∀ (rovf sovf : Bool) (vh vr : VReg) (pq : PReg) (s : State), s.cur.Ok → vr.val % 2 = 0 →
    ∃ t b k, exec (.verify rovf sovf vh vr pq) s = .next t ∧ s.SameOperands t ∧ s.SameControl t ∧
      t.Reports 0 k b ∧ (b = true ↔ k = 0) ∧ k.toNat ≤ 11

/-- VERIFY accepts exactly when every step of 43_ecdsa.md R156 passes: the key is affine, in range, on
the curve and of order dividing `n`; `r` and `s` are not above `n` and not flagged; `s` has an inverse
`w`; and `u1·G + u2·Q` is affine with `x ≡ r (mod n)`. -/
def Obligations.VerifyAcceptsExactly : Prop :=
  ∀ (rovf sovf : Bool) (vh vr : VReg) (pq : PReg) (s t : State) (n r sg z : Nat), s.cur.Ok →
    vr.val % 2 = 0 → n = s.cur.n.toNat → r = (s.readV vr).toNat →
    sg = (s.readV (pairReg vr)).toNat → z = trunc s.cfg.truncMode n (s.readV vh).toNat →
    exec (.verify rovf sovf vh vr pq) s = .next t →
    (t.result = true ↔
      s.readInf pq = false ∧ s.PtOk pq ∧ s.cur.contains (s.readPt pq) = true ∧
      s.cur.smul (s.readPt pq) n = some .infinity ∧
      rovf = false ∧ r ≤ n ∧ sovf = false ∧ sg ≤ n ∧
      ∃ w a b x y, w < n ∧ sg * w % n = 1 ∧
        s.cur.smul (.affine s.cur.gx.toNat s.cur.gy.toNat) (z * w % n : Nat) = some a ∧
        s.cur.smul (s.readPt pq) (r * w % n : Nat) = some b ∧
        s.cur.add a b = some (.affine x y) ∧ r % n = x % n)

/-- The reject reasons of VERIFY, each under the passing of the steps before it (43_ecdsa.md R156, R157,
R159; 60_exceptions.md R182). -/
def Obligations.VerifyRejectReasons : Prop :=
  ∀ (rovf sovf : Bool) (vh vr : VReg) (pq : PReg) (s t : State) (n r sg z : Nat), s.cur.Ok →
    vr.val % 2 = 0 → n = s.cur.n.toNat → r = (s.readV vr).toNat →
    sg = (s.readV (pairReg vr)).toNat → z = trunc s.cfg.truncMode n (s.readV vh).toNat →
    exec (.verify rovf sovf vh vr pq) s = .next t →
    (s.readInf pq = true → t.Reports 0 1 false) ∧
    (s.readInf pq = false → ¬ s.PtOk pq → t.Reports 0 2 false) ∧
    (s.readInf pq = false → s.PtOk pq →
      (s.cur.contains (s.readPt pq) = false → t.Reports 0 3 false) ∧
      (s.cur.contains (s.readPt pq) = true →
        (s.cur.smul (s.readPt pq) n = none → t.Reports 0 4 false) ∧
        (∀ x y, s.cur.smul (s.readPt pq) n = some (.affine x y) → t.Reports 0 5 false) ∧
        (s.cur.smul (s.readPt pq) n = some .infinity →
          (rovf = true ∨ n < r → t.Reports 0 6 false) ∧
          (rovf = false → r ≤ n →
            (sovf = true ∨ n < sg → t.Reports 0 7 false) ∧
            (sovf = false → sg ≤ n →
              (Nat.gcd sg n ≠ 1 → t.Reports 0 8 false) ∧
              ∀ w, w < n → sg * w % n = 1 →
                (s.cur.smul (.affine s.cur.gx.toNat s.cur.gy.toNat) (z * w % n : Nat) = none →
                  t.Reports 0 9 false) ∧
                ∀ a, s.cur.smul (.affine s.cur.gx.toNat s.cur.gy.toNat) (z * w % n : Nat) = some a →
                  (s.cur.smul (s.readPt pq) (r * w % n : Nat) = none → t.Reports 0 9 false) ∧
                  ∀ b, s.cur.smul (s.readPt pq) (r * w % n : Nat) = some b →
                    (s.cur.add a b = none → t.Reports 0 9 false) ∧
                    (s.cur.add a b = some .infinity → t.Reports 0 10 false) ∧
                    (∀ x y, s.cur.add a b = some (.affine x y) → r % n ≠ x % n →
                      t.Reports 0 11 false))))))

/-- With the host's mapping of a request's integers, VERIFY's verdict is that of the document's `verify` on
the integers themselves, for every pair of integers, negative ones and those of 2^256 and more included; a
malformed integer is rejected (43_ecdsa.md R160). The verdict compared with is `softwareVerify`, the
model's reading of the document's `verify` (DEDUCED, log entry 13). -/
def Obligations.MappedRequestHasTheSoftwareVerdict : Prop :=
  ∀ (vh vr : VReg) (pq : PReg) (s t : State) (r sg : Option Int), s.cur.Ok → vr.val % 2 = 0 →
    (s.readV vr).toNat = (mapRequest s.cur.n.toNat r sg).1.2 →
    (s.readV (pairReg vr)).toNat = (mapRequest s.cur.n.toNat r sg).2.2 →
    exec (.verify (mapRequest s.cur.n.toNat r sg).1.1 (mapRequest s.cur.n.toNat r sg).2.1 vh vr pq)
      s = .next t →
    (∀ x y, r = some x → sg = some y →
      t.result = s.cur.softwareVerify s.cfg.truncMode (s.readV vh).toNat x y (s.readPt pq)) ∧
    (r = none ∨ sg = none → t.result = false)

/-- Nonce reuse exposes the key: for a prime `n`, two signatures made with one nonce have the same `r`,
and where their `s` differ the two formulas of 43_ecdsa.md R162 give back the nonce and the key modulo
`n` (R155 item 2). -/
def Obligations.NonceReuseRecoversTheKey : Prop :=
  ∀ (c : Curve) (mode : TruncMode) (h1 h2 d k r1 s1 r2 s2 : Nat), c.n.toNat.Prime →
    c.sign mode h1 d k = .ok (r1, s1) → c.sign mode h2 d k = .ok (r2, s2) →
    r1 = r2 ∧ (s1 ≠ s2 →
      recoverNonce c.n.toNat (trunc mode c.n.toNat h1) (trunc mode c.n.toNat h2) s1 s2 =
        some (k % c.n.toNat) ∧
      recoverKey c.n.toNat r1 s1 (trunc mode c.n.toNat h1) k = some (d % c.n.toNat))

/-! ### The register window -/

/-- The words of the control and status registers, bit by bit, reserved bits 0
(10_state.md R26, R29-R31, R36-R38). -/
def Obligations.StatusAndControlWords : Prop :=
  ∀ s : State,
    busRead s 0x000 = 0xEC000001 ∧ busRead s 0x00C = s.cmdreg ∧
    (∀ k, (busRead s 0x004).getLsbD k = (k == 0 && s.ie || k == 1 && s.sealed)) ∧
    (∀ k, (busRead s 0x008).getLsbD k =
      (k == 0 && s.busy || k == 1 && s.done || k == 2 && s.err || k == 3 && s.result ||
        k == 4 && s.sealed || k == 5 && s.ovr || k == 6 && s.werr ||
        decide (8 ≤ k) && s.errcode.getLsbD (k - 8))) ∧
    (∀ k, (busRead s 0x010).getLsbD k = (k == 0 && s.doneIrq)) ∧
    (∀ k, (busRead s 0x014).getLsbD k = s.inf.getLsbD k) ∧
    (∀ k, (busRead s 0x018).getLsbD k = s.errinfo.getLsbD k)

/-- A 256-bit register is eight consecutive words, word 0 least significant; the same order for the
operand and the curve registers (20_memory.md R62). -/
def Obligations.WordOrderOfRegisters : Prop :=
  ∀ s : State,
    (∀ i : VReg, (s.readV i).toNat =
      ∑ w : Fin 8, (busRead s (0x100 + 32 * i.val + 4 * w.val)).toNat * 2 ^ (32 * w.val)) ∧
    (∀ r : CurReg, (s.cur.get r).toNat =
      ∑ w : Fin 8, (busRead s (0x300 + 32 * r.index + 4 * w.val)).toNat * 2 ^ (32 * w.val))

/-- A host write to one word of a 256-bit register or to INF (20_memory.md R60, R62; 10_state.md R26, R34,
R48). To an operand register: on an idle block that word reads back as written and every other aligned
offset reads as before; on a busy block the write is dropped and only `WERR` is set. To a curve parameter
register: the same, with the write dropped also while sealed. To INF: on an idle block all 8 bits become
bits 7:0 of the word, the other bits are ignored, and nothing else changes; on a busy block the write is
dropped and only `WERR` is set. -/
def Obligations.HostWritesToRegisters : Prop :=
  ∀ (s : State) (i : VReg) (r : CurReg) (w : Fin 8) (v : Word) (ov oc : Nat),
    ov = 0x100 + 32 * i.val + 4 * w.val → oc = 0x300 + 32 * r.index + 4 * w.val →
    (s.busy = false →
      busRead (busWrite s ov v) ov = v ∧
      ∀ off, off % 4 = 0 → off ≠ ov → busRead (busWrite s ov v) off = busRead s off) ∧
    (s.busy = true → busWrite s ov v = { s with werr := true }) ∧
    (s.busy = false → s.sealed = false →
      busRead (busWrite s oc v) oc = v ∧
      ∀ off, off % 4 = 0 → off ≠ oc → busRead (busWrite s oc v) off = busRead s off) ∧
    (s.busy = true ∨ s.sealed = true → busWrite s oc v = { s with werr := true }) ∧
    (s.busy = false →
      (∀ j : PReg, (busWrite s 0x014 v).readInf j = v.getLsbD j.val) ∧
      busRead (busWrite s 0x014 v) 0x014 = v &&& 0xFF ∧
      busWrite s 0x014 v = { s with inf := (busWrite s 0x014 v).inf }) ∧
    (s.busy = true → busWrite s 0x014 v = { s with werr := true })

/-- While a command runs, no host access changes its inputs or its word: `V`, `INF`, the curve registers
and `CMDREG` stay; and no host read changes the block at any time (10_state.md R48, R49, R52, R53;
20_memory.md R66). -/
def Obligations.HostAccessFrames : Prop :=
  ∀ (s : State) (addr : Nat) (width : AccessWidth) (v : Word),
    (s.busy = true →
      (hostWrite s addr width v).v = s.v ∧ (hostWrite s addr width v).inf = s.inf ∧
      (hostWrite s addr width v).cur = s.cur ∧ (hostWrite s addr width v).cmdreg = s.cmdreg) ∧
    (hostRead s addr width).toBlock = s.toBlock ∧ (hostRead s addr width).cfg = s.cfg ∧
      (hostRead s addr width).events = s.events

/-- An aligned access to a reserved offset reads 0 and ignores the write, and completes normally with no
bus error and no flag (10_state.md R39); so does a write to one of the read-only registers ID and ERRINFO
(10_state.md R29, R38, R48; 20_memory.md R64). -/
def Obligations.ReservedAndReadOnlyOffsets : Prop :=
  ∀ (s : State) (off : Nat) (v : Word),
    (off % 4 = 0 → (0x01C ≤ off ∧ off ≤ 0x0FF) ∨ (0x3E0 ≤ off ∧ off ≤ 0xFFF) →
      hostRead s (s.cfg.base + off) .w32 = { s with response := .readData 0 } ∧
      hostWrite s (s.cfg.base + off) .w32 v = { s with response := .writeDone }) ∧
    hostWrite s (s.cfg.base + 0x000) .w32 v = { s with response := .writeDone } ∧
    hostWrite s (s.cfg.base + 0x018) .w32 v = { s with response := .writeDone }

/-- An access in the window that is misaligned or not 32 bits wide gets a bus error, changes no state of
the block, and a read returns 0 (20_memory.md R61). That a bus error is a next state, and that an access
whose first byte lies in the window belongs to it even where it reaches over the window's end, is the
model's choice (log entry 6). -/
def Obligations.MisalignedOrNarrowAccess : Prop :=
  ∀ (s : State) (off : Nat) (width : AccessWidth) (v : Word), off < 0x1000 →
    off % 4 ≠ 0 ∨ width ≠ .w32 →
    hostRead s (s.cfg.base + off) width = { s with response := .readError 0 } ∧
    hostWrite s (s.cfg.base + off) width v = { s with response := .writeError }

/-- 10_state.md R52: a CMD write to a busy block sets `OVR` and nothing else; to an idle one it is
accepted, whatever the word. -/
def Obligations.IssueAndAccept : Prop :=
  ∀ (s : State) (w : Word),
    (s.busy = true → busWrite s 0x00C w = { s with ovr := true }) ∧
    (s.busy = false → busWrite s 0x00C w =
      { s with cmdreg := w, busy := true, done := false, err := false, result := false,
               errcode := 0, errinfo := 0 })

/-- A CTRL write sets `IE` to bit 0, sets `SEALED` when bit 1 is 1 and never clears it, and with bit 2
ends a running command with EABORT: its word stays, the report is set, and nothing else changes. An idle
block is not aborted. The other bits are ignored (44_system.md R171-R173). -/
def Obligations.CtrlWriteEffects : Prop :=
  ∀ (s : State) (v : Word),
    (v.getLsbD 2 = true → s.busy = true →
      busWrite s 0x004 v = { s with
        ie := v.getLsbD 0, sealed := s.sealed || v.getLsbD 1,
        busy := false, done := true, err := true, result := false, errcode := 7, errinfo := 0,
        doneIrq := true }) ∧
    (v.getLsbD 2 = false ∨ s.busy = false →
      busWrite s 0x004 v = { s with ie := v.getLsbD 0, sealed := s.sealed || v.getLsbD 1 })

/-- The two orders of a completion and an ABORT write (60_exceptions.md R185): after the completion the
command's own outcome stands, and the write changes nothing but `IE` and `SEALED`; after the abort the
engine has no step, and the report is EABORT with no operand written. -/
def Obligations.AbortRaceOrders : Prop :=
  ∀ (s : State) (v : Word), s.busy = true → v.getLsbD 2 = true →
    (∃ t, engineStep s = .next t ∧ t.busy = false ∧ t.done = true ∧ t.doneIrq = true ∧
      busWrite t 0x004 v = { t with ie := v.getLsbD 0, sealed := s.sealed || v.getLsbD 1 }) ∧
    ∃ u, u = busWrite s 0x004 v ∧ engineStep u = .next u ∧ u.Reports 7 0 false ∧ s.SameOperands u ∧
      u.cmdreg = s.cmdreg

/-- The interrupt output and the write-1-to-clear bits (10_state.md R31, R37, R47; 44_system.md R174;
60_exceptions.md R186, R187): `IRQ = DONE_IRQ ∧ IE`, so every completion makes it `IE`; changing `IE`
never changes `DONE_IRQ` (only the ABORT of a running command in the same write does), and setting it
while `DONE_IRQ = 1` asserts the output at once; an INT_STATUS write clears `DONE_IRQ` with bit 0, and a
STATUS write clears `OVR` with bit 5 and `WERR` with bit 6, at any time and with no other effect. -/
def Obligations.InterruptAndStickyBits : Prop :=
  ∀ s : State,
    (s.irq = true ↔ s.doneIrq = true ∧ s.ie = true) ∧
    (∀ t, s.busy = true → engineStep s = .next t → t.irq = s.ie) ∧
    (∀ v, v.getLsbD 2 = false ∨ s.busy = false → (busWrite s 0x004 v).doneIrq = s.doneIrq) ∧
    (∀ v, s.doneIrq = true → v.getLsbD 0 = true → (busWrite s 0x004 v).irq = true) ∧
    (∀ v, busWrite s 0x010 v = { s with doneIrq := if v.getLsbD 0 then false else s.doneIrq }) ∧
    (∀ v, busWrite s 0x008 v =
      { s with ovr := if v.getLsbD 5 then false else s.ovr,
               werr := if v.getLsbD 6 then false else s.werr })

/-- The digest value of 32 bytes: word `w` of `H` is the bytes `28−4w` to `31−4w`, the first of them
most significant (20_memory.md R63). -/
def Obligations.DigestWords : Prop :=
  ∀ d : Fin 32 → BitVec 8,
    digestValue (List.ofFn d) = ∑ i : Fin 32, (d i).toNat * 2 ^ (8 * (31 - i.val)) ∧
    ∀ (w : Fin 8) (h : 31 - 4 * w.val < 32),
      getWord (toVal (digestValue (List.ofFn d))) w =
        d ⟨28 - 4 * w.val, by omega⟩ ++ d ⟨29 - 4 * w.val, by omega⟩ ++
          d ⟨30 - 4 * w.val, by omega⟩ ++ d ⟨31 - 4 * w.val, h⟩

/-- The script steps `LDV vi, imm` on an idle block and `LDC X, imm` on an idle block that is not sealed:
eight accesses of the host after which the register holds `imm`, nothing else of the block has changed, and
the host stands at the next step (30_encoding.md R92, 20_memory.md R62). -/
def Obligations.ScriptLoadsARegister : Prop :=
  ∀ (labels : List (List Char × Nat)) (pos : Nat) (reads : List Word) (s : State) (imm : Val),
    s.busy = false →
    (∀ i : VReg,
      runScript ((ScriptStep.ldv i imm).ops labels pos) (List.replicate 8 false) ⟨0, reads⟩ s =
        (⟨8, reads⟩, { s.writeV i imm with response := .writeDone })) ∧
    (s.sealed = false → ∀ r : CurReg,
      runScript ((ScriptStep.ldc r imm).ops labels pos) (List.replicate 8 false) ⟨0, reads⟩ s =
        (⟨8, reads⟩, { s with cur := s.cur.set r imm, response := .writeDone }))

/-- The assembler never emits an illegal word except through `.word` (30_encoding.md R90, R91). -/
def Obligations.AssemblerEmitsLegalWords : Prop :=
  ∀ (name : List Char) (ops : List (List Char)) (ws : List Word), isName name ".word" = false →
    assembleWords name ops = some ws → ∀ w ∈ ws, ∃ i, decode w = .ok i
end

