-- ==== Sys2Proof/Laws/Arith.lean ====
section
/-! SUPPORT. The integer primitives: the floor remainder, the modular inverse and `bitlen`
(00_scope.md R7, R8; 40_field.md R101). -/

namespace Sys2Proof.Machine

/-! ### `x mod m` -/

theorem modNat_cast (x : Int) {m : Nat} (h : 0 < m) : ((modNat x m : Nat) : Int) = x % (m : Int) := by
  unfold modNat
  exact Int.toNat_of_nonneg (Int.emod_nonneg _ (by omega))

theorem modNat_lt (x : Int) {m : Nat} (h : 0 < m) : modNat x m < m := by
  have h1 := modNat_cast x h
  have h2 := Int.emod_lt_of_pos x (b := (m : Int)) (by omega)
  omega

/-- A natural number already below the modulus is unchanged. -/
theorem modNat_of_lt {x m : Nat} (h : x < m) : modNat (x : Int) m = x := by
  unfold modNat
  rw [Int.emod_eq_of_lt (by omega) (by omega)]
  exact Int.toNat_natCast x

theorem modNat_natCast (x m : Nat) : modNat (x : Int) m = x % m := by
  unfold modNat
  rw [← Int.natCast_emod]
  exact Int.toNat_natCast _

theorem modNat_eq_iff (x : Int) {m r : Nat} (h : 0 < m) : modNat x m = r ↔ x % (m : Int) = r := by
  rw [← modNat_cast x h]
  exact Int.ofNat_inj.symm

/-- Equal residues, equal remainders. -/
theorem modNat_congr {x y : Int} {m : Nat} (h : x ≡ y [ZMOD m]) : modNat x m = modNat y m := by
  unfold modNat
  rw [h]

theorem modNat_modEq (x : Int) {m : Nat} (h : 0 < m) : ((modNat x m : Nat) : Int) ≡ x [ZMOD m] := by
  rw [modNat_cast x h]
  exact Int.mod_modEq x m

/-! ### The modular inverse -/

/-- One division of the Euclidean algorithm keeps `t · a ≡ r`. -/
theorem euclid_step_modEq {a m r0 r1 t0 t1 : Nat} (hm : 0 < m) (h0 : t0 * a ≡ r0 [MOD m])
    (h1 : t1 * a ≡ r1 [MOD m]) :
    (t0 + (m - r0 / r1 * t1 % m)) % m * a ≡ r0 % r1 [MOD m] := by
  set q := r0 / r1 with hq
  have hlt : q * t1 % m < m := Nat.mod_lt _ hm
  have hdiv : q * t1 % m + m * (q * t1 / m) = q * t1 := Nat.mod_add_div _ _
  have hr : r1 * q + r0 % r1 = r0 := Nat.div_add_mod r0 r1
  refine Int.natCast_modEq_iff.mp ?_
  have g0 : (t0 : Int) * a ≡ r0 [ZMOD m] := by exact_mod_cast Int.natCast_modEq_iff.mpr h0
  have g1 : (t1 : Int) * a ≡ r1 [ZMOD m] := by exact_mod_cast Int.natCast_modEq_iff.mpr h1
  have e1 : (((t0 + (m - q * t1 % m)) % m * a : Nat) : Int)
      ≡ ((t0 + (m - q * t1 % m) : Nat) : Int) * a [ZMOD m] := by
    push_cast
    exact (Int.mod_modEq _ _).mul_right _
  have e2 : ((t0 + (m - q * t1 % m) : Nat) : Int) ≡ t0 - q * t1 [ZMOD m] := by
    have : ((t0 + (m - q * t1 % m) : Nat) : Int) = (t0 - q * t1) + m * (1 + (q * t1 / m : Nat)) := by
      have hc : ((q * t1 % m : Nat) : Int) + m * ((q * t1 / m : Nat) : Int) = q * t1 := by
        exact_mod_cast hdiv
      push_cast [Nat.cast_sub hlt.le] at hc ⊢
      linarith
    rw [this]
    exact Int.modEq_iff_dvd.mpr ⟨-(1 + (q * t1 / m : Nat)), by ring⟩
  have e3 : ((t0 : Int) - q * t1) * a ≡ r0 - q * r1 [ZMOD m] := by
    have h := g0.sub (g1.mul_left q)
    have e : ((t0 : Int) - q * t1) * a = t0 * a - q * (t1 * a) := by ring
    rw [e]
    exact h
  have e4 : (r0 : Int) - q * r1 = ((r0 % r1 : Nat) : Int) := by
    have : ((r1 * q + r0 % r1 : Nat) : Int) = r0 := by exact_mod_cast hr
    push_cast at this ⊢
    linarith
  exact (e1.trans (e2.mul_right _)).trans (e4 ▸ e3)

/-- The algorithm answers a coefficient of the greatest common divisor. -/
theorem euclid_modEq {a m : Nat} (hm : 0 < m) :
    ∀ (fuel r0 r1 t0 t1 : Nat), r1 < fuel → t0 * a ≡ r0 [MOD m] → t1 * a ≡ r1 [MOD m] →
      euclid m fuel r0 r1 t0 t1 * a ≡ Nat.gcd r0 r1 [MOD m] := by
  intro fuel
  induction fuel with
  | zero => intro r0 r1 t0 t1 h; omega
  | succ fuel ih =>
    intro r0 r1 t0 t1 h h0 h1
    unfold euclid
    split
    next hz =>
      subst hz
      simpa using h0
    next hz =>
      have hlt : r0 % r1 < r1 := Nat.mod_lt _ (Nat.pos_of_ne_zero hz)
      have := ih r1 (r0 % r1) t1 _ (by omega) h1 (euclid_step_modEq hm h0 h1)
      rwa [Nat.gcd_comm r1, ← Nat.gcd_rec, Nat.gcd_comm] at this

theorem euclid_lt {m : Nat} :
    ∀ (fuel r0 r1 t0 t1 : Nat), t0 < m → t1 < m → euclid m fuel r0 r1 t0 t1 < m := by
  intro fuel
  induction fuel with
  | zero => intro r0 r1 t0 t1 h0 _; exact h0
  | succ fuel ih =>
    intro r0 r1 t0 t1 h0 h1
    unfold euclid
    split
    · exact h0
    · exact ih _ _ _ _ h1 (Nat.mod_lt _ (by omega))

/-- `Inv(a, m)` when it exists (40_field.md R101). -/
theorem modInv_some {a : Int} {m b : Nat} (hm : 2 ≤ m) (h : modInv a m = some b) :
    1 ≤ b ∧ b < m ∧ a * (b : Int) ≡ 1 [ZMOD m] := by
  unfold modInv at h
  split at h
  next hg =>
    have hb : euclid m (modNat a m + 1) m (modNat a m) 0 1 = b := Option.some.inj h
    have hlt : b < m := hb ▸ euclid_lt _ _ _ _ _ (by omega) (by omega)
    have key : b * modNat a m ≡ 1 [MOD m] := by
      have e := euclid_modEq (a := modNat a m) (m := m) (by omega) (modNat a m + 1) m (modNat a m)
        0 1 (by omega) (by simpa using (Nat.modEq_zero_iff_dvd.mpr dvd_rfl).symm) (by simp [Nat.ModEq])
      rw [hb, Nat.gcd_comm, hg] at e
      exact e
    have keyZ : (b : Int) * (modNat a m : Nat) ≡ 1 [ZMOD m] := by
      exact_mod_cast Int.natCast_modEq_iff.mpr key
    have hz : a * (b : Int) ≡ 1 [ZMOD m] := by
      have := ((modNat_modEq a (m := m) (by omega)).mul_left (b : Int)).symm.trans keyZ
      rwa [mul_comm] at this
    refine ⟨?_, hlt, hz⟩
    rcases Nat.eq_zero_or_pos b with h0 | h0
    · exfalso
      subst h0
      have h01 : (0 : Int) ≡ 1 [ZMOD m] := by simpa using hz
      have : (0 : Int) % m = 1 % m := h01
      rw [Int.zero_emod, Int.emod_eq_of_lt (by omega) (by omega)] at this
      omega
    · exact h0
  next => exact absurd h (by simp)

/-- `Inv(a, m)` fails exactly when `gcd(a mod m, m) ≠ 1` (40_field.md R101). -/
theorem modInv_eq_none {a : Int} {m : Nat} : modInv a m = none ↔ Nat.gcd (modNat a m) m ≠ 1 := by
  unfold modInv
  split <;> simp_all

theorem modInv_isSome {a : Int} {m : Nat} (h : Nat.gcd (modNat a m) m = 1) :
    ∃ b, modInv a m = some b := by
  unfold modInv
  exact ⟨_, if_pos h⟩

/-- The inverse depends only on the residue of the number inverted. -/
theorem modInv_congr {a a' : Int} {m : Nat} (h : a ≡ a' [ZMOD m]) : modInv a m = modInv a' m := by
  unfold modInv
  rw [modNat_congr h]

/-- The inverse is unique below the modulus. -/
theorem inverse_unique {a : Int} {m b b' : Nat} (hb : b < m) (hb' : b' < m)
    (h : a * (b : Int) ≡ 1 [ZMOD m]) (h' : a * (b' : Int) ≡ 1 [ZMOD m]) : b = b' := by
  have e : (b : Int) ≡ b' [ZMOD m] := by
    have e1 := h'.mul_right (b : Int)
    have e2 := h.mul_left (b' : Int)
    have c : a * (b' : Int) * b = b' * (a * b) := by ring
    rw [c] at e1
    simpa using (e1.symm.trans e2)
  have := Int.natCast_modEq_iff.mp e
  rwa [Nat.ModEq, Nat.mod_eq_of_lt hb, Nat.mod_eq_of_lt hb'] at this

/-- For a prime modulus only the multiples of it have no inverse. -/
theorem gcd_modNat_of_prime {a : Int} {p : Nat} (hp : p.Prime) (h : ¬ (p : Int) ∣ a) :
    Nat.gcd (modNat a p) p = 1 := by
  refine Nat.Coprime.symm ((Nat.Prime.coprime_iff_not_dvd hp).mpr ?_)
  intro hd
  apply h
  have hz : ((modNat a p : Nat) : Int) = a % p := modNat_cast a hp.pos
  have : (p : Int) ∣ a % p := by
    rw [← hz]
    exact_mod_cast hd
  have e : a % (p : Int) % p = 0 := Int.emod_eq_zero_of_dvd this
  rw [Int.emod_emod_of_dvd a (dvd_refl (p : Int))] at e
  exact Int.dvd_of_emod_eq_zero e

/-! ### `bitlen` -/

@[simp] theorem bitlen_zero : bitlen 0 = 0 := rfl

theorem lt_two_pow_bitlen (v : Nat) : v < 2 ^ bitlen v := by
  unfold bitlen
  split
  next h => subst h; exact Nat.one_pos
  next h => exact Nat.lt_log2_self

theorem two_pow_bitlen_le {v : Nat} (h : v ≠ 0) : 2 ^ (bitlen v - 1) ≤ v := by
  unfold bitlen
  rw [if_neg h]
  exact Nat.log2_self_le h

theorem bitlen_le {v k : Nat} (h : v < 2 ^ k) : bitlen v ≤ k := by
  by_contra hc
  have hv : v ≠ 0 := by
    intro e
    subst e
    simp at hc
  have h1 := two_pow_bitlen_le hv
  have h2 : 2 ^ k ≤ 2 ^ (bitlen v - 1) := Nat.pow_le_pow_right (by omega) (by omega)
  omega

theorem bitlen_div_two {k : Nat} (h : k ≠ 0) : bitlen k = bitlen (k / 2) + 1 := by
  have h1 := lt_two_pow_bitlen (k / 2)
  have h2 := lt_two_pow_bitlen k
  have h3 := two_pow_bitlen_le h
  apply le_antisymm
  · apply bitlen_le
    rw [Nat.pow_succ]
    omega
  · rcases Nat.eq_zero_or_pos (bitlen k) with h0 | h0
    · rw [h0] at h2
      simp at h2
      exact absurd h2 h
    · obtain ⟨n, hn⟩ : ∃ n, bitlen k = n + 1 := ⟨bitlen k - 1, by omega⟩
      rw [hn]
      apply Nat.succ_le_succ
      apply bitlen_le
      rw [hn, Nat.pow_succ] at h2
      omega

end Sys2Proof.Machine
end

