-- ==== Sys2Proof/Laws/State.lean ====
section
/-! SUPPORT. One lemma per field per update of the state, so that no later proof unfolds a record
update. -/

namespace Sys2Proof.Machine

variable (s : State)

/-! ### `State.report` -/

@[simp] theorem State.report_v (code : ErrCode) (info : Nibble) (res : Bool) :
    (s.report code info res).v = s.v := rfl
@[simp] theorem State.report_inf (code : ErrCode) (info : Nibble) (res : Bool) :
    (s.report code info res).inf = s.inf := rfl
@[simp] theorem State.report_cur (code : ErrCode) (info : Nibble) (res : Bool) :
    (s.report code info res).cur = s.cur := rfl
@[simp] theorem State.report_sealed (code : ErrCode) (info : Nibble) (res : Bool) :
    (s.report code info res).sealed = s.sealed := rfl
@[simp] theorem State.report_ie (code : ErrCode) (info : Nibble) (res : Bool) :
    (s.report code info res).ie = s.ie := rfl
@[simp] theorem State.report_busy (code : ErrCode) (info : Nibble) (res : Bool) :
    (s.report code info res).busy = false := rfl
@[simp] theorem State.report_done (code : ErrCode) (info : Nibble) (res : Bool) :
    (s.report code info res).done = true := rfl
@[simp] theorem State.report_err (code : ErrCode) (info : Nibble) (res : Bool) :
    (s.report code info res).err = (code.code != 0) := rfl
@[simp] theorem State.report_result (code : ErrCode) (info : Nibble) (res : Bool) :
    (s.report code info res).result = res := rfl
@[simp] theorem State.report_ovr (code : ErrCode) (info : Nibble) (res : Bool) :
    (s.report code info res).ovr = s.ovr := rfl
@[simp] theorem State.report_werr (code : ErrCode) (info : Nibble) (res : Bool) :
    (s.report code info res).werr = s.werr := rfl
@[simp] theorem State.report_errcode (code : ErrCode) (info : Nibble) (res : Bool) :
    (s.report code info res).errcode = code.code := rfl
@[simp] theorem State.report_errinfo (code : ErrCode) (info : Nibble) (res : Bool) :
    (s.report code info res).errinfo = info := rfl
@[simp] theorem State.report_cmdreg (code : ErrCode) (info : Nibble) (res : Bool) :
    (s.report code info res).cmdreg = s.cmdreg := rfl
@[simp] theorem State.report_doneIrq (code : ErrCode) (info : Nibble) (res : Bool) :
    (s.report code info res).doneIrq = true := rfl
@[simp] theorem State.report_cfg (code : ErrCode) (info : Nibble) (res : Bool) :
    (s.report code info res).cfg = s.cfg := rfl
@[simp] theorem State.report_events (code : ErrCode) (info : Nibble) (res : Bool) :
    (s.report code info res).events = s.events := rfl
@[simp] theorem State.report_response (code : ErrCode) (info : Nibble) (res : Bool) :
    (s.report code info res).response = s.response := rfl

/-! ### `State.startReport` -/

@[simp] theorem State.startReport_v : s.startReport.v = s.v := rfl
@[simp] theorem State.startReport_inf : s.startReport.inf = s.inf := rfl
@[simp] theorem State.startReport_cur : s.startReport.cur = s.cur := rfl
@[simp] theorem State.startReport_sealed : s.startReport.sealed = s.sealed := rfl
@[simp] theorem State.startReport_ie : s.startReport.ie = s.ie := rfl
@[simp] theorem State.startReport_busy : s.startReport.busy = true := rfl
@[simp] theorem State.startReport_done : s.startReport.done = false := rfl
@[simp] theorem State.startReport_err : s.startReport.err = false := rfl
@[simp] theorem State.startReport_result : s.startReport.result = false := rfl
@[simp] theorem State.startReport_ovr : s.startReport.ovr = s.ovr := rfl
@[simp] theorem State.startReport_werr : s.startReport.werr = s.werr := rfl
@[simp] theorem State.startReport_errcode : s.startReport.errcode = 0 := rfl
@[simp] theorem State.startReport_errinfo : s.startReport.errinfo = 0 := rfl
@[simp] theorem State.startReport_cmdreg : s.startReport.cmdreg = s.cmdreg := rfl
@[simp] theorem State.startReport_doneIrq : s.startReport.doneIrq = s.doneIrq := rfl
@[simp] theorem State.startReport_cfg : s.startReport.cfg = s.cfg := rfl
@[simp] theorem State.startReport_events : s.startReport.events = s.events := rfl
@[simp] theorem State.startReport_response : s.startReport.response = s.response := rfl

/-! ### `State.takeError` -/

@[simp] theorem State.takeError_v (code : ErrCode) (info : Nibble) :
    (s.takeError code info).v = s.v := rfl
@[simp] theorem State.takeError_inf (code : ErrCode) (info : Nibble) :
    (s.takeError code info).inf = s.inf := rfl
@[simp] theorem State.takeError_cur (code : ErrCode) (info : Nibble) :
    (s.takeError code info).cur = s.cur := rfl
@[simp] theorem State.takeError_sealed (code : ErrCode) (info : Nibble) :
    (s.takeError code info).sealed = s.sealed := rfl
@[simp] theorem State.takeError_ie (code : ErrCode) (info : Nibble) :
    (s.takeError code info).ie = s.ie := rfl
@[simp] theorem State.takeError_busy (code : ErrCode) (info : Nibble) :
    (s.takeError code info).busy = false := rfl
@[simp] theorem State.takeError_done (code : ErrCode) (info : Nibble) :
    (s.takeError code info).done = true := rfl
@[simp] theorem State.takeError_err (code : ErrCode) (info : Nibble) :
    (s.takeError code info).err = (code.code != 0) := rfl
@[simp] theorem State.takeError_result (code : ErrCode) (info : Nibble) :
    (s.takeError code info).result = false := rfl
@[simp] theorem State.takeError_ovr (code : ErrCode) (info : Nibble) :
    (s.takeError code info).ovr = s.ovr := rfl
@[simp] theorem State.takeError_werr (code : ErrCode) (info : Nibble) :
    (s.takeError code info).werr = s.werr := rfl
@[simp] theorem State.takeError_errcode (code : ErrCode) (info : Nibble) :
    (s.takeError code info).errcode = code.code := rfl
@[simp] theorem State.takeError_errinfo (code : ErrCode) (info : Nibble) :
    (s.takeError code info).errinfo = info := rfl
@[simp] theorem State.takeError_cmdreg (code : ErrCode) (info : Nibble) :
    (s.takeError code info).cmdreg = s.cmdreg := rfl
@[simp] theorem State.takeError_doneIrq (code : ErrCode) (info : Nibble) :
    (s.takeError code info).doneIrq = true := rfl
@[simp] theorem State.takeError_cfg (code : ErrCode) (info : Nibble) :
    (s.takeError code info).cfg = s.cfg := rfl
@[simp] theorem State.takeError_events (code : ErrCode) (info : Nibble) :
    (s.takeError code info).events = s.events := rfl
@[simp] theorem State.takeError_response (code : ErrCode) (info : Nibble) :
    (s.takeError code info).response = s.response := rfl

/-! ### `State.accept` -/

@[simp] theorem State.accept_v (w : Word) : (s.accept w).v = s.v := rfl
@[simp] theorem State.accept_inf (w : Word) : (s.accept w).inf = s.inf := rfl
@[simp] theorem State.accept_cur (w : Word) : (s.accept w).cur = s.cur := rfl
@[simp] theorem State.accept_sealed (w : Word) : (s.accept w).sealed = s.sealed := rfl
@[simp] theorem State.accept_ie (w : Word) : (s.accept w).ie = s.ie := rfl
@[simp] theorem State.accept_busy (w : Word) : (s.accept w).busy = true := rfl
@[simp] theorem State.accept_done (w : Word) : (s.accept w).done = false := rfl
@[simp] theorem State.accept_err (w : Word) : (s.accept w).err = false := rfl
@[simp] theorem State.accept_result (w : Word) : (s.accept w).result = false := rfl
@[simp] theorem State.accept_ovr (w : Word) : (s.accept w).ovr = s.ovr := rfl
@[simp] theorem State.accept_werr (w : Word) : (s.accept w).werr = s.werr := rfl
@[simp] theorem State.accept_errcode (w : Word) : (s.accept w).errcode = 0 := rfl
@[simp] theorem State.accept_errinfo (w : Word) : (s.accept w).errinfo = 0 := rfl
@[simp] theorem State.accept_cmdreg (w : Word) : (s.accept w).cmdreg = w := rfl
@[simp] theorem State.accept_doneIrq (w : Word) : (s.accept w).doneIrq = s.doneIrq := rfl
@[simp] theorem State.accept_cfg (w : Word) : (s.accept w).cfg = s.cfg := rfl
@[simp] theorem State.accept_events (w : Word) : (s.accept w).events = s.events := rfl
@[simp] theorem State.accept_response (w : Word) : (s.accept w).response = s.response := rfl

/-! ### `State.writeV` -/

@[simp] theorem State.writeV_v (i : VReg) (x : Val) :
    (s.writeV i x).v = s.v.set i.val x i.isLt := rfl
@[simp] theorem State.writeV_inf (i : VReg) (x : Val) : (s.writeV i x).inf = s.inf := rfl
@[simp] theorem State.writeV_cur (i : VReg) (x : Val) : (s.writeV i x).cur = s.cur := rfl
@[simp] theorem State.writeV_sealed (i : VReg) (x : Val) : (s.writeV i x).sealed = s.sealed := rfl
@[simp] theorem State.writeV_ie (i : VReg) (x : Val) : (s.writeV i x).ie = s.ie := rfl
@[simp] theorem State.writeV_busy (i : VReg) (x : Val) : (s.writeV i x).busy = s.busy := rfl
@[simp] theorem State.writeV_done (i : VReg) (x : Val) : (s.writeV i x).done = s.done := rfl
@[simp] theorem State.writeV_err (i : VReg) (x : Val) : (s.writeV i x).err = s.err := rfl
@[simp] theorem State.writeV_result (i : VReg) (x : Val) : (s.writeV i x).result = s.result := rfl
@[simp] theorem State.writeV_ovr (i : VReg) (x : Val) : (s.writeV i x).ovr = s.ovr := rfl
@[simp] theorem State.writeV_werr (i : VReg) (x : Val) : (s.writeV i x).werr = s.werr := rfl
@[simp] theorem State.writeV_errcode (i : VReg) (x : Val) :
    (s.writeV i x).errcode = s.errcode := rfl
@[simp] theorem State.writeV_errinfo (i : VReg) (x : Val) :
    (s.writeV i x).errinfo = s.errinfo := rfl
@[simp] theorem State.writeV_cmdreg (i : VReg) (x : Val) : (s.writeV i x).cmdreg = s.cmdreg := rfl
@[simp] theorem State.writeV_doneIrq (i : VReg) (x : Val) :
    (s.writeV i x).doneIrq = s.doneIrq := rfl
@[simp] theorem State.writeV_cfg (i : VReg) (x : Val) : (s.writeV i x).cfg = s.cfg := rfl
@[simp] theorem State.writeV_events (i : VReg) (x : Val) : (s.writeV i x).events = s.events := rfl
@[simp] theorem State.writeV_response (i : VReg) (x : Val) :
    (s.writeV i x).response = s.response := rfl

/-! ### `State.writeInf` -/

@[simp] theorem State.writeInf_v (j : PReg) (b : Bool) : (s.writeInf j b).v = s.v := rfl
@[simp] theorem State.writeInf_cur (j : PReg) (b : Bool) : (s.writeInf j b).cur = s.cur := rfl
@[simp] theorem State.writeInf_sealed (j : PReg) (b : Bool) :
    (s.writeInf j b).sealed = s.sealed := rfl
@[simp] theorem State.writeInf_ie (j : PReg) (b : Bool) : (s.writeInf j b).ie = s.ie := rfl
@[simp] theorem State.writeInf_busy (j : PReg) (b : Bool) : (s.writeInf j b).busy = s.busy := rfl
@[simp] theorem State.writeInf_done (j : PReg) (b : Bool) : (s.writeInf j b).done = s.done := rfl
@[simp] theorem State.writeInf_err (j : PReg) (b : Bool) : (s.writeInf j b).err = s.err := rfl
@[simp] theorem State.writeInf_result (j : PReg) (b : Bool) :
    (s.writeInf j b).result = s.result := rfl
@[simp] theorem State.writeInf_ovr (j : PReg) (b : Bool) : (s.writeInf j b).ovr = s.ovr := rfl
@[simp] theorem State.writeInf_werr (j : PReg) (b : Bool) : (s.writeInf j b).werr = s.werr := rfl
@[simp] theorem State.writeInf_errcode (j : PReg) (b : Bool) :
    (s.writeInf j b).errcode = s.errcode := rfl
@[simp] theorem State.writeInf_errinfo (j : PReg) (b : Bool) :
    (s.writeInf j b).errinfo = s.errinfo := rfl
@[simp] theorem State.writeInf_cmdreg (j : PReg) (b : Bool) :
    (s.writeInf j b).cmdreg = s.cmdreg := rfl
@[simp] theorem State.writeInf_doneIrq (j : PReg) (b : Bool) :
    (s.writeInf j b).doneIrq = s.doneIrq := rfl
@[simp] theorem State.writeInf_cfg (j : PReg) (b : Bool) : (s.writeInf j b).cfg = s.cfg := rfl
@[simp] theorem State.writeInf_events (j : PReg) (b : Bool) :
    (s.writeInf j b).events = s.events := rfl
@[simp] theorem State.writeInf_response (j : PReg) (b : Bool) :
    (s.writeInf j b).response = s.response := rfl

/-! ### `State.dropWrite` -/

@[simp] theorem State.dropWrite_v : s.dropWrite.v = s.v := rfl
@[simp] theorem State.dropWrite_inf : s.dropWrite.inf = s.inf := rfl
@[simp] theorem State.dropWrite_cur : s.dropWrite.cur = s.cur := rfl
@[simp] theorem State.dropWrite_sealed : s.dropWrite.sealed = s.sealed := rfl
@[simp] theorem State.dropWrite_ie : s.dropWrite.ie = s.ie := rfl
@[simp] theorem State.dropWrite_busy : s.dropWrite.busy = s.busy := rfl
@[simp] theorem State.dropWrite_done : s.dropWrite.done = s.done := rfl
@[simp] theorem State.dropWrite_err : s.dropWrite.err = s.err := rfl
@[simp] theorem State.dropWrite_result : s.dropWrite.result = s.result := rfl
@[simp] theorem State.dropWrite_ovr : s.dropWrite.ovr = s.ovr := rfl
@[simp] theorem State.dropWrite_werr : s.dropWrite.werr = true := rfl
@[simp] theorem State.dropWrite_errcode : s.dropWrite.errcode = s.errcode := rfl
@[simp] theorem State.dropWrite_errinfo : s.dropWrite.errinfo = s.errinfo := rfl
@[simp] theorem State.dropWrite_cmdreg : s.dropWrite.cmdreg = s.cmdreg := rfl
@[simp] theorem State.dropWrite_doneIrq : s.dropWrite.doneIrq = s.doneIrq := rfl
@[simp] theorem State.dropWrite_cfg : s.dropWrite.cfg = s.cfg := rfl
@[simp] theorem State.dropWrite_events : s.dropWrite.events = s.events := rfl
@[simp] theorem State.dropWrite_response : s.dropWrite.response = s.response := rfl

/-! ### `State.seal` -/

@[simp] theorem State.seal_v : s.seal.v = s.v := rfl
@[simp] theorem State.seal_inf : s.seal.inf = s.inf := rfl
@[simp] theorem State.seal_cur : s.seal.cur = s.cur := rfl
@[simp] theorem State.seal_sealed : s.seal.sealed = true := rfl
@[simp] theorem State.seal_ie : s.seal.ie = s.ie := rfl
@[simp] theorem State.seal_busy : s.seal.busy = s.busy := rfl
@[simp] theorem State.seal_done : s.seal.done = s.done := rfl
@[simp] theorem State.seal_err : s.seal.err = s.err := rfl
@[simp] theorem State.seal_result : s.seal.result = s.result := rfl
@[simp] theorem State.seal_ovr : s.seal.ovr = s.ovr := rfl
@[simp] theorem State.seal_werr : s.seal.werr = s.werr := rfl
@[simp] theorem State.seal_errcode : s.seal.errcode = s.errcode := rfl
@[simp] theorem State.seal_errinfo : s.seal.errinfo = s.errinfo := rfl
@[simp] theorem State.seal_cmdreg : s.seal.cmdreg = s.cmdreg := rfl
@[simp] theorem State.seal_doneIrq : s.seal.doneIrq = s.doneIrq := rfl
@[simp] theorem State.seal_cfg : s.seal.cfg = s.cfg := rfl
@[simp] theorem State.seal_events : s.seal.events = s.events := rfl
@[simp] theorem State.seal_response : s.seal.response = s.response := rfl

/-! ### `State.writeStatus` -/

@[simp] theorem State.writeStatus_v (w : Word) : (s.writeStatus w).v = s.v := rfl
@[simp] theorem State.writeStatus_inf (w : Word) : (s.writeStatus w).inf = s.inf := rfl
@[simp] theorem State.writeStatus_cur (w : Word) : (s.writeStatus w).cur = s.cur := rfl
@[simp] theorem State.writeStatus_sealed (w : Word) : (s.writeStatus w).sealed = s.sealed := rfl
@[simp] theorem State.writeStatus_ie (w : Word) : (s.writeStatus w).ie = s.ie := rfl
@[simp] theorem State.writeStatus_busy (w : Word) : (s.writeStatus w).busy = s.busy := rfl
@[simp] theorem State.writeStatus_done (w : Word) : (s.writeStatus w).done = s.done := rfl
@[simp] theorem State.writeStatus_err (w : Word) : (s.writeStatus w).err = s.err := rfl
@[simp] theorem State.writeStatus_result (w : Word) : (s.writeStatus w).result = s.result := rfl
@[simp] theorem State.writeStatus_ovr (w : Word) :
    (s.writeStatus w).ovr = (s.ovr && !w.getLsbD 5) := rfl
@[simp] theorem State.writeStatus_werr (w : Word) :
    (s.writeStatus w).werr = (s.werr && !w.getLsbD 6) := rfl
@[simp] theorem State.writeStatus_errcode (w : Word) : (s.writeStatus w).errcode = s.errcode := rfl
@[simp] theorem State.writeStatus_errinfo (w : Word) : (s.writeStatus w).errinfo = s.errinfo := rfl
@[simp] theorem State.writeStatus_cmdreg (w : Word) : (s.writeStatus w).cmdreg = s.cmdreg := rfl
@[simp] theorem State.writeStatus_doneIrq (w : Word) : (s.writeStatus w).doneIrq = s.doneIrq := rfl
@[simp] theorem State.writeStatus_cfg (w : Word) : (s.writeStatus w).cfg = s.cfg := rfl
@[simp] theorem State.writeStatus_events (w : Word) : (s.writeStatus w).events = s.events := rfl
@[simp] theorem State.writeStatus_response (w : Word) :
    (s.writeStatus w).response = s.response := rfl

/-! ### `State.writeIntStatus` -/

@[simp] theorem State.writeIntStatus_v (w : Word) : (s.writeIntStatus w).v = s.v := rfl
@[simp] theorem State.writeIntStatus_inf (w : Word) : (s.writeIntStatus w).inf = s.inf := rfl
@[simp] theorem State.writeIntStatus_cur (w : Word) : (s.writeIntStatus w).cur = s.cur := rfl
@[simp] theorem State.writeIntStatus_sealed (w : Word) :
    (s.writeIntStatus w).sealed = s.sealed := rfl
@[simp] theorem State.writeIntStatus_ie (w : Word) : (s.writeIntStatus w).ie = s.ie := rfl
@[simp] theorem State.writeIntStatus_busy (w : Word) : (s.writeIntStatus w).busy = s.busy := rfl
@[simp] theorem State.writeIntStatus_done (w : Word) : (s.writeIntStatus w).done = s.done := rfl
@[simp] theorem State.writeIntStatus_err (w : Word) : (s.writeIntStatus w).err = s.err := rfl
@[simp] theorem State.writeIntStatus_result (w : Word) :
    (s.writeIntStatus w).result = s.result := rfl
@[simp] theorem State.writeIntStatus_ovr (w : Word) : (s.writeIntStatus w).ovr = s.ovr := rfl
@[simp] theorem State.writeIntStatus_werr (w : Word) : (s.writeIntStatus w).werr = s.werr := rfl
@[simp] theorem State.writeIntStatus_errcode (w : Word) :
    (s.writeIntStatus w).errcode = s.errcode := rfl
@[simp] theorem State.writeIntStatus_errinfo (w : Word) :
    (s.writeIntStatus w).errinfo = s.errinfo := rfl
@[simp] theorem State.writeIntStatus_cmdreg (w : Word) :
    (s.writeIntStatus w).cmdreg = s.cmdreg := rfl
@[simp] theorem State.writeIntStatus_doneIrq (w : Word) :
    (s.writeIntStatus w).doneIrq = (s.doneIrq && !w.getLsbD 0) := rfl
@[simp] theorem State.writeIntStatus_cfg (w : Word) : (s.writeIntStatus w).cfg = s.cfg := rfl
@[simp] theorem State.writeIntStatus_events (w : Word) :
    (s.writeIntStatus w).events = s.events := rfl
@[simp] theorem State.writeIntStatus_response (w : Word) :
    (s.writeIntStatus w).response = s.response := rfl

/-! ### `State.placeCommand` -/

@[simp] theorem State.placeCommand_v (w : Word) : (s.placeCommand w).v = s.v := rfl
@[simp] theorem State.placeCommand_inf (w : Word) : (s.placeCommand w).inf = s.inf := rfl
@[simp] theorem State.placeCommand_cur (w : Word) : (s.placeCommand w).cur = s.cur := rfl
@[simp] theorem State.placeCommand_sealed (w : Word) : (s.placeCommand w).sealed = s.sealed := rfl
@[simp] theorem State.placeCommand_ie (w : Word) : (s.placeCommand w).ie = s.ie := rfl
@[simp] theorem State.placeCommand_busy (w : Word) : (s.placeCommand w).busy = true := rfl
@[simp] theorem State.placeCommand_done (w : Word) : (s.placeCommand w).done = false := rfl
@[simp] theorem State.placeCommand_err (w : Word) : (s.placeCommand w).err = false := rfl
@[simp] theorem State.placeCommand_result (w : Word) : (s.placeCommand w).result = false := rfl
@[simp] theorem State.placeCommand_ovr (w : Word) : (s.placeCommand w).ovr = s.ovr := rfl
@[simp] theorem State.placeCommand_werr (w : Word) : (s.placeCommand w).werr = s.werr := rfl
@[simp] theorem State.placeCommand_errcode (w : Word) : (s.placeCommand w).errcode = 0 := rfl
@[simp] theorem State.placeCommand_errinfo (w : Word) : (s.placeCommand w).errinfo = 0 := rfl
@[simp] theorem State.placeCommand_cmdreg (w : Word) : (s.placeCommand w).cmdreg = w := rfl
@[simp] theorem State.placeCommand_doneIrq (w : Word) :
    (s.placeCommand w).doneIrq = s.doneIrq := rfl
@[simp] theorem State.placeCommand_cfg (w : Word) : (s.placeCommand w).cfg = s.cfg := rfl
@[simp] theorem State.placeCommand_events (w : Word) :
    (s.placeCommand w).events = .engine :: s.events := rfl
@[simp] theorem State.placeCommand_response (w : Word) :
    (s.placeCommand w).response = s.response := rfl

/-! ### The reset event -/

@[simp] theorem State.resetEvent_v : s.resetEvent.v = State.reset.v := rfl
@[simp] theorem State.resetEvent_inf : s.resetEvent.inf = State.reset.inf := rfl
@[simp] theorem State.resetEvent_cur : s.resetEvent.cur = State.reset.cur := rfl
@[simp] theorem State.resetEvent_sealed : s.resetEvent.sealed = State.reset.sealed := rfl
@[simp] theorem State.resetEvent_ie : s.resetEvent.ie = State.reset.ie := rfl
@[simp] theorem State.resetEvent_busy : s.resetEvent.busy = State.reset.busy := rfl
@[simp] theorem State.resetEvent_done : s.resetEvent.done = State.reset.done := rfl
@[simp] theorem State.resetEvent_err : s.resetEvent.err = State.reset.err := rfl
@[simp] theorem State.resetEvent_result : s.resetEvent.result = State.reset.result := rfl
@[simp] theorem State.resetEvent_ovr : s.resetEvent.ovr = State.reset.ovr := rfl
@[simp] theorem State.resetEvent_werr : s.resetEvent.werr = State.reset.werr := rfl
@[simp] theorem State.resetEvent_errcode : s.resetEvent.errcode = State.reset.errcode := rfl
@[simp] theorem State.resetEvent_errinfo : s.resetEvent.errinfo = State.reset.errinfo := rfl
@[simp] theorem State.resetEvent_cmdreg : s.resetEvent.cmdreg = State.reset.cmdreg := rfl
@[simp] theorem State.resetEvent_doneIrq : s.resetEvent.doneIrq = State.reset.doneIrq := rfl
@[simp] theorem State.resetEvent_cfg : s.resetEvent.cfg = s.cfg := rfl
@[simp] theorem State.resetEvent_events : s.resetEvent.events = s.events := rfl
@[simp] theorem State.resetEvent_response : s.resetEvent.response = State.reset.response := rfl

end Sys2Proof.Machine
end

