-- ==== Sys2Proof/Laws/Registers.lean ====
section
/-! SUPPORT. Reading a register after writing one; the words of a 256-bit register; what a commit of one
operand register or of one point register leaves (10_state.md R24-R27, 20_memory.md R62). -/

namespace Sys2Proof.Machine

/-! ### Operand registers -/

theorem readV_writeV (s : State) (i j : VReg) (x : Val) :
    (s.writeV i x).readV j = if i = j then x else s.readV j := by
  simp only [State.readV, State.writeV_v, Vector.get_eq_getElem, Vector.getElem_set, Fin.ext_iff]

@[simp] theorem readV_writeV_same (s : State) (i : VReg) (x : Val) :
    (s.writeV i x).readV i = x := by simp [readV_writeV]

theorem readV_writeV_other (s : State) {i j : VReg} (x : Val) (h : j ≠ i) :
    (s.writeV i x).readV j = s.readV j := by simp [readV_writeV, Ne.symm h]

/-- A register file is known by its reads. -/
theorem v_ext {s t : State} (h : ∀ i, t.readV i = s.readV i) : t.v = s.v := by
  apply Vector.ext
  intro i hi
  exact h ⟨i, hi⟩

theorem readV_of_v {s t : State} (h : t.v = s.v) (i : VReg) : t.readV i = s.readV i := by
  simp only [State.readV, h]

@[simp] theorem readV_report (s : State) (c : ErrCode) (k : Nibble) (b : Bool) (i : VReg) :
    (s.report c k b).readV i = s.readV i := rfl

@[simp] theorem readV_writeInf (s : State) (j : PReg) (b : Bool) (i : VReg) :
    (s.writeInf j b).readV i = s.readV i := rfl

@[simp] theorem toVal_toNat {x : Nat} (h : x < 2 ^ 256) : (toVal x).toNat = x := by
  simp only [toVal, BitVec.toNat_ofNat]
  exact Nat.mod_eq_of_lt h

@[simp] theorem toVal_of_toNat (x : Val) : toVal x.toNat = x := by simp [toVal]

/-! ### `INF` and the point registers -/

theorem readInf_writeInf (s : State) (j k : PReg) (b : Bool) :
    (s.writeInf j b).readInf k = if j = k then b else s.readInf k := by
  have hk : k.val < 8 := k.isLt
  by_cases hjk : j = k
  · subst hjk
    cases b <;> simp [State.readInf, State.writeInf]
  · have hv : j.val ≠ k.val := fun h => hjk (Fin.ext h)
    cases b <;> simp [State.readInf, State.writeInf, hjk, hv.symm]

@[simp] theorem readInf_writeV (s : State) (i : VReg) (x : Val) (j : PReg) :
    (s.writeV i x).readInf j = s.readInf j := rfl

@[simp] theorem readInf_report (s : State) (c : ErrCode) (k : Nibble) (b : Bool) (j : PReg) :
    (s.report c k b).readInf j = s.readInf j := rfl

@[simp] theorem readPt_report (s : State) (c : ErrCode) (k : Nibble) (b : Bool) (j : PReg) :
    (s.report c k b).readPt j = s.readPt j := rfl

theorem xReg_inj {j k : PReg} (h : xReg j = xReg k) : j = k := by
  have e : 2 * j.val = 2 * k.val := congrArg Fin.val h
  exact Fin.ext (by omega)

theorem yReg_inj {j k : PReg} (h : yReg j = yReg k) : j = k := by
  have e : 2 * j.val + 1 = 2 * k.val + 1 := congrArg Fin.val h
  exact Fin.ext (by omega)

theorem xReg_ne_yReg (j k : PReg) : xReg j ≠ yReg k := by
  intro h
  have e : 2 * j.val = 2 * k.val + 1 := congrArg Fin.val h
  omega

theorem pairReg_ne {r : VReg} (h : r.isEven = true) : pairReg r ≠ r := by
  revert r
  decide

/-! ### Words of a 256-bit register -/

theorem getLsbD_setWord (x : Val) (w : Fin 8) (v : Word) (k : Nat) :
    (setWord x w v).getLsbD k =
      if 32 * w.val ≤ k ∧ k < 32 * w.val + 32 then v.getLsbD (k - 32 * w.val) else x.getLsbD k := by
  have hw : w.val < 8 := w.isLt
  simp only [setWord, BitVec.getLsbD_or, BitVec.getLsbD_and, BitVec.getLsbD_not,
    BitVec.getLsbD_shiftLeft, BitVec.getLsbD_setWidth, BitVec.getLsbD_allOnes]
  by_cases hk : k < 256
  · by_cases h1 : 32 * w.val ≤ k
    · by_cases h2 : k < 32 * w.val + 32
      · have h3 : k - 32 * w.val < 32 := by omega
        have h4 : k - 32 * w.val < 256 := by omega
        simp [hk, h1, h2, h3, h4, Nat.not_lt.mpr h1]
      · have h3 : ¬ k - 32 * w.val < 32 := by omega
        have h5 : v.getLsbD (k - 32 * w.val) = false := BitVec.getLsbD_of_ge _ _ (by omega)
        simp [hk, h2, h3, h5]
    · simp [hk, h1, Nat.lt_of_not_le h1]
  · have h6 : ¬ (32 * w.val ≤ k ∧ k < 32 * w.val + 32) := by omega
    rw [if_neg h6, BitVec.getLsbD_of_ge _ _ (by omega)]
    simp [hk]

theorem getWord_setWord (x : Val) (w w' : Fin 8) (v : Word) :
    getWord (setWord x w v) w' = if w = w' then v else getWord x w' := by
  apply BitVec.eq_of_getLsbD_eq
  intro k hk
  simp only [getWord, BitVec.getLsbD_extractLsb', hk, decide_true, Bool.true_and, getLsbD_setWord]
  by_cases h : w = w'
  · subst h
    have : 32 * w.val ≤ 32 * w.val + k ∧ 32 * w.val + k < 32 * w.val + 32 := by omega
    simp [this]
  · have hv : w.val ≠ w'.val := fun e => h (Fin.ext e)
    have : ¬ (32 * w.val ≤ 32 * w'.val + k ∧ 32 * w'.val + k < 32 * w.val + 32) := by omega
    rw [if_neg this, if_neg h]
    simp [hk]

/-- A register is the sum of its words, word 0 least significant (20_memory.md R62). -/
theorem toNat_eq_words (x : Val) :
    x.toNat = ∑ w : Fin 8, (getWord x w).toNat * 2 ^ (32 * w.val) := by
  have h := x.isLt
  simp only [Fin.sum_univ_eight, getWord, BitVec.extractLsb'_toNat, Nat.shiftRight_eq_div_pow]
  simp only [Fin.val_zero, Fin.val_one, Fin.val_two, Fin.isValue]
  have e3 : ((3 : Fin 8) : Nat) = 3 := rfl
  have e4 : ((4 : Fin 8) : Nat) = 4 := rfl
  have e5 : ((5 : Fin 8) : Nat) = 5 := rfl
  have e6 : ((6 : Fin 8) : Nat) = 6 := rfl
  have e7 : ((7 : Fin 8) : Nat) = 7 := rfl
  rw [e3, e4, e5, e6, e7]
  omega

/-- A register is known by its words. -/
theorem val_ext {x y : Val} (h : ∀ w, getWord x w = getWord y w) : x = y := by
  apply BitVec.eq_of_toNat_eq
  rw [toNat_eq_words, toNat_eq_words]
  simp only [h]

/-! ### Commits -/

@[simp] theorem commit_nil (s : State) : s.commit [] = s := rfl

@[simp] theorem commit_cons (s : State) (w : Write) (ws : List Write) :
    s.commit (w :: ws) = (s.applyWrite w).commit ws := rfl

/-- A commit changes nothing but operand registers and `INF`. -/
theorem commit_control (ws : List Write) (s : State) : s.SameControl (s.commit ws) := by
  induction ws generalizing s with
  | nil => exact ⟨rfl, rfl, rfl, rfl, rfl, rfl, rfl, rfl, rfl⟩
  | cons w ws ih =>
    have h := ih (s.applyWrite w)
    cases w with
    | v i x => exact ⟨h.cur, h.sealed, h.ie, h.ovr, h.werr, h.cmdreg, h.cfg, h.events, h.response⟩
    | inf j b => exact ⟨h.cur, h.sealed, h.ie, h.ovr, h.werr, h.cmdreg, h.cfg, h.events, h.response⟩

/-- The commit of one operand register (10_state.md R27: `INF` is left alone). -/
theorem commit_writesV (s : State) (i : VReg) (x : Nat) :
    s.commit (writesV i x).writes = s.writeV i (toVal x) := rfl

/-- The state that `Pt(j) <- Q` leaves (10_state.md R25). -/
theorem commit_ptWrites (s : State) (j : PReg) (q : Point) :
    s.commit (ptWrites j q) =
      match q with
      | .infinity => ((s.writeInf j true).writeV (xReg j) 0).writeV (yReg j) 0
      | .affine x y => ((s.writeInf j false).writeV (xReg j) (toVal x)).writeV (yReg j) (toVal y) := by
  cases q <;> rfl

/-- `Pt(j) <- Q` leaves every other point register and operand register alone. -/
theorem commit_ptWrites_frame (s : State) (j : PReg) (q : Point) :
    s.OnlyPt (s.commit (ptWrites j q)) j := by
  constructor
  · intro i hx hy
    cases q <;> simp [commit_ptWrites, readV_writeV_other _ _ hx, readV_writeV_other _ _ hy]
  · intro k hk
    cases q <;> simp [commit_ptWrites, readInf_writeInf, Ne.symm hk]

/-- Every coordinate fits a register. -/
def Point.fits : Point → Prop
  | .infinity => True
  | .affine x y => x < 2 ^ 256 ∧ y < 2 ^ 256

/-- Reading a point register after writing it (10_state.md R24, R25). -/
theorem readPt_commit_ptWrites (s : State) (j : PReg) (q : Point) (h : q.fits) :
    (s.commit (ptWrites j q)).readPt j = q := by
  cases q with
  | infinity => simp [commit_ptWrites, State.readPt, readInf_writeInf]
  | affine x y =>
    obtain ⟨hx, hy⟩ := h
    simp [commit_ptWrites, State.readPt, readInf_writeInf, readV_writeV,
      (xReg_ne_yReg j j).symm, toVal_toNat hx, toVal_toNat hy]

/-- What a point register holds fits. -/
theorem readPt_fits (s : State) (j : PReg) : (s.readPt j).fits := by
  unfold State.readPt
  split
  · trivial
  · exact ⟨BitVec.isLt _, BitVec.isLt _⟩

end Sys2Proof.Machine
end

