-- ==== Sys2Proof/Laws/Bus.lean ====
section
/-! SUPPORT. What a host access can do to the block (20_memory.md R60-R66, 10_state.md R48, R49). -/

namespace Sys2Proof.Machine

/-- The offset of `BASE + off` is `off` for every offset of the window. -/
@[simp] theorem offset_base (cfg : Config) {off : Nat} (h : off < 0x1000) :
    Config.offset cfg (cfg.base + off) = some off := by
  unfold Config.offset Config.windowBytes
  rw [if_pos (by omega)]
  simp

/-- A read changes nothing of the block, and neither the configuration nor the schedule. -/
theorem hostRead_frame (s : State) (addr : Nat) (width : AccessWidth) :
    (hostRead s addr width).toBlock = s.toBlock ∧ (hostRead s addr width).cfg = s.cfg ∧
      (hostRead s addr width).events = s.events := by
  unfold hostRead
  split
  · exact ⟨rfl, rfl, rfl⟩
  · split <;> exact ⟨rfl, rfl, rfl⟩

/-- An aligned 32-bit read inside the window answers `BusRead`. -/
theorem hostRead_ok (s : State) {off : Nat} (h : off < 0x1000) (ha : off % 4 = 0) :
    hostRead s (s.cfg.base + off) .w32 = { s with response := .readData (busRead s off) } := by
  simp [hostRead, offset_base s.cfg h, accessOk, ha]

/-- An aligned 32-bit write inside the window performs `BusWrite`. -/
theorem hostWrite_ok (s : State) {off : Nat} (h : off < 0x1000) (ha : off % 4 = 0) (v : Word) :
    hostWrite s (s.cfg.base + off) .w32 v = { busWrite s off v with response := .writeDone } := by
  simp [hostWrite, offset_base s.cfg h, accessOk, ha]

/-- What a write of `v` to an aligned offset can leave: one of the writes of 20_memory.md R60. -/
inductive WriteEffect (s : State) (v : Word) : State → Prop where
  | ignored : WriteEffect s v s
  | ctrl : WriteEffect s v (s.ctrlWrite v)
  | status : WriteEffect s v (s.writeStatus v)
  | cmd : WriteEffect s v (s.issue v)
  | intStatus : WriteEffect s v (s.writeIntStatus v)
  | inf : WriteEffect s v (s.hostWriteInf v)
  | operand (i : VReg) (w : Fin 8) : WriteEffect s v (s.hostWriteV i w v)
  | curve (r : CurReg) (w : Fin 8) : WriteEffect s v (s.hostWriteCur r w v)

/-- `BusWrite` has one of these effects, whatever the offset. -/
theorem busWrite_effect (s : State) (off : Nat) (v : Word) : WriteEffect s v (busWrite s off v) := by
  unfold busWrite
  cases targetAt off with
  | id => exact .ignored
  | ctrl => exact .ctrl
  | status => exact .status
  | cmd => exact .cmd
  | intStatus => exact .intStatus
  | inf => exact .inf
  | errinfo => exact .ignored
  | v i w => exact .operand i w
  | cur r w => exact .curve r w
  | reserved => exact .ignored

/-- What a host write can do: nothing to the block, or the effect of `BusWrite` at one offset. -/
theorem hostWrite_cases (s : State) (addr : Nat) (width : AccessWidth) (v : Word) :
    (∃ r, hostWrite s addr width v = { s with response := r }) ∨
      ∃ off, hostWrite s addr width v = { busWrite s off v with response := .writeDone } := by
  unfold hostWrite
  split
  · exact .inl ⟨_, rfl⟩
  · split
    · exact .inr ⟨_, rfl⟩
    · exact .inl ⟨_, rfl⟩

/-- The offset of word `w` of `V[i]` names that word (10_state.md R28). -/
theorem targetAt_v (i : VReg) (w : Fin 8) :
    targetAt (0x100 + 32 * i.val + 4 * w.val) = .v i w := by
  revert i w
  decide

/-- The offset of word `w` of a curve parameter register names that word (10_state.md R28). -/
theorem targetAt_cur (r : CurReg) (w : Fin 8) :
    targetAt (0x300 + 32 * r.index + 4 * w.val) = .cur r w := by
  revert w
  cases r <;> decide

@[simp] theorem curve_get_set (c : Curve) (r r' : CurReg) (x : Val) :
    (c.set r x).get r' = if r = r' then x else c.get r' := by
  cases r <;> cases r' <;> rfl

/-- The curve is known by its seven registers. -/
theorem curve_ext {c d : Curve} (h : ∀ r, c.get r = d.get r) : c = d := by
  cases c
  cases d
  have ha := h .a
  have hb := h .b
  have hc := h .c
  have hp := h .p
  have hx := h .gx
  have hy := h .gy
  have hn := h .n
  simp only [Curve.get] at ha hb hc hp hx hy hn
  simp [ha, hb, hc, hp, hx, hy, hn]

/-- The effect of a CTRL write on each field it can change (44_system.md R171-R173). -/
theorem ctrlWrite_eq (s : State) (v : Word) :
    s.ctrlWrite v =
      if v.getLsbD 2 && s.busy then
        ({ s with ie := v.getLsbD 0, sealed := s.sealed || v.getLsbD 1 } : State).takeError .eabort 0
      else { s with ie := v.getLsbD 0, sealed := s.sealed || v.getLsbD 1 } := by
  unfold State.ctrlWrite
  cases h1 : v.getLsbD 1 <;> cases h2 : v.getLsbD 2 <;> cases hb : s.busy <;>
    simp_all [State.abort, State.seal]

end Sys2Proof.Machine
end

