-- ==== Sys2Proof/Laws/Curve.lean ====
section
/-! SUPPORT. Every result of a point operation fits a register, and `Add` leaves coordinates in range
(41_point.md R121, R124; 42_scalar.md R140; 00_scope.md R9). -/

namespace Sys2Proof.Machine

/-- A point of the data model fits a register. -/
theorem fits_of_inRange {c : Curve} {q : Point} (h : q.InRange c.p.toNat) : q.fits := by
  cases q with
  | infinity => trivial
  | affine x y =>
    have hp : c.p.toNat < 2 ^ 256 := c.p.isLt
    exact ⟨lt_trans h.1 hp, lt_trans h.2 hp⟩

/-- The sum from a slope is in range. -/
theorem slopeSum_inRange {c : Curve} (hp : 0 < c.p.toNat) (lam x1 y1 x2 : Nat) :
    (c.slopeSum lam x1 y1 x2).InRange c.p.toNat :=
  ⟨modNat_lt _ hp, modNat_lt _ hp⟩

/-- What `Add` can answer: one of its operands, `Infinity`, a failure, or a sum from a slope. -/
theorem add_cases (c : Curve) (q r : Point) :
    c.add q r = none ∨ c.add q r = some .infinity ∨ (q = .infinity ∧ c.add q r = some r) ∨
      (r = .infinity ∧ c.add q r = some q) ∨
      ∃ lam x1 y1 x2, c.add q r = some (c.slopeSum lam x1 y1 x2) := by
  cases q with
  | infinity => exact .inr (.inr (.inl ⟨rfl, rfl⟩))
  | affine x1 y1 =>
    cases r with
    | infinity => exact .inr (.inr (.inr (.inl ⟨rfl, rfl⟩)))
    | affine x2 y2 =>
      simp only [Curve.add]
      split_ifs
      · exact .inr (.inl rfl)
      · exact .inr (.inl rfl)
      · cases c.tangent x1 y1 with
        | none => exact .inl rfl
        | some lam => exact .inr (.inr (.inr (.inr ⟨lam, x1, y1, x2, rfl⟩)))
      · cases c.chord x1 y1 x2 y2 with
        | none => exact .inl rfl
        | some lam => exact .inr (.inr (.inr (.inr ⟨lam, x1, y1, x2, rfl⟩)))

/-- A property of points that holds of `Infinity` and of every sum from a slope is kept by `Add`. -/
theorem add_preserves {c : Curve} {good : Point → Prop} (h0 : good .infinity)
    (h1 : ∀ lam x1 y1 x2, good (c.slopeSum lam x1 y1 x2)) {q r t : Point} (hq : good q) (hr : good r)
    (h : c.add q r = some t) : good t := by
  rcases add_cases c q r with e | e | ⟨_, e⟩ | ⟨_, e⟩ | ⟨lam, x1, y1, x2, e⟩ <;> rw [e] at h
  · exact absurd h (by simp)
  · exact Option.some.inj h ▸ h0
  · exact Option.some.inj h ▸ hr
  · exact Option.some.inj h ▸ hq
  · exact Option.some.inj h ▸ h1 lam x1 y1 x2

/-- The same property is kept by the loop of `Smul`. -/
theorem smulLoop_preserves {c : Curve} {good : Point → Prop} (h0 : good .infinity)
    (h1 : ∀ lam x1 y1 x2, good (c.slopeSum lam x1 y1 x2)) :
    ∀ {fuel k : Nat} {r a t : Point}, good r → good a → c.smulLoop fuel k r a = some t → good t := by
  intro fuel
  induction fuel with
  | zero => intro k r a t hr _ h; exact Option.some.inj h ▸ hr
  | succ fuel ih =>
    intro k r a t hr ha h
    unfold Curve.smulLoop at h
    split at h
    · exact Option.some.inj h ▸ hr
    · split at h
      · exact absurd h (by simp)
      next r' hr' =>
        have hg : good r' := by
          split at hr'
          · exact add_preserves h0 h1 hr ha hr'
          · exact Option.some.inj hr' ▸ hr
        split at h
        · exact Option.some.inj h ▸ hg
        · split at h
          · exact absurd h (by simp)
          next a' ha' => exact ih hg (add_preserves h0 h1 ha ha ha') h

/-- The same property is kept by `Smul`, where negation keeps it. -/
theorem smul_preserves {c : Curve} {good : Point → Prop} (h0 : good .infinity)
    (h1 : ∀ lam x1 y1 x2, good (c.slopeSum lam x1 y1 x2)) {pt t : Point} {k : Int}
    (hn : good (c.neg pt)) (hp : good pt) (h : c.smul pt k = some t) : good t := by
  unfold Curve.smul at h
  split at h
  · exact smulLoop_preserves h0 h1 h0 hn h
  · exact smulLoop_preserves h0 h1 h0 hp h

/-- Sums and multiples of points that fit, fit (00_scope.md R9: every written value is below `2^256`). -/
theorem slopeSum_fits {c : Curve} (hp : 0 < c.p.toNat) (lam x1 y1 x2 : Nat) :
    (c.slopeSum lam x1 y1 x2).fits := fits_of_inRange (slopeSum_inRange hp lam x1 y1 x2)

theorem neg_fits {c : Curve} (hp : 0 < c.p.toNat) {q : Point} (h : q.fits) : (c.neg q).fits := by
  cases q with
  | infinity => trivial
  | affine x y => exact ⟨h.1, lt_trans (modNat_lt _ hp) c.p.isLt⟩

theorem add_fits {c : Curve} (hp : 0 < c.p.toNat) {q r t : Point} (hq : q.fits) (hr : r.fits)
    (h : c.add q r = some t) : t.fits :=
  add_preserves (good := Point.fits) trivial (slopeSum_fits hp) hq hr h

theorem smul_fits {c : Curve} (hp : 0 < c.p.toNat) {pt t : Point} {k : Int} (hq : pt.fits)
    (h : c.smul pt k = some t) : t.fits :=
  smul_preserves (good := Point.fits) trivial (slopeSum_fits hp) (neg_fits hp hq) hq h

end Sys2Proof.Machine
end

