-- ==== Sys2Proof/Laws/Decode.lean ====
section
/-! SUPPORT. The command word as its fields: what `packFields` gives for each reading of a word, so that a
proof about decoding splits into its six fields. -/

namespace Sys2Proof

variable (opc : BitVec 6) (rd ra rb rc : BitVec 4) (fl : BitVec 10)

theorem packFields_toNat :
    (packFields opc rd ra rb rc fl).toNat = opc.toNat * 2 ^ 26 + rd.toNat * 2 ^ 22
      + ra.toNat * 2 ^ 18 + rb.toNat * 2 ^ 14 + rc.toNat * 2 ^ 10 + fl.toNat := by
  have h1 := rd.isLt
  have h2 := ra.isLt
  have h3 := rb.isLt
  have h4 := rc.isLt
  have h5 := fl.isLt
  simp only [packFields, BitVec.toNat_append]
  rw [← Nat.shiftLeft_add_eq_or_of_lt h1, ← Nat.shiftLeft_add_eq_or_of_lt h2,
    ← Nat.shiftLeft_add_eq_or_of_lt h3, ← Nat.shiftLeft_add_eq_or_of_lt h4,
    ← Nat.shiftLeft_add_eq_or_of_lt h5]
  simp only [Nat.shiftLeft_eq]
  omega

/-- Masking a word masks its fields. -/
theorem packFields_and (opc' : BitVec 6) (rd' ra' rb' rc' : BitVec 4) (fl' : BitVec 10) :
    packFields opc rd ra rb rc fl &&& packFields opc' rd' ra' rb' rc' fl' =
      packFields (opc &&& opc') (rd &&& rd') (ra &&& ra') (rb &&& rb') (rc &&& rc') (fl &&& fl') := by
  show ((opc ++ rd ++ ra ++ rb ++ rc ++ fl : BitVec (6 + 4 + 4 + 4 + 4 + 10))
    &&& (opc' ++ rd' ++ ra' ++ rb' ++ rc' ++ fl' : BitVec (6 + 4 + 4 + 4 + 4 + 10))) = _
  rw [BitVec.and_append, BitVec.and_append, BitVec.and_append, BitVec.and_append,
    BitVec.and_append]
  rfl

/-- Every word is the packing of its fields. -/
theorem packFields_extract (w : Word) :
    packFields (w.extractLsb' 26 6) (w.extractLsb' 22 4) (w.extractLsb' 18 4)
      (w.extractLsb' 14 4) (w.extractLsb' 10 4) (w.extractLsb' 0 10) = w := by
  apply BitVec.eq_of_toNat_eq
  rw [packFields_toNat]
  have h := w.isLt
  simp only [BitVec.extractLsb'_toNat, Nat.shiftRight_eq_div_pow]
  omega

/-- Two words are equal exactly when their fields are. -/
theorem packFields_inj {opc opc' : BitVec 6} {rd rd' ra ra' rb rb' rc rc' : BitVec 4}
    {fl fl' : BitVec 10} :
    packFields opc rd ra rb rc fl = packFields opc' rd' ra' rb' rc' fl' ↔
      opc = opc' ∧ rd = rd' ∧ ra = ra' ∧ rb = rb' ∧ rc = rc' ∧ fl = fl' := by
  constructor
  · intro h
    have e := congrArg BitVec.toNat h
    rw [packFields_toNat, packFields_toNat] at e
    have b1 := rd.isLt
    have b2 := ra.isLt
    have b3 := rb.isLt
    have b4 := rc.isLt
    have b5 := fl.isLt
    have b1' := rd'.isLt
    have b2' := ra'.isLt
    have b3' := rb'.isLt
    have b4' := rc'.isLt
    have b5' := fl'.isLt
    refine ⟨?_, ?_, ?_, ?_, ?_, ?_⟩ <;> apply BitVec.eq_of_toNat_eq <;> omega
  · rintro ⟨rfl, rfl, rfl, rfl, rfl, rfl⟩
    rfl

@[simp] theorem opcOf_packFields : opcOf (packFields opc rd ra rb rc fl) = opc.toNat := by
  have h1 := rd.isLt
  have h2 := ra.isLt
  have h3 := rb.isLt
  have h4 := rc.isLt
  have h5 := fl.isLt
  simp only [opcOf, packFields_toNat, Nat.shiftRight_eq_div_pow]
  omega

@[simp] theorem vBits_toNat (r : VReg) : (vBits r).toNat = r.val := by simp [vBits]

@[simp] theorem pBits_toNat (j : PReg) : (pBits j).toNat = j.val := by
  simp [pBits]
  omega

theorem vField_rd : vField (packFields opc rd ra rb rc fl) rdLo = Fin.ofNat 16 rd.toNat := by
  have h1 := rd.isLt
  have h2 := ra.isLt
  have h3 := rb.isLt
  have h4 := rc.isLt
  have h5 := fl.isLt
  apply Fin.ext
  simp only [vField, rdLo, Fin.ofNat, packFields_toNat, Nat.shiftRight_eq_div_pow]
  omega

theorem vField_ra : vField (packFields opc rd ra rb rc fl) raLo = Fin.ofNat 16 ra.toNat := by
  have h2 := ra.isLt
  have h3 := rb.isLt
  have h4 := rc.isLt
  have h5 := fl.isLt
  apply Fin.ext
  simp only [vField, raLo, Fin.ofNat, packFields_toNat, Nat.shiftRight_eq_div_pow]
  omega

theorem vField_rb : vField (packFields opc rd ra rb rc fl) rbLo = Fin.ofNat 16 rb.toNat := by
  have h3 := rb.isLt
  have h4 := rc.isLt
  have h5 := fl.isLt
  apply Fin.ext
  simp only [vField, rbLo, Fin.ofNat, packFields_toNat, Nat.shiftRight_eq_div_pow]
  omega

theorem vField_rc : vField (packFields opc rd ra rb rc fl) rcLo = Fin.ofNat 16 rc.toNat := by
  have h4 := rc.isLt
  have h5 := fl.isLt
  apply Fin.ext
  simp only [vField, rcLo, Fin.ofNat, packFields_toNat, Nat.shiftRight_eq_div_pow]
  omega

theorem pField_rd : pField (packFields opc rd ra rb rc fl) rdLo = Fin.ofNat 8 rd.toNat := by
  have h2 := ra.isLt
  have h3 := rb.isLt
  have h4 := rc.isLt
  have h5 := fl.isLt
  apply Fin.ext
  simp only [pField, rdLo, Fin.ofNat, packFields_toNat, Nat.shiftRight_eq_div_pow]
  omega

theorem pField_ra : pField (packFields opc rd ra rb rc fl) raLo = Fin.ofNat 8 ra.toNat := by
  have h3 := rb.isLt
  have h4 := rc.isLt
  have h5 := fl.isLt
  apply Fin.ext
  simp only [pField, raLo, Fin.ofNat, packFields_toNat, Nat.shiftRight_eq_div_pow]
  omega

theorem pField_rb : pField (packFields opc rd ra rb rc fl) rbLo = Fin.ofNat 8 rb.toNat := by
  have h4 := rc.isLt
  have h5 := fl.isLt
  apply Fin.ext
  simp only [pField, rbLo, Fin.ofNat, packFields_toNat, Nat.shiftRight_eq_div_pow]
  omega

theorem pField_rc : pField (packFields opc rd ra rb rc fl) rcLo = Fin.ofNat 8 rc.toNat := by
  have h5 := fl.isLt
  apply Fin.ext
  simp only [pField, rcLo, Fin.ofNat, packFields_toNat, Nat.shiftRight_eq_div_pow]
  omega

/-- A flag bit of the packed word is the bit of `FL`. -/
theorem flag_packFields (k : Nat) (hk : k < 10) :
    flag (packFields opc rd ra rb rc fl) k = fl.getLsbD k := by
  have h := fl.isLt
  have e : ∀ n : Nat, (opc.toNat * 2 ^ 26 + rd.toNat * 2 ^ 22 + ra.toNat * 2 ^ 18
      + rb.toNat * 2 ^ 14 + rc.toNat * 2 ^ 10 + n)
      = 2 ^ 10 * (opc.toNat * 2 ^ 16 + rd.toNat * 2 ^ 12 + ra.toNat * 2 ^ 8
        + rb.toNat * 2 ^ 4 + rc.toNat) + n := by intro n; ring
  simp only [flag, BitVec.getLsbD, packFields_toNat]
  rw [e, Nat.testBit_two_pow_mul_add _ h, if_pos hk]

@[simp] theorem vField_of_val (r : VReg) : Fin.ofNat 16 r.val = r := by
  apply Fin.ext
  simp

@[simp] theorem pField_of_val (j : PReg) : Fin.ofNat 8 j.val = j := by
  apply Fin.ext
  simp

/-- What `decode` answers for a word of a row of the table. -/
theorem decode_of_row {w : Word} {row : Row} {i : Instr} (h1 : rowOf (opcOf w) = some row)
    (h2 : applyRow (opcOf w) w = some i) :
    decode w = if w &&& row.mask = row.pattern then .ok i else .error .fieldConstraint := by
  simp only [decode, h1, h2]

/-- `rowOf` and `applyRow` know the same opcodes. -/
theorem applyRow_isSome (opc : Nat) (w : Word) : (applyRow opc w).isSome = (rowOf opc).isSome := by
  unfold applyRow rowOf
  split <;> rfl

end Sys2Proof
end

