-- ==== Sys2Proof/Laws/Exec.lean ====
section
/-! SUPPORT. What running a command can do: `exec` is the completion of the command's outcome, a completion
changes only operands and the report, and each check in the order of 60_exceptions.md R184. -/

namespace Sys2Proof.Machine

/-- The outcome `Exec` of each command (10_state.md R53). -/
def cmdOf : Instr → State → Cmd Effect
  | .nop => fun _ => nopCmd
  | .fred m neg vd va => fredCmd m neg vd va
  | .finv m neg vd va => finvCmd m neg vd va
  | .fadd m vd va vb => faddCmd m vd va vb
  | .fsub m vd va vb => fsubCmd m vd va vb
  | .fmul m vd va vb => fmulCmd m vd va vb
  | .padd pd pa pb => paddCmd pd pa pb
  | .pdbl pd pa => pdblCmd pd pa
  | .pneg pd pa => pnegCmd pd pa
  | .pchk pa => pchkCmd pa
  | .peq pa pb => peqCmd pa pb
  | .pldg pd => pldgCmd pd
  | .pmul neg pd pa vk => pmulCmd neg pd pa vk
  | .pord vd pa => pordCmd vd pa
  | .htrunc vd vh => htruncCmd vd vh
  | .sign vd vh vkey vk => signCmd vd vh vkey vk
  | .verify rovf sovf vh vr pq => verifyCmd rovf sovf vh vr pq

/-- Every command completes: `exec` is the completion of its outcome. -/
theorem exec_eq_complete (i : Instr) (s : State) : exec i s = .next (s.complete (cmdOf i s)) := by
  cases i <;> rfl

/-! ### Completion -/

@[simp] theorem complete_ok (s : State) (e : Effect) :
    s.complete (.ok e) = (s.commit e.writes).report .enone 0 e.res := rfl

@[simp] theorem complete_reject (s : State) (k : Nibble) :
    s.complete (.error (.reject k)) = s.report .enone k false := rfl

@[simp] theorem complete_raise (s : State) (c : ErrCode) (k : Nibble) :
    s.complete (.error (.raise c k)) = s.takeError c k := rfl

theorem report_reports (s : State) (c : ErrCode) (k : Nibble) (b : Bool) :
    (s.report c k b).Reports c.code k b := ⟨rfl, rfl, rfl, rfl, rfl, rfl, rfl⟩

/-- A completion changes operands and the report only. -/
theorem complete_control (s : State) (r : Cmd Effect) : s.SameControl (s.complete r) := by
  cases r with
  | ok e =>
    have h := commit_control e.writes s
    exact ⟨h.cur, h.sealed, h.ie, h.ovr, h.werr, h.cmdreg, h.cfg, h.events, h.response⟩
  | error e => cases e <;> exact ⟨rfl, rfl, rfl, rfl, rfl, rfl, rfl, rfl, rfl⟩

/-- A completion leaves the engine idle, DONE and the interrupt pending. -/
theorem complete_idle (s : State) (r : Cmd Effect) :
    (s.complete r).busy = false ∧ (s.complete r).done = true ∧ (s.complete r).doneIrq = true := by
  cases r with
  | ok e => exact ⟨rfl, rfl, rfl⟩
  | error e => cases e <;> exact ⟨rfl, rfl, rfl⟩

/-- An outcome that is not `Ok` writes no operand (10_state.md R53). -/
theorem complete_error_operands (s : State) (e : Ending) :
    s.SameOperands (s.complete (.error e)) := by
  cases e <;> exact ⟨rfl, rfl⟩

/-- A raised error: the state before the command with the report set (60_exceptions.md R180). -/
theorem takeError_fails (s : State) (c : ErrCode) (k : Nibble) :
    s.Fails (s.takeError c k) c.code k where
  operands := complete_error_operands s (.raise c k)
  control := complete_control s (.error (.raise c k))
  report := report_reports s c k false

/-! ### Pseudocode in sequence -/

@[simp] theorem cmd_bind_ok {α β : Type} (a : α) (f : α → Cmd β) : (Except.ok a >>= f) = f a := rfl

@[simp] theorem cmd_bind_error {α β : Type} (e : Ending) (f : α → Cmd β) :
    ((Except.error e : Cmd α) >>= f) = .error e := rfl

@[simp] theorem cmd_bind_raise {α β : Type} (c : ErrCode) (k : Nibble) (f : α → Cmd β) :
    ((raise c k : Cmd α) >>= f) = raise c k := rfl

@[simp] theorem cmd_bind_reject {α β : Type} (k : Nibble) (f : α → Cmd β) :
    ((reject k : Cmd α) >>= f) = reject k := rfl

@[simp] theorem cmd_pure {α : Type} (a : α) : (pure a : Cmd α) = .ok a := rfl

/-- A sequence gives a value exactly when both parts do. -/
theorem cmd_bind_eq_ok {α β : Type} {x : Cmd α} {f : α → Cmd β} {b : β} :
    (x >>= f) = .ok b ↔ ∃ a, x = .ok a ∧ f a = .ok b := by
  cases x with
  | ok a => simp
  | error e => simp

/-- A sequence ends early when its first part does, or its second part on the first one's value. -/
theorem cmd_bind_eq_error {α β : Type} {x : Cmd α} {f : α → Cmd β} {e : Ending} :
    (x >>= f) = .error e ↔ x = .error e ∨ ∃ a, x = .ok a ∧ f a = .error e := by
  cases x with
  | ok a => simp
  | error e' => simp

@[simp] theorem orElse_some {α : Type} (a : α) (e : Cmd α) : orElse (some a) e = .ok a := rfl

@[simp] theorem orElse_none {α : Type} (e : Cmd α) : orElse none e = e := rfl

/-! ### The checks -/

/-- The configuration check passes exactly on a usable configuration (60_exceptions.md R184). -/
theorem cfgError_eq_none {c : Curve} : c.cfgError = none ↔ c.Ok := by
  unfold Curve.cfgError Curve.Ok
  split_ifs <;> simp <;> omega

theorem cfgError_of_ok {c : Curve} (h : c.Ok) : c.cfgError = none := cfgError_eq_none.mpr h

/-- The sub-codes of ECFG (60_exceptions.md R182). -/
theorem cfgError_mem {c : Curve} {k : Nibble} (h : c.cfgError = some k) :
    k ∈ [(1 : Nibble), 2, 3] := by
  unfold Curve.cfgError at h
  split_ifs at h <;> cases h <;> decide

@[simp] theorem checkCfg_of_ok {s : State} (h : s.cur.Ok) : checkCfg s = .ok () := by
  simp only [checkCfg, cfgError_of_ok h]

theorem checkCfg_of_error {s : State} {k : Nibble} (h : s.cur.cfgError = some k) :
    checkCfg s = raise .ecfg k := by
  simp only [checkCfg, h]

theorem outOfRange_readPt (s : State) (j : PReg) :
    (s.readPt j).outOfRange s.cur.p.toNat = false ↔ s.PtOk j := by
  unfold State.readPt State.PtOk
  split
  next h => simp [Point.outOfRange, h]
  next h => simp [Point.outOfRange, h]

@[simp] theorem checkPt_of_ok {s : State} {j : PReg} (h : s.PtOk j) : checkPt s j = .ok () := by
  simp [checkPt, (outOfRange_readPt s j).mpr h]

theorem checkPt_of_bad {s : State} {j : PReg} (h : ¬ s.PtOk j) :
    checkPt s j = raise .eoperand (BitVec.ofNat 4 (j.val + 1)) := by
  have : (s.readPt j).outOfRange s.cur.p.toNat = true := by
    by_contra hc
    exact h ((outOfRange_readPt s j).mp (by simpa using hc))
  simp [checkPt, this]

@[simp] theorem checkEven_of_even {r : VReg} (h : r.isEven = true) : checkEven r = .ok () := by
  simp [checkEven, h]

theorem inRange_readPt {s : State} {j : PReg} (h : s.PtOk j) :
    (s.readPt j).InRange s.cur.p.toNat := by
  unfold State.readPt
  split
  next => trivial
  next hi =>
    rcases h with h | h
    · exact absurd h hi
    · exact h

/-- The modulus of a usable configuration is at least 2 (40_field.md R100). -/
theorem modulus_ge_two {c : Curve} (h : c.Ok) (m : Modulus) : 2 ≤ c.modulus m := by
  cases m
  · exact h.1
  · exact h.2.1

theorem modulus_lt (c : Curve) (m : Modulus) : c.modulus m < 2 ^ 256 := by
  cases m
  · exact c.p.isLt
  · exact c.n.isLt

/-! ### Completions of one shape -/

/-- A command whose outcome is one operand register: it is written, and nothing else but the report
changes. -/
theorem complete_writesV (s : State) (vd : VReg) {x : Nat} (hx : x < 2 ^ 256) :
    ((s.complete (.ok (writesV vd x))).readV vd).toNat = x ∧
      s.OnlyV (s.complete (.ok (writesV vd x))) [vd] ∧
      (s.complete (.ok (writesV vd x))).Reports 0 0 false := by
  refine ⟨?_, ⟨?_, rfl⟩, ⟨rfl, rfl, rfl, rfl, rfl, rfl, rfl⟩⟩
  · simp [writesV, State.applyWrite, toVal_toNat hx]
  · intro i hi
    have : i ≠ vd := by simpa using hi
    simp [writesV, State.applyWrite, readV_writeV_other _ _ this]

/-- A command whose outcome is a point. -/
theorem complete_writesPt (s : State) (pd : PReg) {q : Point} (hq : q.fits) :
    (s.complete (.ok (writesPt pd q))).readPt pd = q ∧
      s.OnlyPt (s.complete (.ok (writesPt pd q))) pd ∧
      (s.complete (.ok (writesPt pd q))).Reports 0 0 false := by
  refine ⟨?_, ?_, ⟨rfl, rfl, rfl, rfl, rfl, rfl, rfl⟩⟩
  · exact readPt_commit_ptWrites s pd q hq
  · have h := commit_ptWrites_frame s pd q
    exact ⟨h.v, h.inf⟩

/-- A point result of `Infinity` leaves zeros in both coordinates (10_state.md R25). -/
theorem complete_writesPt_infinity (s : State) (pd : PReg) :
    (s.complete (.ok (writesPt pd .infinity))).readV (xReg pd) = 0 ∧
      (s.complete (.ok (writesPt pd .infinity))).readV (yReg pd) = 0 := by
  constructor <;>
    simp [writesPt, commit_ptWrites, readV_writeV, (xReg_ne_yReg pd pd).symm]

end Sys2Proof.Machine
end

