-- ==== Sys2Proof/Laws/Outcome.lean ====
section
/-! SUPPORT. The early ends each command can have (60_exceptions.md R181, R182), and what it can write. -/

namespace Sys2Proof.Machine

theorem orElse_eq_error {α : Type} {o : Option α} {e : Ending} {r : Ending}
    (h : orElse o (.error r : Cmd α) = .error e) : o = none ∧ e = r := by
  cases o with
  | some a => exact absurd h (by simp)
  | none => exact ⟨rfl, (Except.error.inj h).symm⟩

theorem raise_eq_error {α : Type} {c : ErrCode} {k : Nibble} {e : Ending}
    (h : (raise c k : Cmd α) = .error e) : e = .raise c k := (Except.error.inj h).symm

theorem reject_eq_error {α : Type} {k : Nibble} {e : Ending}
    (h : (reject k : Cmd α) = .error e) : e = .reject k := (Except.error.inj h).symm

/-- The configuration check ends a command with ECFG(1), ECFG(2) or ECFG(3). -/
theorem checkCfg_error {s : State} {e : Ending} (h : checkCfg s = .error e) :
    ∃ k ∈ [(1 : Nibble), 2, 3], e = .raise .ecfg k := by
  unfold checkCfg at h
  cases hk : s.cur.cfgError with
  | none => simp [hk] at h
  | some k =>
    rw [hk] at h
    exact ⟨k, cfgError_mem hk, raise_eq_error h⟩

/-- `CheckPt(j)` ends a command with EOPERAND and the number of `j` plus 1. -/
theorem checkPt_error {s : State} {j : PReg} {e : Ending} (h : checkPt s j = .error e) :
    e = .raise .eoperand (BitVec.ofNat 4 (j.val + 1)) := by
  unfold checkPt at h
  split at h
  · exact raise_eq_error h
  · exact absurd h (by simp)

/-- An odd `e` operand ends a command with EILLEGAL(2). -/
theorem checkEven_error {r : VReg} {e : Ending} (h : checkEven r = .error e) :
    e = .raise .eillegal 2 ∧ r.isEven = false := by
  unfold checkEven at h
  split at h
  · exact absurd h (by simp)
  next hr => exact ⟨raise_eq_error h, by simpa using hr⟩

/-- The order loop ends early with ELIMIT or EARITH(2). -/
theorem orderLoop_error {c : Curve} {limit : Nat} {pt : Point} {e : Ending} :
    ∀ {fuel n : Nat} {q : Point}, c.orderLoop limit pt fuel n q = .error e →
      e = .raise .elimit 0 ∨ e = .raise .earith 2 := by
  intro fuel
  induction fuel with
  | zero => intro n q h; exact .inl (raise_eq_error h)
  | succ fuel ih =>
    intro n q h
    unfold Curve.orderLoop at h
    split at h
    · exact absurd h (by simp)
    · split at h
      · exact .inl (raise_eq_error h)
      · split at h
        · exact .inr (raise_eq_error h)
        · exact ih h

/-- SIGN's computation ends early with ERETRY and a reason from 1 to 5. -/
theorem sign_error {c : Curve} {mode : TruncMode} {h d k : Nat} {e : Ending}
    (he : c.sign mode h d k = .error e) :
    ∃ i ∈ [(1 : Nibble), 2, 3, 4, 5], e = .raise .eretry i := by
  unfold Curve.sign at he
  rcases cmd_bind_eq_error.mp he with h1 | ⟨big, _, h1⟩
  · exact ⟨1, by decide, (orElse_eq_error h1).2⟩
  · cases big with
    | infinity => exact ⟨2, by decide, raise_eq_error h1⟩
    | affine x y =>
      rcases cmd_bind_eq_error.mp h1 with h2 | ⟨kinv, _, h2⟩
      · exact ⟨3, by decide, (orElse_eq_error h2).2⟩
      · dsimp only at h2
        split at h2
        · exact ⟨4, by decide, raise_eq_error h2⟩
        · split at h2
          · exact ⟨5, by decide, raise_eq_error h2⟩
          · exact absurd h2 (by simp)

/-- VERIFY's computation ends early with a reject reason from 1 to 11. -/
theorem verify_error {c : Curve} {mode : TruncMode} {rovf sovf : Bool} {h r sg : Nat} {q : Point}
    {e : Ending} (he : c.verify mode rovf sovf h r sg q = .error e) :
    ∃ i ∈ [(1 : Nibble), 2, 3, 4, 5, 6, 7, 8, 9, 10, 11], e = .reject i := by
  have key : ∀ {e : Ending}, c.verifyKey q = .error e → ∃ i ∈ [(1 : Nibble), 2, 3], e = .reject i := by
    intro e he
    cases q with
    | infinity => exact ⟨1, by decide, reject_eq_error he⟩
    | affine x y =>
      simp only [Curve.verifyKey] at he
      split at he
      · exact ⟨2, by decide, reject_eq_error he⟩
      · split at he
        · exact absurd he (by simp)
        · exact ⟨3, by decide, reject_eq_error he⟩
  have ord : ∀ {e : Ending}, c.verifyOrder q = .error e → ∃ i ∈ [(4 : Nibble), 5], e = .reject i := by
    intro e he
    unfold Curve.verifyOrder at he
    rcases cmd_bind_eq_error.mp he with h1 | ⟨t, _, h1⟩
    · exact ⟨4, by decide, (orElse_eq_error h1).2⟩
    · cases t with
      | infinity => exact absurd h1 (by simp)
      | affine x y => exact ⟨5, by decide, reject_eq_error h1⟩
  have bound : ∀ {o : Bool} {n x : Nat} {k : Nibble} {e : Ending}, verifyBound o n x k = .error e →
      e = .reject k := by
    intro o n x k e he
    unfold verifyBound at he
    split at he
    · exact reject_eq_error he
    · exact absurd he (by simp)
  have sub : ∀ {l : List Nibble}, (∃ i ∈ l, e = .reject i) →
      (∀ i ∈ l, i ∈ [(1 : Nibble), 2, 3, 4, 5, 6, 7, 8, 9, 10, 11]) →
      ∃ i ∈ [(1 : Nibble), 2, 3, 4, 5, 6, 7, 8, 9, 10, 11], e = .reject i :=
    fun ⟨i, hi, hh⟩ hl => ⟨i, hl i hi, hh⟩
  have one : ∀ k : Nibble, e = .reject k → k ∈ [(1 : Nibble), 2, 3, 4, 5, 6, 7, 8, 9, 10, 11] →
      ∃ i ∈ [(1 : Nibble), 2, 3, 4, 5, 6, 7, 8, 9, 10, 11], e = .reject i := fun k h hk => ⟨k, hk, h⟩
  unfold Curve.verify at he
  rcases cmd_bind_eq_error.mp he with h1 | ⟨_, _, he⟩
  · exact sub (key h1) (by decide)
  rcases cmd_bind_eq_error.mp he with h1 | ⟨_, _, he⟩
  · exact sub (ord h1) (by decide)
  rcases cmd_bind_eq_error.mp he with h1 | ⟨_, _, he⟩
  · exact one 6 (bound h1) (by decide)
  rcases cmd_bind_eq_error.mp he with h1 | ⟨_, _, he⟩
  · exact one 7 (bound h1) (by decide)
  rcases cmd_bind_eq_error.mp he with h1 | ⟨w, _, he⟩
  · exact one 8 (orElse_eq_error h1).2 (by decide)
  rcases cmd_bind_eq_error.mp he with h1 | ⟨big, _, he⟩
  · exact one 9 (orElse_eq_error h1).2 (by decide)
  cases big with
  | infinity => exact one 10 (reject_eq_error he) (by decide)
  | affine x y =>
    simp only at he
    split at he
    · exact absurd he (by simp)
    · exact one 11 (reject_eq_error he) (by decide)

/-! ### Every command -/

/-- The commands that write a point register when they complete. -/
def pointResult : Instr → Bool
  | .padd _ _ _ => true
  | .pdbl _ _ => true
  | .pneg _ _ => true
  | .pldg _ => true
  | .pmul _ _ _ _ => true
  | _ => false

/-- The commands that report a verdict in `RESULT` and write no operand. -/
def verdictOnly : Instr → Bool
  | .pchk _ => true
  | .peq _ _ => true
  | .verify _ _ _ _ _ => true
  | _ => false

/-- A successful outcome sets `RESULT` only for the three verdict commands, which write nothing, and
writes `INF` only for a point result (10_state.md R27, R43). -/
theorem cmdOf_ok {i : Instr} {s : State} {e : Effect} (h : cmdOf i s = .ok e) :
    (e.res = true → verdictOnly i = true) ∧ (verdictOnly i = true → e.writes = []) ∧
      (pointResult i = false → ∀ j b, Write.inf j b ∉ e.writes) := by
  cases i <;>
    simp only [cmdOf, nopCmd, fredCmd, finvCmd, faddCmd, fsubCmd, fmulCmd, paddCmd, pdblCmd, pnegCmd,
      pchkCmd, peqCmd, pldgCmd, pmulCmd, pordCmd, htruncCmd, signCmd, verifyCmd, cmd_pure,
      cmd_bind_eq_ok, Except.ok.injEq] at h
  all_goals
    (repeat (obtain ⟨_, _, h⟩ := h))
    simp [verdictOnly, pointResult, verdict, writesV, writesPt]

/-- The commands that add points, each of which can meet an inverse that fails. -/
def addsPoints : Instr → Bool
  | .padd _ _ _ => true
  | .pdbl _ _ => true
  | .pmul _ _ _ _ => true
  | .pord _ _ => true
  | _ => false

/-- The early ends of a command (60_exceptions.md R181, R182). -/
inductive EarlyEnd (i : Instr) : Ending → Prop where
  | ecfg (k : Nibble) : i ≠ .nop → k ∈ [(1 : Nibble), 2, 3] → EarlyEnd i (.raise .ecfg k)
  | eoperand (j : PReg) : j ∈ pointOperands i →
      EarlyEnd i (.raise .eoperand (BitVec.ofNat 4 (j.val + 1)))
  | noInverse : (∃ m neg vd va, i = .finv m neg vd va) → EarlyEnd i (.raise .earith 1)
  | addFails : addsPoints i = true → EarlyEnd i (.raise .earith 2)
  | eretry (k : Nibble) : (∃ vd vh vkey vk, i = .sign vd vh vkey vk) →
      k ∈ [(1 : Nibble), 2, 3, 4, 5] → EarlyEnd i (.raise .eretry k)
  | elimit : (∃ vd pa, i = .pord vd pa) → EarlyEnd i (.raise .elimit 0)
  | reject (k : Nibble) : (∃ rovf sovf vh vr pq, i = .verify rovf sovf vh vr pq) →
      k ∈ [(1 : Nibble), 2, 3, 4, 5, 6, 7, 8, 9, 10, 11] → EarlyEnd i (.reject k)

/-- Every early end of a well-formed command is one of these. -/
theorem cmdOf_error {i : Instr} {s : State} {e : Ending} (hw : i.WellFormed)
    (h : cmdOf i s = .error e) : EarlyEnd i e := by
  have even : ∀ {r : VReg}, r.isEven = true → ¬ checkEven r = .error e := fun hr hc => by
    simp [checkEven_of_even hr] at hc
  have cfg : i ≠ .nop → checkCfg s = .error e → EarlyEnd i e := fun hi hc => by
    obtain ⟨k, hk, rfl⟩ := checkCfg_error hc
    exact .ecfg k hi hk
  have pt : ∀ j ∈ pointOperands i, checkPt s j = .error e → EarlyEnd i e := fun j hj hc => by
    rw [checkPt_error hc]
    exact .eoperand j hj
  have add : ∀ {o : Option Point}, addsPoints i = true →
      orElse o (raise .earith 2) = .error e → EarlyEnd i e := fun hi hc => by
    rw [(orElse_eq_error hc).2]
    exact .addFails hi
  cases i <;>
    simp only [cmdOf, nopCmd, fredCmd, finvCmd, faddCmd, fsubCmd, fmulCmd, paddCmd, pdblCmd, pnegCmd,
      pchkCmd, peqCmd, pldgCmd, pmulCmd, pordCmd, htruncCmd, signCmd, verifyCmd, cmd_pure,
      cmd_bind_eq_error, reduceCtorEq, and_false, exists_false, or_false] at h
  case fred => exact cfg (by simp) h
  case fadd => exact cfg (by simp) h
  case fsub => exact cfg (by simp) h
  case fmul => exact cfg (by simp) h
  case pldg => exact cfg (by simp) h
  case htrunc => exact cfg (by simp) h
  case finv =>
    rcases h with h | ⟨_, _, h⟩
    · exact cfg (by simp) h
    · rw [(orElse_eq_error h).2]
      exact .noInverse ⟨_, _, _, _, rfl⟩
  case padd pd pa pb =>
    rcases h with h | ⟨_, _, h | ⟨_, _, h | ⟨_, _, h⟩⟩⟩
    · exact cfg (by simp) h
    · exact pt pa (by simp [pointOperands]) h
    · exact pt pb (by simp [pointOperands]) h
    · exact add rfl h
  case pdbl pd pa =>
    rcases h with h | ⟨_, _, h | ⟨_, _, h⟩⟩
    · exact cfg (by simp) h
    · exact pt pa (by simp [pointOperands]) h
    · exact add rfl h
  case pmul neg pd pa vk =>
    rcases h with h | ⟨_, _, h | ⟨_, _, h⟩⟩
    · exact cfg (by simp) h
    · exact pt pa (by simp [pointOperands]) h
    · exact add rfl h
  case pord vd pa =>
    rcases h with h | ⟨_, _, h | ⟨_, _, h⟩⟩
    · exact cfg (by simp) h
    · exact pt pa (by simp [pointOperands]) h
    · rcases orderLoop_error h with rfl | rfl
      · exact .elimit ⟨_, _, rfl⟩
      · exact .addFails rfl
  case pneg pd pa =>
    rcases h with h | ⟨_, _, h⟩
    · exact cfg (by simp) h
    · exact pt pa (by simp [pointOperands]) h
  case pchk pa =>
    rcases h with h | ⟨_, _, h⟩
    · exact cfg (by simp) h
    · exact pt pa (by simp [pointOperands]) h
  case peq pa pb =>
    rcases h with h | ⟨_, _, h | ⟨_, _, h⟩⟩
    · exact cfg (by simp) h
    · exact pt pa (by simp [pointOperands]) h
    · exact pt pb (by simp [pointOperands]) h
  case sign vd vh vkey vk =>
    rcases h with h | ⟨_, _, h | ⟨_, _, h⟩⟩
    · exact absurd h (even (by simpa [Instr.WellFormed, Instr.wf] using hw))
    · exact cfg (by simp) h
    · obtain ⟨k, hk, rfl⟩ := sign_error h
      exact .eretry k ⟨_, _, _, _, rfl⟩ hk
  case verify rovf sovf vh vr pq =>
    rcases h with h | ⟨_, _, h | ⟨_, _, h⟩⟩
    · exact absurd h (even (by simpa [Instr.WellFormed, Instr.wf] using hw))
    · exact cfg (by simp) h
    · obtain ⟨k, hk, rfl⟩ := verify_error h
      exact .reject k ⟨_, _, _, _, _, rfl⟩ hk

end Sys2Proof.Machine
end

