-- ==== Sys2Proof/Laws/PerInstr.lean ====
section
/-! SUPPORT. The statements made per instruction: `EncodeRow`, that the word of a well-formed instruction
stands in its row of the match/mask table (30_encoding.md R89). -/

namespace Sys2Proof.Laws.EncodeRow

/-- The encoded word has an opcode of the table and passes that row's mask. -/
def Statement (i : Instr) : Prop :=
  i.WellFormed → ∃ row, rowOf (opcOf (encode i)) = some row ∧ encode i &&& row.mask = row.pattern

/-- A word passes the row whose mask and match are given by fields when each of its fields does. -/
theorem passes {opc : BitVec 6} {rd ra rb rc : BitVec 4} {fl : BitVec 10} {row : Row}
    (mrd mra mrb mrc : BitVec 4) (mfl : BitVec 10)
    (h : rowOf opc.toNat = some row)
    (hm : row.mask = packFields 0x3F mrd mra mrb mrc mfl)
    (hp : row.pattern = packFields opc 0 0 0 0 0)
    (h1 : rd &&& mrd = 0) (h2 : ra &&& mra = 0) (h3 : rb &&& mrb = 0) (h4 : rc &&& mrc = 0)
    (h5 : fl &&& mfl = 0) :
    ∃ r, rowOf (opcOf (packFields opc rd ra rb rc fl)) = some r ∧
      packFields opc rd ra rb rc fl &&& r.mask = r.pattern := by
  refine ⟨row, by rw [opcOf_packFields]; exact h, ?_⟩
  have e : ∀ o : BitVec 6, o &&& 0x3F = o := by decide
  rw [hm, hp, packFields_and, h1, h2, h3, h4, h5, e opc]

theorem vAny (r : VReg) : vBits r &&& 0 = 0 := by simp

theorem pAny (j : PReg) : pBits j &&& 8 = 0 := by
  revert j
  decide

theorem evenAny (r : VReg) (h : r.isEven = true) : vBits r &&& 1 = 0 := by
  revert r
  decide

theorem flagsM (m : Modulus) : m.flagM &&& 0x3FE = 0 := by cases m <;> decide

theorem flagsMN (m : Modulus) (neg : Bool) : (m.flagM ||| flagBit neg 1) &&& 0x3FC = 0 := by
  cases m <;> cases neg <;> decide

theorem flagsS (neg : Bool) : flagBit neg 2 &&& 0x3FB = 0 := by cases neg <;> decide

theorem flagsO (a b : Bool) : (flagBit a 3 ||| flagBit b 4) &&& 0x3E7 = 0 := by
  cases a <;> cases b <;> decide

theorem nop : Statement .nop := fun _ =>
  passes 0xF 0xF 0xF 0xF 0x3FF rfl (by decide) (by decide) rfl rfl rfl rfl rfl

theorem fred (m : Modulus) (neg : Bool) (vd va : VReg) : Statement (.fred m neg vd va) := fun _ =>
  passes 0 0 0xF 0xF 0x3FC rfl (by decide) (by decide) (vAny vd) (vAny va) rfl rfl (flagsMN m neg)

theorem finv (m : Modulus) (neg : Bool) (vd va : VReg) : Statement (.finv m neg vd va) := fun _ =>
  passes 0 0 0xF 0xF 0x3FC rfl (by decide) (by decide) (vAny vd) (vAny va) rfl rfl (flagsMN m neg)

theorem fadd (m : Modulus) (vd va vb : VReg) : Statement (.fadd m vd va vb) := fun _ =>
  passes 0 0 0 0xF 0x3FE rfl (by decide) (by decide) (vAny vd) (vAny va) (vAny vb) rfl (flagsM m)

theorem fsub (m : Modulus) (vd va vb : VReg) : Statement (.fsub m vd va vb) := fun _ =>
  passes 0 0 0 0xF 0x3FE rfl (by decide) (by decide) (vAny vd) (vAny va) (vAny vb) rfl (flagsM m)

theorem fmul (m : Modulus) (vd va vb : VReg) : Statement (.fmul m vd va vb) := fun _ =>
  passes 0 0 0 0xF 0x3FE rfl (by decide) (by decide) (vAny vd) (vAny va) (vAny vb) rfl (flagsM m)

theorem padd (pd pa pb : PReg) : Statement (.padd pd pa pb) := fun _ =>
  passes 8 8 8 0xF 0x3FF rfl (by decide) (by decide) (pAny pd) (pAny pa) (pAny pb) rfl rfl

theorem pdbl (pd pa : PReg) : Statement (.pdbl pd pa) := fun _ =>
  passes 8 8 0xF 0xF 0x3FF rfl (by decide) (by decide) (pAny pd) (pAny pa) rfl rfl rfl

theorem pneg (pd pa : PReg) : Statement (.pneg pd pa) := fun _ =>
  passes 8 8 0xF 0xF 0x3FF rfl (by decide) (by decide) (pAny pd) (pAny pa) rfl rfl rfl

theorem pchk (pa : PReg) : Statement (.pchk pa) := fun _ =>
  passes 0xF 8 0xF 0xF 0x3FF rfl (by decide) (by decide) rfl (pAny pa) rfl rfl rfl

theorem peq (pa pb : PReg) : Statement (.peq pa pb) := fun _ =>
  passes 0xF 8 8 0xF 0x3FF rfl (by decide) (by decide) rfl (pAny pa) (pAny pb) rfl rfl

theorem pldg (pd : PReg) : Statement (.pldg pd) := fun _ =>
  passes 8 0xF 0xF 0xF 0x3FF rfl (by decide) (by decide) (pAny pd) rfl rfl rfl rfl

theorem pmul (neg : Bool) (pd pa : PReg) (vk : VReg) : Statement (.pmul neg pd pa vk) := fun _ =>
  passes 8 8 0 0xF 0x3FB rfl (by decide) (by decide) (pAny pd) (pAny pa) (vAny vk) rfl (flagsS neg)

theorem pord (vd : VReg) (pa : PReg) : Statement (.pord vd pa) := fun _ =>
  passes 0 8 0xF 0xF 0x3FF rfl (by decide) (by decide) (vAny vd) (pAny pa) rfl rfl rfl

theorem htrunc (vd vh : VReg) : Statement (.htrunc vd vh) := fun _ =>
  passes 0 0 0xF 0xF 0x3FF rfl (by decide) (by decide) (vAny vd) (vAny vh) rfl rfl rfl

theorem sign (vd vh vkey vk : VReg) : Statement (.sign vd vh vkey vk) := fun h =>
  passes 1 0 0 0 0x3FF rfl (by decide) (by decide) (evenAny vd h) (vAny vh) (vAny vkey) (vAny vk) rfl

theorem verify (rovf sovf : Bool) (vh vr : VReg) (pq : PReg) :
    Statement (.verify rovf sovf vh vr pq) := fun h =>
  passes 0xF 0 1 8 0x3E7 rfl (by decide) (by decide) rfl (vAny vh) (evenAny vr h) (pAny pq)
    (flagsO rovf sovf)

end Sys2Proof.Laws.EncodeRow
end

