-- ==== Sys2Proof/Laws/Step.lean ====
section
/-! SUPPORT. What one step can do (20_memory.md R69, 70_reset_and_hazards.md R226). -/

namespace Sys2Proof.Machine

/-- The outcome of the running command word, legal or not (30_encoding.md R86, R87; 10_state.md R53). -/
def runningOutcome (s : State) : Cmd Effect :=
  match decode s.cmdreg with
  | .ok i => cmdOf i s
  | .error e => .error (.raise .eillegal e.info)

/-- The engine's step on a running command is the completion of its outcome. -/
theorem engineStep_busy {s : State} (h : s.busy = true) :
    engineStep s = .next (s.complete (runningOutcome s)) := by
  unfold engineStep runningOutcome
  rw [if_pos h]
  cases decode s.cmdreg with
  | ok i => exact exec_eq_complete i s
  | error e => rfl

theorem engineStep_idle {s : State} (h : s.busy = false) : engineStep s = .next s := by
  simp [engineStep, h]

/-- The engine takes the step: it is scheduled, or nothing is. `rest` is what is left to come. -/
def EngineNext (s : State) (rest : List Event) : Prop :=
  s.events = .engine :: rest ∨ (s.events = [] ∧ rest = [])

/-- Everything a step can do, by the next event. -/
inductive StepCase (s : State) : State → Prop where
  | completes (rest : List Event) : EngineNext s rest → s.busy = true →
      StepCase s (({ s with events := rest } : State).complete
        (runningOutcome { s with events := rest }))
  | idle (rest : List Event) : EngineNext s rest → s.busy = false →
      StepCase s { s with events := rest }
  | read (addr : Nat) (width : AccessWidth) (rest : List Event) :
      s.events = .read addr width :: rest →
      StepCase s (hostRead { s with events := rest } addr width)
  | write (addr : Nat) (width : AccessWidth) (v : Word) (rest : List Event) :
      s.events = .write addr width v :: rest →
      StepCase s (hostWrite { s with events := rest } addr width v)
  | reset (rest : List Event) : s.events = .reset :: rest →
      StepCase s ({ s with events := rest } : State).resetEvent

/-- The engine's step, scheduled or not. -/
theorem step_of_engineNext {s : State} {rest : List Event} (h : EngineNext s rest) :
    step s = engineStep { s with events := rest } := by
  rcases h with h | ⟨h, rfl⟩
  · simp [step, h, handle]
  · have e : ({ s with events := [] } : State) = s := by
      cases s
      simp_all
    rw [e]
    simp [step, h]

/-- Inversion of a step. -/
theorem step_inv {s t : State} (h : step s = .next t) : StepCase s t := by
  have engine : ∀ rest, EngineNext s rest → StepCase s t := by
    intro rest hn
    rw [step_of_engineNext hn] at h
    cases hb : s.busy with
    | true =>
      rw [engineStep_busy (s := { s with events := rest }) hb] at h
      exact Host.Outcome.next.inj h ▸ .completes rest hn hb
    | false =>
      rw [engineStep_idle (s := { s with events := rest }) hb] at h
      exact Host.Outcome.next.inj h ▸ .idle rest hn hb
  cases he : s.events with
  | nil => exact engine [] (.inr ⟨he, rfl⟩)
  | cons e rest =>
    unfold step at h
    rw [he] at h
    cases e with
    | engine => exact engine rest (.inl he)
    | read addr width => exact Host.Outcome.next.inj h ▸ .read addr width rest he
    | write addr width v => exact Host.Outcome.next.inj h ▸ .write addr width v rest he
    | reset => exact Host.Outcome.next.inj h ▸ .reset rest he

end Sys2Proof.Machine
end

