-- ==== Sys2Proof/Tests/Slice0.lean ====
section
/-! SUPPORT. Tests of the model, with the expected values of 95_test_vectors.md and words written out from
30_encoding.md, and a witness for the hypotheses of each statement of Obligations.lean. -/

namespace Sys2Proof.Tests

open Sys2Proof Sys2Proof.Machine

/-! ### Helpers -/

/-- `T67` (95_test_vectors.md §2.2). -/
def t67 : Curve := ⟨0, 0, 7, 67, 2, 22, 79⟩

/-- `T13` (95_test_vectors.md §2.2). -/
def t13 : Curve := ⟨0, 0, 7, 13, 8, 5, 7⟩

/-- A composite modulus of 95_test_vectors.md §2.2, with base point and scalar modulus. -/
def t15 (gx gy n : Val) : Curve := ⟨0, 0, 7, 15, gx, gy, n⟩

/-- The digest of `alice.txt` (95_test_vectors.md §2.3). -/
def ha : Val := 0x104107708d31518ec8631b3dbbdc45ca8dbd9509afcaaeb0e94e7260d3caf069

/-- The digest of `bob.txt` (95_test_vectors.md §2.3). -/
def hb : Val := 0xeec1606778308ca76c713700ea63f86c70410790440c7a881df0fdc52f920411

/-- The block after reset with a curve, `INF` and some operand registers loaded. -/
def loaded (c : Curve) (inf : BitVec 8) (vals : List (VReg × Val)) : State :=
  vals.foldl (fun s e => s.writeV e.1 e.2) { State.reset with cur := c, inf := inf }

/-- One view of the state that the command `w` leaves. -/
def after {α : Type} (s : State) (w : Nat) (view : State → α) : Option α :=
  match step (s.withFetchWord 32 w) with
  | .next t => some (view t)
  | _ => none

/-- The register with number `i` and the STATUS word. -/
def vView (i : VReg) (t : State) : Val × Word := (t.readV i, t.statusWord)

/-- Point register `j` and the STATUS word. -/
def pView (j : PReg) (t : State) : Point × Word := (t.readPt j, t.statusWord)

/-- The STATUS word and ERRINFO. -/
def report (t : State) : Word × Nibble := (t.statusWord, t.errinfo)

/-! ### WellFormed refuses an odd `e` operand -/

theorem test_wf_sign_odd : (Instr.sign 5 1 2 3).wf = false := by decide
theorem test_wf_sign_even : (Instr.sign 4 1 3 5).wf = true := by decide
theorem test_wf_verify_odd : (Instr.verify false false 6 5 0).wf = false := by decide
theorem test_wf_verify_even : (Instr.verify true false 7 4 7).wf = true := by decide

/-! ### Decoding, bit by bit: OPC, RD, RA, RB, RC, FL (30_encoding.md R81, R84) -/

theorem test_decode_nop : decode 0b000000_0000_0000_0000_0000_0000000000 = .ok .nop := by decide
theorem test_decode_fred :
    decode 0b000001_0111_1001_0000_0000_0000000011 = .ok (.fred .n true 7 9) := by decide
theorem test_decode_finv :
    decode 0b000010_1111_0001_0000_0000_0000000010 = .ok (.finv .p true 15 1) := by decide
theorem test_decode_fadd :
    decode 0b000011_0001_0010_0100_0000_0000000000 = .ok (.fadd .p 1 2 4) := by decide
theorem test_decode_fsub :
    decode 0b000100_1010_1000_1001_0000_0000000001 = .ok (.fsub .n 10 8 9) := by decide
theorem test_decode_fmul :
    decode 0b000101_0011_1100_1110_0000_0000000001 = .ok (.fmul .n 3 12 14) := by decide
theorem test_decode_padd :
    decode 0b001000_0100_0010_0011_0000_0000000000 = .ok (.padd 4 2 3) := by decide
theorem test_decode_pdbl :
    decode 0b001001_0001_0110_0000_0000_0000000000 = .ok (.pdbl 1 6) := by decide
theorem test_decode_pneg :
    decode 0b001010_0101_0111_0000_0000_0000000000 = .ok (.pneg 5 7) := by decide
theorem test_decode_pchk :
    decode 0b001011_0000_0101_0000_0000_0000000000 = .ok (.pchk 5) := by decide
theorem test_decode_peq :
    decode 0b001100_0000_0011_0110_0000_0000000000 = .ok (.peq 3 6) := by decide
theorem test_decode_pldg :
    decode 0b001101_0110_0000_0000_0000_0000000000 = .ok (.pldg 6) := by decide
theorem test_decode_pmul :
    decode 0b010000_0001_0010_1100_0000_0000000100 = .ok (.pmul true 1 2 12) := by decide
theorem test_decode_pord :
    decode 0b010001_1101_0100_0000_0000_0000000000 = .ok (.pord 13 4) := by decide
theorem test_decode_htrunc :
    decode 0b011000_0101_1011_0000_0000_0000000000 = .ok (.htrunc 5 11) := by decide
theorem test_decode_sign :
    decode 0b011001_0100_0001_0010_0011_0000000000 = .ok (.sign 4 1 2 3) := by decide
theorem test_decode_verify :
    decode 0b011010_0000_0110_0100_0101_0000001000 = .ok (.verify true false 6 4 5) := by decide
theorem test_decode_verify_sovf :
    decode 0b011010_0000_0110_0100_0101_0000010000 = .ok (.verify false true 6 4 5) := by decide

/-- One broken field for each kind of field (30_encoding.md R87): a set bit in an unused field, a point
register above 7, an odd `e` register, a flag that is not allowed. -/
theorem test_decode_broken_fields :
    decode 0b000011_0001_0010_0100_0001_0000000000 = .error .fieldConstraint ∧
    decode 0b001000_1000_0010_0011_0000_0000000000 = .error .fieldConstraint ∧
    decode 0b011001_0101_0001_0010_0011_0000000000 = .error .fieldConstraint ∧
    decode 0b000011_0001_0010_0100_0000_0000000010 = .error .fieldConstraint := by decide

theorem test_decode_table_word : decodeTableWord 32 0x12A24001 = some (.fsub .n 10 8 9) := by decide

/-! ### Commands (95_test_vectors.md §3 to §7) -/

theorem test_nop : after (loaded t67 0 [(3, 5)]) 0x00000000 (vView 3) = some (5, 2) := by decide

theorem test_fred_neg : after (loaded t67 0 [(1, 5)]) 0x04040003 (vView 0) = some (74, 2) := by decide
theorem test_fred_secp : after (loaded Curve.secp256k1 0 [(1, BitVec.allOnes 256)]) 0x04040000 (vView 0)
    = some (0x1000003d0, 2) := by decide

theorem test_finv : after (loaded t67 0 [(1, 10)]) 0x08040000 (vView 0) = some (47, 2) := by decide
theorem test_finv_composite :
    after (loaded (t15 1 3 79) 0 [(1, 3)]) 0x08040000 report = some (0x406, 1) := by decide

theorem test_fadd : after (loaded t67 0 [(1, 60), (2, 10)]) 0x0c048000 (vView 0) = some (3, 2) := by
  decide
theorem test_fadd_same : after (loaded Curve.secp256k1 0 [(1, 5)]) 0x0c444000 (vView 1)
    = some (10, 2) := by decide

theorem test_fsub : after (loaded t67 0 [(1, 3), (2, 10)]) 0x10048000 (vView 0) = some (60, 2) := by
  decide

theorem test_fmul : after (loaded t67 0 [(1, 10), (2, 20)]) 0x14048000 (vView 0) = some (66, 2) := by
  decide

theorem test_padd : after (loaded t67 0 [(0, 2), (1, 22), (2, 52), (3, 7)]) 0x20840000 (pView 2)
    = some (.affine 62 63, 2) := by decide
theorem test_padd_vertical : after (loaded t67 0 [(0, 2), (1, 22), (2, 2), (3, 10)]) 0x20804000
    (fun t => (t.readPt 2, t.inf, t.readV 4)) = some (.infinity, 4, 0) := by decide

theorem test_pdbl : after (loaded t67 0 [(0, 2), (1, 22)]) 0x24400000 (pView 1)
    = some (.affine 52 7, 2) := by decide
theorem test_pdbl_flat : after (loaded t67 0 [(0, 5)]) 0x24400000 (pView 1)
    = some (.infinity, 2) := by decide

theorem test_pneg : after (loaded t67 0 [(0, 5)]) 0x28400000 (pView 1)
    = some (.affine 5 0, 2) := by decide

theorem test_pchk : after (loaded t67 0 [(0, 55), (1, 17)]) 0x2c000000 report = some (0xa, 0) := by
  decide
theorem test_pchk_range : after (loaded t67 0 [(2, 67)]) 0x2c040000 report = some (0x306, 2) := by
  decide

theorem test_peq_infinity : after (loaded t67 3 [(0, 1)]) 0x30004000 report = some (0xa, 0) := by
  decide
theorem test_peq_differ : after (loaded t67 2 [(0, 2), (1, 22)]) 0x30004000 report
    = some (0x2, 0) := by decide

theorem test_pldg : after (loaded t67 1 []) 0x34000000 (pView 0) = some (.affine 2 22, 2) := by decide

theorem test_pmul : after (loaded t67 0 [(0, 2), (1, 22), (4, 29)]) 0x40410000 (pView 1)
    = some (.affine 63 12, 2) := by decide
theorem test_pmul_neg : after (loaded t67 0 [(0, 2), (1, 22), (4, 29)]) 0x40410004 (pView 1)
    = some (.affine 63 55, 2) := by decide

theorem test_pord : after (loaded t67 0 [(0, 5)]) 0x45000000 (vView 4) = some (2, 2) := by decide
theorem test_pord_infinity : after (loaded t67 1 []) 0x45000000 (vView 4) = some (1, 2) := by decide

theorem test_htrunc : after (loaded t67 0 [(1, ha)]) 0x60040000 (vView 0) = some (4, 2) := by decide

theorem test_sign : after (loaded t67 0 [(1, ha), (2, 29), (3, 11)]) 0x65048c00
    (fun t => (t.readV 4, t.readV 5, t.statusWord)) = some (24, 78, 2) := by decide
theorem test_sign_retry : after (loaded t13 0 [(1, ha), (2, 3), (3, 3)]) 0x65048c00 report
    = some (0x506, 4) := by decide

theorem test_verify : after (loaded t67 0 [(0, 63), (1, 12), (4, 24), (5, 78), (6, ha)]) 0x68190000
    report = some (0xa, 0) := by decide
theorem test_verify_reject : after (loaded t67 0 [(0, 63), (1, 12), (4, 24), (5, 78), (6, hb)])
    0x68190000 report = some (0x2, 11) := by decide

theorem test_cfg : after (loaded { t67 with p := 1 } 0 []) 0x0c048000 report = some (0x206, 1) := by
  decide
theorem test_illegal_word : after (loaded t67 0 []) 0x68194000 report = some (0x106, 2) := by decide
theorem test_undefined_word : after (loaded t67 0 []) 0x18000000 report = some (0x106, 1) := by decide

/-! ### The register window (95_test_vectors.md §8; 10_state.md R28-R39) -/

theorem test_read_p_word0 : busRead State.reset 0x360 = 0xFFFFFC2F := by decide
theorem test_read_digest_words :
    busRead (loaded t67 0 [(10, ha)]) 0x240 = 0xd3caf069 ∧
    busRead (loaded t67 0 [(10, ha)]) 0x25C = 0x10410770 := by decide
theorem test_cmd_while_busy :
    (busWrite (busWrite State.reset 0x00C 0x34000000) 0x00C 0).statusWord = 0x21 := by decide
theorem test_operand_write_while_busy :
    (busWrite (busWrite State.reset 0x00C 0) 0x100 7).statusWord = 0x41 := by decide
theorem test_sealed_write :
    (busWrite (busWrite State.reset 0x004 2) 0x300 7).statusWord = 0x50 := by decide
theorem test_abort :
    report (busWrite (busWrite State.reset 0x00C 0) 0x004 4) = (0x706, 0) := by decide

/-- The source's assembler example (30_encoding.md R90). -/
theorem test_assemble : assemble "FSUB.n v10, v8, v9".toList = some [0x12A24001] := by decide

/-- Only the names of 10_state.md R23 name a register, and a number has a digit (00_scope.md R7). -/
theorem test_assemble_refuses :
    assemble "PCHK p8".toList = none ∧ assemble "PCHK p_".toList = none ∧
    assemble "PORD v05, p0".toList = none ∧ assemble "PORD v16, p0".toList = none ∧
    parseNumber "0x_".toList = none ∧ parseNumber "1_000".toList = some 1000 := by decide

/-- A JIF to a label that no line marks makes its read, and goes on where its condition is false
(30_encoding.md R92). STATUS at reset is 0 (10_state.md R31). -/
theorem test_jif_unknown_label :
    ((parseScript ["JIF 0x008, 1, 1, gone".toList, "READ 0x000".toList]).map
      (fun script => (runScript (lower script) [false] ⟨0, []⟩ State.reset).1.pc)) = some 1 ∧
    ((parseScript ["JIF 0x008, 1, 0, gone".toList, "READ 0x000".toList]).map
      (fun script => (runScript (lower script) [false, false] ⟨0, []⟩ State.reset).1)) =
        some ⟨2, []⟩ := by decide

/-- `TRUNC_MODE = INTEGER_BITLEN` on T67 (95_test_vectors.md §6.1). -/
theorem test_trunc_integer_bitlen :
    trunc .integerBitlen 79 ha.toNat = 32 ∧ trunc .digestWidth 79 ha.toNat = 4 := by decide

/-- A host read and a host write, each the next event of a step. -/
theorem test_step_host_access :
    (match step { State.reset with events := [.write 0x104 .w32 9, .read 0x104 .w32] } with
      | .next t => (match step t with
        | .next u => some (t.response, u.response)
        | _ => none)
      | _ => none) = some (.writeDone, .readData 9) := by decide

/-! ### Witnesses: for each statement with hypotheses, a state and operands that meet them -/

/-- A block that runs the word `w`, with these events to come. -/
def running (s : State) (w : Word) (events : List Event) : State := { s.accept w with events := events }

/-- A sealed block to which the host writes a curve register. -/
def sealedWrite : State := { State.reset with sealed := true, events := [.write 0x300 .w32 5] }

theorem witness_DecodeOfEncode :
    (Instr.sign 14 15 0 13).WellFormed ∧ (Instr.verify true true 15 14 7).WellFormed := by decide

theorem witness_EncodeOfDecode : decode 0x65048c00 = .ok (.sign 4 1 2 3) := by decide

theorem witness_DecodeIsTheMatchMaskTable :
    rowOf (opcOf 0x18000000) = none ∧
    rowOf (opcOf 0x04000004) = some ⟨0x04000000, 0xFC03FFFC⟩ ∧
    (0x04000004 : Word) &&& 0xFC03FFFC ≠ 0x04000000 ∧
    rowOf (opcOf 0x07FC0003) = some ⟨0x04000000, 0xFC03FFFC⟩ ∧
    (0x07FC0003 : Word) &&& 0xFC03FFFC = 0x04000000 := by decide

theorem witness_IllegalExactlyOnBrokenField :
    shapeOf (opcOf 0x12A24001) = some ⟨.v, .v, .v, .unused, 0x1⟩ ∧
    shapeOf (opcOf 0x12A24002) = some ⟨.v, .v, .v, .unused, 0x1⟩ := by decide

theorem witness_UndefinedOpcodeCompletesIllegal :
    State.reset.busy = false ∧
    opcOf 0x1BFFFFFF ∈ [0x06, 0x07, 0x0E, 0x0F, 0x12, 0x13, 0x14, 0x15, 0x16, 0x17] ∧
    0x1B ≤ opcOf 0x6C000000 ∧ 0x1B ≤ opcOf 0xFFFFFFFF := by decide

theorem witness_StepPerformsTheNextEvent :
    (running State.reset 0x34000000 [.engine, .reset]).busy = true ∧
    decode (running State.reset 0x34000000 [.engine, .reset]).cmdreg = .ok (.pldg 0) ∧
    (running State.reset 0x34000000 [.engine, .reset]).events = .engine :: [.reset] ∧
    (running State.reset 0x34000000 []).events = [] ∧
    (running State.reset 0 [.read 0xFFC .w32]).events = .read 0xFFC .w32 :: [] ∧
    sealedWrite.events = .write 0x300 .w32 5 :: [] ∧
    0xFFC < 0x1000 ∧ 0xFFC % 4 = 0 := by decide

theorem witness_IllegalWordCompletes :
    (running State.reset 0x18000000 [.engine]).busy = true ∧
    decode (running State.reset 0x18000000 [.engine]).cmdreg = .error .undefinedOpcode ∧
    (running State.reset 0x18000000 [.engine]).events = .engine :: [] ∧
    decode (running State.reset 0x00000001 []).cmdreg = .error .fieldConstraint ∧
    (running State.reset 0x00000001 []).events = [] := by decide

theorem witness_ResetEventRestoresTheBlock :
    (running State.reset 0x34000000 [.reset]).events = .reset :: [] := by decide

/-- A running block meets the invariant, and its step answers a next state. -/
theorem witness_StepKeepsReportInvariant :
    (running State.reset 0x34000000 []).ReportInv ∧ ∃ t, step (running State.reset 0x34000000 []) = .next t :=
  ⟨⟨by decide, by decide, by decide, by decide, by decide⟩, ⟨_, rfl⟩⟩

theorem witness_SealedCurveChangesOnlyAtReset :
    sealedWrite.sealed = true ∧ (∀ rest, sealedWrite.events ≠ .reset :: rest) ∧
      ∃ t, step sealedWrite = .next t :=
  ⟨by decide, fun _ h => by simp [sealedWrite] at h, ⟨_, rfl⟩⟩

theorem witness_ReadsThenCompletion :
    (running State.reset 0 [.read 8 .w32, .read 9 .w8]).busy = true ∧
      ∀ e ∈ (running State.reset 0 [.read 8 .w32, .read 9 .w8]).events,
        ∃ addr width, e = .read addr width :=
  ⟨by decide, by simp [running]⟩

theorem witness_ErrorsWriteNothing :
    ∃ t, exec (.finv .p false 0 1) (loaded t67 0 []) = .next t ∧ t.err = true :=
  ⟨_, rfl, by decide⟩

theorem witness_OnlyPointResultsChangeInf :
    ∃ t, exec (.pldg 0) (loaded t67 1 []) = .next t ∧ t.inf ≠ (loaded t67 1 []).inf :=
  ⟨_, rfl, by decide⟩

/-- A command that reports the code `k`. -/
def ReportsCode (i : Instr) (s : State) (k : Nibble) : Prop :=
  i.WellFormed ∧ ∃ t, exec i s = .next t ∧ t.errcode = k

theorem witness_ReportsByCommand_ecfg :
    ReportsCode (.fadd .p 0 1 2) (loaded { t67 with n := 1 } 0 []) 2 := ⟨rfl, _, rfl, by decide⟩

theorem witness_ReportsByCommand_eoperand :
    ReportsCode (.pchk 7) (loaded t67 0 [(15, 67)]) 3 := ⟨rfl, _, rfl, by decide⟩

theorem witness_ReportsByCommand_earith :
    ReportsCode (.finv .n false 0 1) (loaded t67 0 [(1, 79)]) 4 := ⟨rfl, _, rfl, by decide⟩

theorem witness_ReportsByCommand_eretry :
    ReportsCode (.sign 4 1 2 3) (loaded t67 0 [(2, 29)]) 5 := ⟨rfl, _, rfl, by decide⟩

theorem witness_ReportsByCommand_no_pord :
    ReportsCode .nop State.reset 0 ∧ ∀ vd pa, Instr.nop ≠ .pord vd pa :=
  ⟨⟨rfl, _, rfl, by decide⟩, fun _ _ h => Instr.noConfusion h⟩

theorem witness_ReportsByCommand_result :
    ∃ t, exec (.peq 0 1) (loaded t67 3 []) = .next t ∧ t.result = true := ⟨_, rfl, by decide⟩

/-- Two blocks that agree on the inputs and differ in `SEALED` and in what is scheduled. -/
def unsealedInputs : State := State.reset.writeInf 0 true

def sealedInputs : State := sealedWrite.writeInf 0 true

theorem witness_OutcomeDependsOnInputsOnly :
    unsealedInputs.v = sealedInputs.v ∧ unsealedInputs.inf = sealedInputs.inf ∧
      unsealedInputs.cur = sealedInputs.cur ∧
      unsealedInputs.cfg.truncMode = sealedInputs.cfg.truncMode ∧ unsealedInputs ≠ sealedInputs ∧
      (∃ t, exec (.pldg 0) unsealedInputs = .next t) ∧ ∃ t, exec (.pldg 0) sealedInputs = .next t :=
  ⟨by decide, by decide, by decide, by decide, by decide, ⟨_, rfl⟩, ⟨_, rfl⟩⟩

theorem witness_ConfigurationErrors :
    (Instr.pldg 0).WellFormed ∧ Instr.pldg 0 ≠ .nop ∧
    (loaded { t67 with p := 1 } 0 []).cur.p.toNat < 2 ∧
    2 ≤ (loaded { t67 with p := 2, n := 1 } 0 []).cur.p.toNat ∧
    (loaded { t67 with p := 2, n := 1 } 0 []).cur.n.toNat < 2 ∧
    2 ≤ (loaded { t67 with gx := 67 } 0 []).cur.p.toNat ∧
    2 ≤ (loaded { t67 with gx := 67 } 0 []).cur.n.toNat ∧
    (loaded { t67 with gx := 67 } 0 []).cur.p.toNat ≤ (loaded { t67 with gx := 67 } 0 []).cur.gx.toNat ∧
    (loaded { t67 with gy := 67 } 0 []).cur.p.toNat ≤ (loaded { t67 with gy := 67 } 0 []).cur.gy.toNat := by
  decide

/-- The second point operand is out of range and the first is in range. -/
theorem witness_PointOperandErrors :
    (loaded t67 0 [(15, 67)]).cur.Ok ∧ pointOperands (.padd 0 1 7) = [1] ++ 7 :: [] ∧
      (∀ k ∈ [(1 : PReg)], (loaded t67 0 [(15, 67)]).PtOk k) ∧ ¬ (loaded t67 0 [(15, 67)]).PtOk 7 := by
  decide

theorem witness_usable_configuration :
    State.reset.cur.Ok ∧ (loaded t67 0 []).cur.Ok ∧
      (loaded ⟨0, 0, 0, 2, 1, 1, 2⟩ 0 []).cur.Ok := by decide

theorem witness_FredResult : (loaded t67 0 [(1, 5)]).cur.Ok := by decide

theorem witness_SumDifferenceProductResults : (loaded t67 0 [(1, 60), (2, 10)]).cur.Ok := by decide

theorem witness_FinvResult :
    (loaded t67 0 [(1, 10)]).cur.Ok ∧
    Int.gcd ((loaded t67 0 [(1, 10)]).readV 1).toNat ((loaded t67 0 [(1, 10)]).cur.modulus .p) = 1 ∧
    Int.gcd (-((loaded t67 0 [(1, 79)]).readV 1).toNat) ((loaded t67 0 [(1, 79)]).cur.modulus .n) ≠ 1 := by
  decide

theorem witness_InverseContract :
    2 ≤ 2 ∧ Nat.Prime 2 ∧ Nat.Prime 67 ∧ (134 : Int) % 67 = 0 ∧ (-1 : Int) % 67 ≠ 0 := by norm_num

/-- A value for each clause: vertical, flat, a tangent and a chord whose slope has no inverse, and a
tangent (`λ = 49`) and a chord (`λ = 2`) that have one. -/
theorem witness_AddFollowsTheFormulas :
    2 ≤ t67.p.toNat ∧ 2 ≤ (t15 1 3 79).p.toNat ∧
    (66 < t67.p.toNat ∧ (66 : Nat) ≠ 0) ∧
    ((3 : Nat) ≠ 0 ∧ Int.gcd (2 * 3) (t15 1 3 79).p.toNat ≠ 1) ∧
    ((1 : Nat) ≠ 4 ∧ Int.gcd (4 - 1) (t15 1 3 79).p.toNat ≠ 1) ∧
    ((22 : Nat) ≠ 0 ∧ Int.gcd (2 * 22) t67.p.toNat = 1 ∧
      (2 * 22 * 49 - (3 * 2 ^ 2 + 0) : Int) % 67 = 0) ∧
    ((1 : Nat) ≠ 2 ∧ Int.gcd (2 - 1) t67.p.toNat = 1 ∧ ((2 - 1) * 2 - (3 - 1) : Int) % 67 = 0) := by
  decide

theorem t67_p_prime : t67.p.toNat.Prime := by
  show Nat.Prime 67
  norm_num

theorem t67_n_prime : t67.n.toNat.Prime := by
  show Nat.Prime 79
  norm_num

theorem witness_AddTotalWithInverses :
    t67.p.toNat.Prime ∧ t67.p.toNat ≠ 2 ∧ (Point.affine 66 0).InRange t67.p.toNat ∧
      Point.infinity.InRange t67.p.toNat :=
  ⟨t67_p_prime, by decide, by unfold Point.InRange; decide, trivial⟩

theorem witness_AddClosedOnCurve :
    t67.p.toNat.Prime ∧ t67.p.toNat ≠ 2 ∧ (Point.affine 2 22).InRange t67.p.toNat ∧
      (Point.affine 52 7).InRange t67.p.toNat ∧ t67.contains (.affine 2 22) = true ∧
      t67.contains (.affine 52 7) = true :=
  ⟨t67_p_prime, by decide, by unfold Point.InRange; decide, by unfold Point.InRange; decide,
    by decide, by decide⟩

/-- Two point registers of T67, and two of a composite modulus whose sum and double fail. -/
def pts67 : State := loaded t67 0 [(0, 2), (1, 22), (2, 52), (3, 7)]

def pts15 : State := loaded (t15 1 3 79) 0 [(0, 8), (1, 3), (2, 5), (3, 1)]

theorem witness_PaddPdblResults :
    pts67.cur.Ok ∧ pts67.PtOk 0 ∧ pts67.PtOk 1 ∧
    pts67.cur.add (pts67.readPt 0) (pts67.readPt 1) = some (.affine 62 63) ∧
    pts67.cur.add (pts67.readPt 0) (pts67.readPt 0) = some (.affine 52 7) ∧
    pts15.cur.Ok ∧ pts15.PtOk 0 ∧ pts15.PtOk 1 ∧
    pts15.cur.add (pts15.readPt 0) (pts15.readPt 1) = none ∧
    pts15.cur.add (pts15.readPt 0) (pts15.readPt 0) = none ∧
    (loaded t67 0xFF []).PtOk 0 ∧
    t67.add ((loaded t67 0xFF []).readPt 0) ((loaded t67 0xFF []).readPt 1) = some .infinity := by decide

theorem witness_PnegPldgResults :
    pts67.cur.Ok ∧ pts67.PtOk 0 ∧ pts67.readInf 0 = false ∧ (loaded t67 0x80 []).cur.Ok ∧
      (loaded t67 0x80 []).PtOk 7 ∧ (loaded t67 0x80 []).readInf 7 = true := by decide

theorem witness_PchkPeqResults : pts67.cur.Ok ∧ pts67.PtOk 0 ∧ pts67.PtOk 1 := by decide

theorem witness_SmulIsTheBinaryLoop : (-29 : Int) < 0 ∧ 0 < 1 ∧ 0 < 79 := by decide

theorem witness_SmulNeverFailsOnOddPrime :
    t67.p.toNat.Prime ∧ t67.p.toNat ≠ 2 ∧ (Point.affine 66 66).InRange t67.p.toNat :=
  ⟨t67_p_prime, by decide, by unfold Point.InRange; decide⟩

theorem witness_PmulResult :
    pts67.cur.Ok ∧ pts67.PtOk 0 ∧ pts67.cur.smul (pts67.readPt 0) (-29) = some (.affine 63 55) ∧
    pts67.cur.smul (pts67.readPt 0) 79 = some .infinity ∧
    pts15.cur.Ok ∧ pts15.PtOk 0 ∧ pts15.cur.smul (pts15.readPt 0) 2 = none := by decide

/-- `ORD_LIMIT` 79 and 78 on T67, as in 95_test_vectors.md §5.2, and a failing addition. -/
theorem witness_OrderIsTheFirstInfinity :
    1 ≤ 1 ∧ t67.order 79 (.affine 2 22) = .ok 79 ∧ t67.order 78 (.affine 2 22) = .error (.raise .elimit 0) ∧
      (t15 1 3 79).order 9 (.affine 8 3) = .error (.raise .earith 2) := by decide

theorem witness_PordResult :
    (loaded t67 0 [(0, 5)]).cur.Ok ∧ (loaded t67 0 [(0, 5)]).PtOk 0 ∧
    t67.multiple ((loaded t67 0 [(0, 5)]).readPt 0) 2 = some .infinity ∧
    t67.multiple ((loaded t67 0 [(0, 5)]).readPt 0) 1 = some (.affine 5 0) ∧
    pts15.cur.Ok ∧ pts15.PtOk 0 := by decide

theorem witness_PordResult_error :
    pts15.cur.order (2 ^ 256 - 1) (pts15.readPt 0) = .error (.raise .earith 2) := by
  rw [show (2 ^ 256 - 1 : Nat) = (2 ^ 256 - 3) + 1 + 1 from rfl]
  decide

theorem witness_TruncationContract :
    2 ≤ 2 ∧ 2 < 2 ^ 256 ∧ 0 < 2 ^ 256 ∧ 1 < 2 ^ (bitlen 2 - 1) ∧ 2 ^ 256 - 1 < 2 ^ 256 ∧
      2 ^ (bitlen 2 - 1) ≤ 2 ∧ 2 ^ (bitlen 79 - 1) ≤ 2 ^ 254 ∧
      2 ^ 255 ≤ 2 ^ 256 - 1 := by decide

theorem witness_HtruncResult : (loaded t67 0 [(1, ha)]).cur.Ok := by decide

/-- `alice.txt` with `d = 29` and `k = 11` on T67 (95_test_vectors.md §6.2). -/
def sign67 : State := loaded t67 0 [(1, ha), (2, 29), (3, 11)]

theorem witness_SignResult :
    sign67.cur.Ok ∧ (4 : VReg).val % 2 = 0 ∧ (sign67.readV 3).toNat = 11 ∧ (sign67.readV 2).toNat = 29 ∧
    trunc sign67.cfg.truncMode 79 (sign67.readV 1).toNat = 4 ∧
    sign67.cur.smul (.affine sign67.cur.gx.toNat sign67.cur.gy.toNat) (11 : Nat)
      = some (.affine 24 30) ∧
    Nat.gcd 11 79 = 1 ∧ 24 % 79 ≠ 0 ∧ (4 + 24 % 79 * 29) % 79 ≠ 0 := by decide

/-- The five rows of 95_test_vectors.md §6.2 that end with ERETRY(1) to ERETRY(5). -/
theorem witness_SignRetryReasons :
    (loaded (t15 1 3 7) 0 [(2, 1), (3, 2)]).cur.Ok ∧
    (t15 1 3 7).smul (.affine 1 3) (2 : Nat) = none ∧
    t67.smul (.affine 2 22) (79 : Nat) = some .infinity ∧
    t67.smul (.affine 2 22) (2 : Nat) = some (.affine 52 7) ∧ Nat.gcd 2 158 ≠ 1 ∧
    t13.smul (.affine 8 5) (3 : Nat) = some (.affine 7 8) ∧ Nat.gcd 3 7 = 1 ∧ 7 % 7 = 0 ∧
    t67.smul (.affine 2 22) (11 : Nat) = some (.affine 24 30) ∧ Nat.gcd 11 79 = 1 ∧ 24 % 79 ≠ 0 ∧
      (4 + 24 % 79 * 13) % 79 = 0 := by decide

/-- The request of 95_test_vectors.md §6.3. -/
def verify67 : State := loaded t67 0 [(0, 63), (1, 12), (4, 24), (5, 78), (6, ha)]

theorem witness_VerifyAlwaysReportsAVerdict : verify67.cur.Ok ∧ (4 : VReg).val % 2 = 0 := by decide

theorem witness_VerifyAcceptsExactly :
    verify67.cur.Ok ∧ (4 : VReg).val % 2 = 0 ∧
    ∃ t, exec (.verify false false 6 4 0) verify67 = .next t ∧ t.result = true :=
  ⟨by decide, by decide, ⟨_, rfl, by decide⟩⟩

/-- Each reject reason of the list is met by a request of 95_test_vectors.md §6.3. -/
theorem witness_VerifyRejectReasons :
    (loaded t67 1 []).readInf 0 = true ∧
    ¬ (loaded t67 0 [(0, 67)]).PtOk 0 ∧
    t67.contains (.affine 2 23) = false ∧
    (t15 2 0 2).contains (.affine 8 3) = true ∧ (t15 2 0 2).smul (.affine 8 3) (2 : Nat) = none ∧
    t67.contains (.affine 63 12) = true ∧ t67.smul (.affine 63 12) (78 : Nat) = some (.affine 63 55) ∧
    t67.smul (.affine 63 12) (79 : Nat) = some .infinity ∧ 79 < 80 ∧
    Nat.gcd 79 79 ≠ 1 ∧
    ((t15 2 0 6).contains (.affine 9 1) = true ∧ (t15 2 0 6).smul (.affine 9 1) (6 : Nat) = some .infinity) ∧
    ((t15 2 0 6).smul (.affine 2 0) (0 : Nat) = some .infinity ∧
      (t15 2 0 6).smul (.affine 9 1) (5 : Nat) = none) ∧
    (78 * 78 % 79 = 1 ∧ t67.smul (.affine 63 12) (24 * 78 % 79 : Nat) = some (.affine 53 12)) := by
  decide

theorem witness_VerifyRejectReasons_reports :
    after (loaded t67 0 [(0, 55), (1, 17), (4, 24), (5, 5), (6, ha)]) 0x68190000 report = some (0x2, 10) ∧
    after (loaded (t15 2 0 6) 0 [(0, 9), (1, 1), (4, 1), (5, 5), (6, ha)]) 0x68190000 report
      = some (0x2, 9) := by decide

/-- A request of integers outside the registers' range, and a malformed one. -/
theorem witness_MappedRequestHasTheSoftwareVerdict :
    verify67.cur.Ok ∧
    mapRequest verify67.cur.n.toNat (some 24) (some 78) = ((false, 24), (false, 78)) ∧
    mapRequest 79 (some (-55)) (some (2 ^ 256)) = ((false, 24), (true, 0)) ∧
    mapRequest 79 none (some 78) = ((false, 0), (false, 0)) ∧
    (verify67.readV 4).toNat = 24 ∧ (verify67.readV (pairReg 4)).toNat = 78 := by decide

theorem witness_NonceReuseRecoversTheKey :
    t67.n.toNat.Prime ∧ t67.sign .digestWidth ha.toNat 29 11 = .ok (24, 78) ∧
      t67.sign .digestWidth hb.toNat 29 11 = .ok (24, 4) ∧ 78 ≠ 4 :=
  ⟨t67_n_prime, by decide, by decide, by decide⟩

theorem witness_HostWritesToRegisters :
    (0x2FC : Nat) = 0x100 + 32 * (15 : VReg).val + 4 * (7 : Fin 8).val ∧
    (0x3DC : Nat) = 0x300 + 32 * CurReg.index .n + 4 * (7 : Fin 8).val ∧
    State.reset.busy = false ∧ State.reset.sealed = false ∧
    (running State.reset 0 []).busy = true ∧ sealedWrite.busy = false ∧ sealedWrite.sealed = true ∧
    0x300 % 4 = 0 ∧ 0x300 ≠ 0x2FC := by decide

theorem witness_HostAccessFrames : (running State.reset 0 []).busy = true := by decide

theorem witness_ReservedAndReadOnlyOffsets :
    (0x01C % 4 = 0 ∧ 0x01C ≤ 0x0FC ∧ 0x0FC ≤ 0x0FF) ∧ (0x3E0 % 4 = 0 ∧ 0x3E0 ≤ 0xFFC ∧ 0xFFC ≤ 0xFFF) := by
  decide

theorem witness_MisalignedOrNarrowAccess :
    (0xFFF < 0x1000 ∧ 0xFFF % 4 ≠ 0) ∧ AccessWidth.w8 ≠ .w32 ∧ AccessWidth.w64 ≠ .w32 := by decide

theorem witness_IssueAndAccept :
    (running State.reset 0 []).busy = true ∧ State.reset.busy = false := by decide

theorem witness_CtrlWriteEffects :
    (4 : Word).getLsbD 2 = true ∧ (running State.reset 0 []).busy = true ∧ (3 : Word).getLsbD 2 = false ∧
      State.reset.busy = false := by decide

theorem witness_AbortRaceOrders :
    (running pts67 0x24400000 []).busy = true ∧ (7 : Word).getLsbD 2 = true := by decide

theorem witness_InterruptAndStickyBits :
    (running State.reset 0 []).busy = true ∧
    (∃ t, engineStep (running State.reset 0 []) = .next t ∧ t.doneIrq = true) ∧
    (3 : Word).getLsbD 2 = false ∧ State.reset.busy = false ∧ (1 : Word).getLsbD 0 = true :=
  ⟨by decide, ⟨_, rfl, by decide⟩, by decide, by decide, by decide⟩

theorem witness_DigestWords : 31 - 4 * (0 : Fin 8).val < 32 ∧ 31 - 4 * (7 : Fin 8).val < 32 := by decide

theorem witness_ScriptLoadsARegister :
    State.reset.busy = false ∧ State.reset.sealed = false := by decide

theorem witness_AssemblerEmitsLegalWords :
    isName "keygen".toList ".word" = false ∧
    assembleWords "keygen".toList ["p2".toList, "v9".toList] = some [0x34800000, 0x408A4000] := by decide

end Sys2Proof.Tests
end

section
/-! SUPPORT. Rules about the register window and the operations behind it, one case each: what an offset
reads and writes, what a write leaves when it is dropped, accepted or ignored (10_state.md R28-R39, R48,
R52; 44_system.md R171-R173). -/

namespace Sys2Proof.Machine

/-! ### The offsets of the control and status registers (10_state.md R28) -/

@[simp] theorem busRead_id (s : State) : busRead s 0x000 = Config.idValue := rfl
@[simp] theorem busRead_ctrl (s : State) : busRead s 0x004 = s.ctrlWord := rfl
@[simp] theorem busRead_status (s : State) : busRead s 0x008 = s.statusWord := rfl
@[simp] theorem busRead_cmd (s : State) : busRead s 0x00C = s.cmdreg := rfl
@[simp] theorem busRead_intStatus (s : State) : busRead s 0x010 = s.intStatusWord := rfl
@[simp] theorem busRead_inf (s : State) : busRead s 0x014 = s.infWord := rfl
@[simp] theorem busRead_errinfo (s : State) : busRead s 0x018 = s.errinfoWord := rfl

@[simp] theorem busWrite_id (s : State) (v : Word) : busWrite s 0x000 v = s := rfl
@[simp] theorem busWrite_ctrl (s : State) (v : Word) : busWrite s 0x004 v = s.ctrlWrite v := rfl
@[simp] theorem busWrite_status (s : State) (v : Word) : busWrite s 0x008 v = s.writeStatus v := rfl
@[simp] theorem busWrite_cmd (s : State) (v : Word) : busWrite s 0x00C v = s.issue v := rfl
@[simp] theorem busWrite_intStatus (s : State) (v : Word) :
    busWrite s 0x010 v = s.writeIntStatus v := rfl
@[simp] theorem busWrite_errinfo (s : State) (v : Word) : busWrite s 0x018 v = s := rfl

/-- The two reserved ranges of the window (10_state.md R39). -/
theorem targetAt_reserved {off : Nat}
    (h : (0x01C ≤ off ∧ off ≤ 0x0FF) ∨ (0x3E0 ≤ off ∧ off ≤ 0xFFF)) : targetAt off = .reserved := by
  unfold targetAt
  repeat rw [if_neg (by omega)]

theorem busRead_reserved (s : State) {off : Nat} (h : targetAt off = .reserved) :
    busRead s off = 0 := by simp only [busRead, h]

theorem busWrite_reserved (s : State) {off : Nat} (h : targetAt off = .reserved) (v : Word) :
    busWrite s off v = s := by simp only [busWrite, h]

/-! ### Bits of the words read -/

/-- A flag placed at bit `k` of a bus word shows at bit `k` only. -/
theorem getLsbD_bitAt (b : Bool) {k : Nat} (hk : k < 32) (n : Nat) :
    (bitAt b k).getLsbD n = (n == k && b) := by
  cases b with
  | false => simp [bitAt]
  | true =>
    rw [Bool.eq_iff_iff]
    simp only [bitAt, if_true, BitVec.natCast_eq_ofNat, BitVec.getLsbD_ofNat, Nat.one_shiftLeft,
      Nat.testBit_two_pow, Bool.and_true, Bool.and_eq_true, decide_eq_true_eq, beq_iff_eq]
    omega

/-- A narrow field read as a bus word: its own bits, and 0 above them. -/
theorem getLsbD_setWidth_word {n : Nat} (h : n ≤ 32) (x : BitVec n) (k : Nat) :
    (x.setWidth 32).getLsbD k = x.getLsbD k := by
  simp only [BitVec.getLsbD, BitVec.toNat_setWidth_of_le h]

/-- CTRL bit by bit (10_state.md R30). -/
theorem getLsbD_ctrlWord (s : State) (k : Nat) :
    s.ctrlWord.getLsbD k = (k == 0 && s.ie || k == 1 && s.sealed) := by
  simp only [State.ctrlWord, BitVec.getLsbD_or, getLsbD_bitAt, Nat.reduceLT]
  exact Bool.or_comm _ _

/-- `ERRCODE` in its place: from bit 8 up, with nothing lost at bit 32. -/
theorem getLsbD_errcode_shift (x : Nibble) (k : Nat) :
    (x.setWidth 32 <<< 8).getLsbD k = (decide (8 ≤ k) && x.getLsbD (k - 8)) := by
  rw [BitVec.getLsbD_shiftLeft, getLsbD_setWidth_word (by decide)]
  by_cases h8 : k < 8
  · simp [h8]
  · by_cases hk : k < 32
    · simp [hk, h8, Nat.not_lt.mp h8]
    · simp [hk, BitVec.getLsbD_of_ge x (k - 8) (by omega)]

/-- STATUS bit by bit (10_state.md R31). -/
theorem getLsbD_statusWord (s : State) (k : Nat) :
    s.statusWord.getLsbD k =
      (k == 0 && s.busy || k == 1 && s.done || k == 2 && s.err || k == 3 && s.result ||
        k == 4 && s.sealed || k == 5 && s.ovr || k == 6 && s.werr ||
        decide (8 ≤ k) && s.errcode.getLsbD (k - 8)) := by
  simp only [State.statusWord, BitVec.getLsbD_or, getLsbD_bitAt, getLsbD_errcode_shift, Nat.reduceLT]

/-! ### CMD -/

theorem issue_of_busy {s : State} (h : s.busy = true) (w : Word) :
    s.issue w = { s with ovr := true } := if_pos h

theorem issue_of_idle {s : State} (h : s.busy = false) (w : Word) : s.issue w = s.accept w := by
  simp [State.issue, h]

/-! ### CTRL -/

@[simp] theorem ctrlWrite_v (s : State) (w : Word) : (s.ctrlWrite w).v = s.v := by
  rw [ctrlWrite_eq]; split <;> rfl
@[simp] theorem ctrlWrite_inf (s : State) (w : Word) : (s.ctrlWrite w).inf = s.inf := by
  rw [ctrlWrite_eq]; split <;> rfl
@[simp] theorem ctrlWrite_cur (s : State) (w : Word) : (s.ctrlWrite w).cur = s.cur := by
  rw [ctrlWrite_eq]; split <;> rfl
@[simp] theorem ctrlWrite_cmdreg (s : State) (w : Word) : (s.ctrlWrite w).cmdreg = s.cmdreg := by
  rw [ctrlWrite_eq]; split <;> rfl
@[simp] theorem ctrlWrite_ie (s : State) (w : Word) : (s.ctrlWrite w).ie = w.getLsbD 0 := by
  rw [ctrlWrite_eq]; split <;> rfl
@[simp] theorem ctrlWrite_sealed (s : State) (w : Word) :
    (s.ctrlWrite w).sealed = (s.sealed || w.getLsbD 1) := by
  rw [ctrlWrite_eq]; split <;> rfl
@[simp] theorem ctrlWrite_doneIrq (s : State) (w : Word) :
    (s.ctrlWrite w).doneIrq = (s.doneIrq || w.getLsbD 2 && s.busy) := by
  rw [ctrlWrite_eq]
  split
  next h => rw [h, Bool.or_true]; rfl
  next h => rw [Bool.eq_false_iff.mpr h, Bool.or_false]

/-! ### Dropped register writes -/

theorem hostWriteInf_of_busy {s : State} (h : s.busy = true) (v : Word) :
    s.hostWriteInf v = s.dropWrite := if_pos h

theorem hostWriteV_of_busy {s : State} (h : s.busy = true) (i : VReg) (w : Fin 8) (v : Word) :
    s.hostWriteV i w v = s.dropWrite := if_pos h

theorem hostWriteCur_of_busy {s : State} (h : s.busy = true) (r : CurReg) (w : Fin 8) (v : Word) :
    s.hostWriteCur r w v = s.dropWrite := if_pos (.inl h)

theorem hostWriteCur_of_sealed {s : State} (h : s.sealed = true) (r : CurReg) (w : Fin 8) (v : Word) :
    s.hostWriteCur r w v = s.dropWrite := if_pos (.inr h)

/-! ### Host writes -/

/-- A host write leaves the block as one of the effects of `BusWrite` does, and gets its answer. -/
theorem hostWrite_effect (s : State) (addr : Nat) (width : AccessWidth) (v : Word) :
    ∃ t r, WriteEffect s v t ∧ hostWrite s addr width v = { t with response := r } := by
  rcases hostWrite_cases s addr width v with ⟨r, h⟩ | ⟨off, h⟩
  · exact ⟨s, r, .ignored, h⟩
  · exact ⟨busWrite s off v, .writeDone, busWrite_effect s off v, h⟩

/-- While a command runs, a write leaves its inputs and its word alone (10_state.md R48, R52, R53). -/
theorem writeEffect_keeps_inputs {s t : State} {v : Word} (h : WriteEffect s v t)
    (hb : s.busy = true) :
    t.v = s.v ∧ t.inf = s.inf ∧ t.cur = s.cur ∧ t.cmdreg = s.cmdreg := by
  cases h with
  | ignored => exact ⟨rfl, rfl, rfl, rfl⟩
  | ctrl => simp
  | status => exact ⟨rfl, rfl, rfl, rfl⟩
  | cmd => simp [issue_of_busy hb]
  | intStatus => exact ⟨rfl, rfl, rfl, rfl⟩
  | inf => simp [hostWriteInf_of_busy hb]
  | operand i w => simp [hostWriteV_of_busy hb]
  | curve r w => simp [hostWriteCur_of_busy hb]

/-- While sealed, a write leaves the curve registers alone and `SEALED` set (10_state.md R35). -/
theorem writeEffect_keeps_sealed_curve {s t : State} {v : Word} (h : WriteEffect s v t)
    (hs : s.sealed = true) : t.sealed = true ∧ t.cur = s.cur := by
  cases h with
  | ignored => exact ⟨hs, rfl⟩
  | ctrl => simp [hs]
  | status => exact ⟨hs, rfl⟩
  | cmd =>
    unfold State.issue
    split <;> exact ⟨hs, rfl⟩
  | intStatus => exact ⟨hs, rfl⟩
  | inf =>
    unfold State.hostWriteInf
    split <;> exact ⟨hs, rfl⟩
  | operand i w =>
    unfold State.hostWriteV
    split <;> exact ⟨hs, rfl⟩
  | curve r w => simp [hostWriteCur_of_sealed hs, hs]

end Sys2Proof.Machine
end

section
/-! SUPPORT. What a command's completion leaves: the `INF` bits, the report, and what the outcome depends
on (10_state.md R27, R53, R54; 60_exceptions.md R181, R182). -/

namespace Sys2Proof.Machine

/-- A completion's `ERR` says whether there is a code (10_state.md R42, R54). -/
theorem complete_err (s : State) (r : Cmd Effect) :
    (s.complete r).err = ((s.complete r).errcode != 0) := by
  cases r with
  | ok e => rfl
  | error e => cases e <;> rfl

/-- The engine's step on a running word that decodes is `exec` of its instruction. -/
theorem engineStep_of_decode {s : State} {i : Instr} (hb : s.busy = true)
    (hd : decode s.cmdreg = .ok i) : engineStep s = exec i s := by
  simp only [engineStep, hb, hd, if_true]

/-! ### `INF` -/

/-- A commit without an `INF` assignment leaves `INF` alone. -/
theorem commit_inf_of_no_inf {ws : List Write} (h : ∀ j b, Write.inf j b ∉ ws) (s : State) :
    (s.commit ws).inf = s.inf := by
  induction ws generalizing s with
  | nil => rfl
  | cons w ws ih =>
    have hws : ∀ j b, Write.inf j b ∉ ws := fun j b hm => h j b (List.mem_cons_of_mem _ hm)
    cases w with
    | v i x => exact ih hws (s.writeV i x)
    | inf j b => exact absurd List.mem_cons_self (h j b)

/-- A command without a point result leaves `INF` alone (10_state.md R27). -/
theorem complete_inf_of_no_point {i : Instr} (h : pointResult i = false) (s : State) :
    (s.complete (cmdOf i s)).inf = s.inf := by
  cases hc : cmdOf i s with
  | ok e =>
    obtain ⟨-, -, hinf⟩ := cmdOf_ok hc
    exact commit_inf_of_no_inf (hinf h) s
  | error e => exact (complete_error_operands s e).inf

/-! ### The inputs of a command -/

/-- `s` with everything that no command reads at its reset value: what is left of `s` is `V`, `INF`, the
curve registers and `TRUNC_MODE` (10_state.md R53). -/
def State.inputs (s : State) : State :=
  { State.reset with
    v := s.v
    inf := s.inf
    cur := s.cur
    cfg := { Config.default with truncMode := s.cfg.truncMode } }

/-- No command reads anything but its inputs: the outcome of each is the outcome on the inputs alone. -/
theorem cmdOf_inputs (i : Instr) (s : State) : cmdOf i s.inputs = cmdOf i s := by
  cases i <;> rfl

/-- States with the same inputs have the same outcome of every command. -/
theorem cmdOf_congr {s s' : State} (hv : s.v = s'.v) (hinf : s.inf = s'.inf) (hcur : s.cur = s'.cur)
    (hmode : s.cfg.truncMode = s'.cfg.truncMode) (i : Instr) : cmdOf i s = cmdOf i s' := by
  have h : s.inputs = s'.inputs := by simp only [State.inputs, hv, hinf, hcur, hmode]
  rw [← cmdOf_inputs i s, h, cmdOf_inputs]

/-- A commit's operands depend on the operands before it only. -/
theorem commit_operands_congr (ws : List Write) {s s' : State} (hv : s.v = s'.v)
    (hinf : s.inf = s'.inf) :
    (s.commit ws).v = (s'.commit ws).v ∧ (s.commit ws).inf = (s'.commit ws).inf := by
  induction ws generalizing s s' with
  | nil => exact ⟨hv, hinf⟩
  | cons w ws ih =>
    cases w with
    | v i x => exact ih (by simp [State.applyWrite, hv]) hinf
    | inf j b => exact ih hv (by simp [State.applyWrite, State.writeInf, hinf])

/-- The operands and the report that a completion leaves depend on the outcome and the operands only. -/
theorem complete_congr (r : Cmd Effect) {s s' : State} (hv : s.v = s'.v) (hinf : s.inf = s'.inf) :
    (s.complete r).v = (s'.complete r).v ∧ (s.complete r).inf = (s'.complete r).inf ∧
      (s.complete r).err = (s'.complete r).err ∧ (s.complete r).result = (s'.complete r).result ∧
      (s.complete r).errcode = (s'.complete r).errcode ∧
      (s.complete r).errinfo = (s'.complete r).errinfo := by
  cases r with
  | ok e =>
    obtain ⟨h1, h2⟩ := commit_operands_congr e.writes hv hinf
    exact ⟨h1, h2, rfl, rfl, rfl, rfl⟩
  | error e => cases e <;> exact ⟨hv, hinf, rfl, rfl, rfl, rfl⟩

/-! ### Legal reports -/

/-- The report of an early end is in the table of 60_exceptions.md R182; a rejecting VERIFY reports
ENONE. -/
def Ending.legal : Ending → Bool
  | .raise code info => legalReport code.code info
  | .reject k => legalReport 0 k

theorem legal_eoperand :
    ∀ j : PReg, (Ending.raise .eoperand (BitVec.ofNat 4 (j.val + 1))).legal = true := by decide

/-- Every early end a command can have reports a legal pair. -/
theorem legal_of_earlyEnd {i : Instr} {e : Ending} (h : EarlyEnd i e) : e.legal = true := by
  cases h with
  | ecfg k _ hk => revert k; decide
  | eoperand j _ => exact legal_eoperand j
  | noInverse _ => decide
  | addFails _ => decide
  | eretry k _ hk => revert k; decide
  | elimit _ => decide
  | reject k _ hk => revert k; decide

theorem checkEven_of_odd {r : VReg} (h : r.isEven = false) :
    checkEven r = .error (.raise .eillegal 2) := by
  rw [checkEven, h]
  rfl

/-- A term that no word encodes ends with EILLEGAL(2), as its word would (30_encoding.md R87). -/
theorem cmdOf_of_not_wf {i : Instr} (h : i.wf = false) (s : State) :
    cmdOf i s = .error (.raise .eillegal 2) := by
  cases i with
  | sign vd vh vkey vk =>
    have hv : vd.isEven = false := h
    rw [cmdOf, signCmd, checkEven_of_odd hv, cmd_bind_error]
  | verify rovf sovf vh vr pq =>
    have hv : vr.isEven = false := h
    rw [cmdOf, verifyCmd, checkEven_of_odd hv, cmd_bind_error]
  | _ => exact absurd h (by simp [Instr.wf])

/-- Every early end of every command term is legal. -/
theorem legal_of_cmdOf_error {i : Instr} {s : State} {e : Ending} (h : cmdOf i s = .error e) :
    e.legal = true := by
  cases hw : i.wf with
  | true => exact legal_of_earlyEnd (cmdOf_error hw h)
  | false =>
    rw [cmdOf_of_not_wf hw] at h
    cases h
    decide

/-- Every early end of a running word, decoded or not, is legal. -/
theorem legal_of_runningOutcome_error {s : State} {e : Ending}
    (h : runningOutcome s = .error e) : e.legal = true := by
  unfold runningOutcome at h
  split at h
  · exact legal_of_cmdOf_error h
  next d _ =>
    cases h
    cases d <;> decide

end Sys2Proof.Machine
end

section
/-! SUPPORT. The invariant of the report fields: what establishes it, and what keeps it
(10_state.md R40-R43, R52, R54; 44_system.md R172). -/

namespace Sys2Proof.Machine

/-- The report fields, and the word they belong to, are unchanged; `DONE_IRQ` may only have been
cleared. -/
structure State.SameReport (s t : State) : Prop where
  busy : t.busy = s.busy
  done : t.done = s.done
  err : t.err = s.err
  result : t.result = s.result
  errcode : t.errcode = s.errcode
  errinfo : t.errinfo = s.errinfo
  cmdreg : t.cmdreg = s.cmdreg
  doneIrq : s.doneIrq = false → t.doneIrq = false

/-- The invariant speaks of the report fields only. -/
theorem reportInv_of_sameReport {s t : State} (hs : s.ReportInv) (h : s.SameReport t) :
    t.ReportInv where
  running hb := by
    rw [h.done, h.err, h.result, h.errcode, h.errinfo]
    exact hs.running (h.busy ▸ hb)
  errBit := by rw [h.err, h.errcode, hs.errBit]
  legal := by rw [h.errcode, h.errinfo, hs.legal]
  resultClean hr := by
    rw [h.errcode, h.errinfo]
    exact hs.resultClean (h.result ▸ hr)
  fresh hb hd := by
    rw [h.cmdreg, h.result, h.errcode, h.errinfo]
    obtain ⟨hc, hr, he, hi, hq⟩ := hs.fresh (h.busy ▸ hb) (h.done ▸ hd)
    exact ⟨hc, hr, he, hi, h.doneIrq hq⟩

/-- The model's own fields are no part of the report. -/
theorem reportInv_of_block_eq {s t : State} (h : t.toBlock = s.toBlock) (hs : s.ReportInv) :
    t.ReportInv :=
  reportInv_of_sameReport hs (by constructor <;> simp [h])

theorem reportInv_reset : State.reset.ReportInv :=
  ⟨by decide, by decide, by decide, by decide, by decide⟩

/-- A completion with a legal pair, and a result only without an error, meets the invariant. -/
theorem reportInv_report (s : State) {code : ErrCode} {info : Nibble} {res : Bool}
    (hl : legalReport code.code info = true) (hr : res = true → code.code = 0 ∧ info = 0) :
    (s.report code info res).ReportInv where
  running hb := absurd hb (by simp)
  errBit := rfl
  legal := hl
  resultClean := hr
  fresh _ hd := absurd hd (by simp)

/-- An accepted command starts with an empty report (10_state.md R52). -/
theorem reportInv_accept (s : State) (w : Word) : (s.accept w).ReportInv where
  running _ := ⟨rfl, rfl, rfl, rfl, rfl⟩
  errBit := rfl
  legal := rfl
  resultClean hr := absurd hr (by simp)
  fresh hb := absurd hb (by simp)

/-- A completion meets the invariant when an early end is legal. -/
theorem reportInv_complete (s : State) {r : Cmd Effect} (h : ∀ e, r = .error e → e.legal = true) :
    (s.complete r).ReportInv := by
  cases r with
  | ok e => exact reportInv_report _ (by decide) fun _ => ⟨rfl, rfl⟩
  | error e =>
    have he := h e rfl
    cases e with
    | raise code info => exact reportInv_report s he (by simp)
    | reject k => exact reportInv_report s he (by simp)

/-- A host write leaves the report alone, starts a command on an idle block, or ends the running one
with EABORT. -/
theorem writeEffect_report {s t : State} {v : Word} (h : WriteEffect s v t) :
    s.SameReport t ∨ t = s.accept v ∨ ∃ u : State, t = u.takeError .eabort 0 := by
  cases h with
  | ignored => exact .inl ⟨rfl, rfl, rfl, rfl, rfl, rfl, rfl, id⟩
  | ctrl =>
    rw [ctrlWrite_eq]
    split
    · exact .inr (.inr ⟨_, rfl⟩)
    · exact .inl ⟨rfl, rfl, rfl, rfl, rfl, rfl, rfl, id⟩
  | status => exact .inl ⟨rfl, rfl, rfl, rfl, rfl, rfl, rfl, id⟩
  | cmd =>
    unfold State.issue
    split
    · exact .inl ⟨rfl, rfl, rfl, rfl, rfl, rfl, rfl, id⟩
    · exact .inr (.inl rfl)
  | intStatus => exact .inl ⟨rfl, rfl, rfl, rfl, rfl, rfl, rfl, fun hq => by simp [hq]⟩
  | inf =>
    unfold State.hostWriteInf
    split <;> exact .inl ⟨rfl, rfl, rfl, rfl, rfl, rfl, rfl, id⟩
  | operand i w =>
    unfold State.hostWriteV
    split <;> exact .inl ⟨rfl, rfl, rfl, rfl, rfl, rfl, rfl, id⟩
  | curve r w =>
    unfold State.hostWriteCur
    split <;> exact .inl ⟨rfl, rfl, rfl, rfl, rfl, rfl, rfl, id⟩

/-- Every host write keeps the invariant. -/
theorem reportInv_writeEffect {s t : State} {v : Word} (hs : s.ReportInv) (h : WriteEffect s v t) :
    t.ReportInv := by
  rcases writeEffect_report h with h | rfl | ⟨u, rfl⟩
  · exact reportInv_of_sameReport hs h
  · exact reportInv_accept s v
  · exact reportInv_report u (by decide) (by simp)

end Sys2Proof.Machine
end

section
/-! The statements of the state (10_state.md), settled. -/

open Sys2Proof Sys2Proof.Machine

namespace Sys2Proof.Proofs

/-- Settles O13, by the inversion of a step: a completion has a legal report, a host write keeps the
invariant by its effects, and the other events change no report field or reset them. -/
theorem stepKeepsReportInvariant : Obligations.StepKeepsReportInvariant := by
  intro s t hs hstep
  have hrest : ∀ rest, ({ s with events := rest } : State).ReportInv := fun _ =>
    reportInv_of_block_eq (s := s) rfl hs
  cases step_inv hstep with
  | completes rest _ _ => exact reportInv_complete _ fun _ => legal_of_runningOutcome_error
  | idle rest _ _ => exact hrest rest
  | read addr width rest _ =>
    exact reportInv_of_block_eq (hostRead_frame _ addr width).1 (hrest rest)
  | write addr width v rest _ =>
    obtain ⟨u, r, hu, he⟩ := hostWrite_effect { s with events := rest } addr width v
    rw [he]
    exact reportInv_of_block_eq (s := u) rfl (reportInv_writeEffect (hrest rest) hu)
  | reset rest _ => exact reportInv_of_block_eq (s := State.reset) rfl reportInv_reset

/-- Settles O14: a completion writes no curve register (R53), and a host write to one is dropped while
sealed. -/
theorem sealedCurveChangesOnlyAtReset : Obligations.SealedCurveChangesOnlyAtReset := by
  intro s t hs hreset hstep
  cases step_inv hstep with
  | completes rest _ _ =>
    have h := complete_control { s with events := rest } (runningOutcome { s with events := rest })
    exact ⟨h.sealed.trans hs, h.cur⟩
  | idle rest _ _ => exact ⟨hs, rfl⟩
  | read addr width rest _ =>
    obtain ⟨hblock, -, -⟩ := hostRead_frame { s with events := rest } addr width
    exact ⟨(congrArg Block.sealed hblock).trans hs, congrArg Block.cur hblock⟩
  | write addr width v rest _ =>
    obtain ⟨u, r, hu, he⟩ := hostWrite_effect { s with events := rest } addr width v
    rw [he]
    obtain ⟨hsealed, hcur⟩ := writeEffect_keeps_sealed_curve hu hs
    exact ⟨hsealed, hcur⟩
  | reset rest h => exact absurd h (hreset rest)

/-- Settles O16: `exec` is the completion of the command's outcome. -/
theorem commandsChangeOperandsAndReportOnly : Obligations.CommandsChangeOperandsAndReportOnly := by
  intro i s
  obtain ⟨hbusy, hdone, hirq⟩ := complete_idle s (cmdOf i s)
  exact ⟨_, exec_eq_complete i s, complete_control s _, hbusy, hdone, hirq, complete_err s _⟩

/-- Settles O18: a command that changes `INF` has a point result. -/
theorem onlyPointResultsChangeInf : Obligations.OnlyPointResultsChangeInf := by
  intro i s t hexec hne
  obtain rfl : s.complete (cmdOf i s) = t := Host.Outcome.next.inj (exec_eq_complete i s ▸ hexec)
  have hpoint : pointResult i = true := by
    by_contra h
    exact hne (complete_inf_of_no_point (Bool.eq_false_iff.mpr h) s)
  cases i with
  | padd pd pa pb => exact .inl ⟨pd, pa, pb, rfl⟩
  | pdbl pd pa => exact .inr (.inl ⟨pd, pa, rfl⟩)
  | pneg pd pa => exact .inr (.inr (.inl ⟨pd, pa, rfl⟩))
  | pldg pd => exact .inr (.inr (.inr (.inl ⟨pd, rfl⟩)))
  | pmul neg pd pa vk => exact .inr (.inr (.inr (.inr ⟨neg, pd, pa, vk, rfl⟩)))
  | _ => exact absurd hpoint (by simp [pointResult])

/-- Settles O20: no command reads anything but its inputs, and a completion adds only the operands. -/
theorem outcomeDependsOnInputsOnly : Obligations.OutcomeDependsOnInputsOnly := by
  intro i s s' t t' hv hinf hcur hmode ht ht'
  obtain rfl : s.complete (cmdOf i s) = t := Host.Outcome.next.inj (exec_eq_complete i s ▸ ht)
  obtain rfl : s'.complete (cmdOf i s') = t' := Host.Outcome.next.inj (exec_eq_complete i s' ▸ ht')
  rw [cmdOf_congr hv hinf hcur hmode i]
  exact complete_congr _ hv hinf

/-- Settles O48: each register's word, read bit by bit. -/
theorem statusAndControlWords : Obligations.StatusAndControlWords := by
  intro s
  refine ⟨rfl, rfl, fun k => ?_, fun k => ?_, fun k => ?_, fun k => ?_, fun k => ?_⟩
  · rw [busRead_ctrl, getLsbD_ctrlWord]
  · rw [busRead_status, getLsbD_statusWord]
  · exact getLsbD_bitAt s.doneIrq (by decide) k
  · exact getLsbD_setWidth_word (by decide) s.inf k
  · exact getLsbD_setWidth_word (by decide) s.errinfo k

/-- Settles O51: a host write has one of the effects of `BusWrite`, each of which keeps a running
command's inputs, and a read only answers. -/
theorem hostAccessFrames : Obligations.HostAccessFrames := by
  intro s addr width v
  refine ⟨fun hb => ?_, hostRead_frame s addr width⟩
  obtain ⟨u, r, hu, he⟩ := hostWrite_effect s addr width v
  rw [he]
  obtain ⟨hv, hinf, hcur, hcmd⟩ := writeEffect_keeps_inputs hu hb
  exact ⟨hv, hinf, hcur, hcmd⟩

/-- Settles O57, from the completion's report and the effects of the CTRL, INT_STATUS and STATUS
writes. -/
theorem interruptAndStickyBits : Obligations.InterruptAndStickyBits := by
  intro s
  refine ⟨?_, ?_, ?_, ?_, ?_, ?_⟩
  · exact Bool.and_eq_true_iff
  · intro t hb ht
    rw [engineStep_busy hb] at ht
    obtain rfl := Host.Outcome.next.inj ht
    obtain ⟨-, -, hirq⟩ := complete_idle s (runningOutcome s)
    rw [State.irq, hirq, (complete_control s _).ie, Bool.true_and]
  · intro v hv
    rw [busWrite_ctrl, ctrlWrite_doneIrq]
    rcases hv with h | h
    · rw [h, Bool.false_and, Bool.or_false]
    · rw [h, Bool.and_false, Bool.or_false]
  · intro v hq hv
    simp [State.irq, hq, hv]
  · intro v
    rw [busWrite_intStatus, State.writeIntStatus]
    cases v.getLsbD 0 <;> simp
  · intro v
    rw [busWrite_status, State.writeStatus]
    cases v.getLsbD 5 <;> cases v.getLsbD 6 <;> simp

/-- Settles O7: a step is the next event, and an access of the window is `BusRead` or `BusWrite`. -/
theorem stepPerformsTheNextEvent : Obligations.StepPerformsTheNextEvent := by
  intro s rest
  refine ⟨?_, ?_, ?_, ?_⟩
  · intro i hb hd hn
    rw [step_of_engineNext hn]
    exact engineStep_of_decode hb hd
  · intro addr width h
    simp only [step, h, handle]
  · intro addr width v h
    simp only [step, h, handle]
  · intro off v hoff ha
    exact ⟨hostRead_ok s hoff ha, hostWrite_ok s hoff ha v⟩

/-- Settles O10, by evaluating the reset state. -/
theorem resetValues : Obligations.ResetValues := by
  refine ⟨by decide, by decide, rfl, rfl, rfl, by decide, rfl, rfl, rfl, ?_⟩
  decide

/-- Settles O12. -/
theorem reportInvariantAtReset : Obligations.ReportInvariantAtReset := reportInv_reset

/-- Settles O52: a reserved offset and a read-only register have no effect behind `BusWrite`. -/
theorem reservedAndReadOnlyOffsets : Obligations.ReservedAndReadOnlyOffsets := by
  intro s off v
  refine ⟨fun ha hr => ?_, ?_, ?_⟩
  · have hoff : off < 0x1000 := by omega
    have ht := targetAt_reserved hr
    rw [hostRead_ok s hoff ha, hostWrite_ok s hoff ha, busRead_reserved s ht, busWrite_reserved s ht]
    exact ⟨rfl, rfl⟩
  · rw [hostWrite_ok s (by decide) (by decide), busWrite_id]
  · rw [hostWrite_ok s (by decide) (by decide), busWrite_errinfo]

/-- Settles O54: a CMD write issues the word. -/
theorem issueAndAccept : Obligations.IssueAndAccept := by
  intro s w
  exact ⟨fun hb => issue_of_busy hb w, fun hb => issue_of_idle hb w⟩

end Sys2Proof.Proofs
end

section
/-! SUPPORT. The words of a 256-bit register and INF seen from the window: what an offset names, what a write
of one word leaves at every other offset, and the accesses that get a bus error (20_memory.md R60-R62;
10_state.md R26). -/

namespace Sys2Proof.Machine

/-! ### What an offset names -/

theorem index_curReg {k : Nat} (h : k < 7) : (curReg k).index = k := by
  revert h k
  decide

/-- An aligned offset names at most one word of an operand register: the word at that offset. -/
theorem targetAt_eq_v_iff {off : Nat} (ha : off % 4 = 0) (i : VReg) (w : Fin 8) :
    targetAt off = .v i w ↔ off = 0x100 + 32 * i.val + 4 * w.val := by
  refine ⟨fun h => ?_, fun h => h ▸ targetAt_v i w⟩
  unfold targetAt at h
  split_ifs at h with _ _ _ _ _ _ _ hv _
  obtain ⟨rfl, rfl⟩ := Target.v.inj h
  simp only [Fin.val_ofNat]
  omega

/-- An aligned offset names at most one word of a curve parameter register: the word at that offset. -/
theorem targetAt_eq_cur_iff {off : Nat} (ha : off % 4 = 0) (r : CurReg) (w : Fin 8) :
    targetAt off = .cur r w ↔ off = 0x300 + 32 * r.index + 4 * w.val := by
  refine ⟨fun h => ?_, fun h => h ▸ targetAt_cur r w⟩
  unfold targetAt at h
  split_ifs at h with _ _ _ _ _ _ _ _ hc
  obtain ⟨rfl, rfl⟩ := Target.cur.inj h
  rw [index_curReg (by omega), Fin.val_ofNat]
  omega

/-! ### Reads and writes of one word -/

@[simp] theorem busRead_v (s : State) (i : VReg) (w : Fin 8) :
    busRead s (0x100 + 32 * i.val + 4 * w.val) = getWord (s.readV i) w := by
  simp only [busRead, targetAt_v]

@[simp] theorem busRead_cur (s : State) (r : CurReg) (w : Fin 8) :
    busRead s (0x300 + 32 * r.index + 4 * w.val) = getWord (s.cur.get r) w := by
  simp only [busRead, targetAt_cur]

@[simp] theorem busWrite_v (s : State) (i : VReg) (w : Fin 8) (v : Word) :
    busWrite s (0x100 + 32 * i.val + 4 * w.val) v = s.hostWriteV i w v := by
  simp only [busWrite, targetAt_v]

@[simp] theorem busWrite_cur (s : State) (r : CurReg) (w : Fin 8) (v : Word) :
    busWrite s (0x300 + 32 * r.index + 4 * w.val) v = s.hostWriteCur r w v := by
  simp only [busWrite, targetAt_cur]

@[simp] theorem busWrite_inf (s : State) (v : Word) : busWrite s 0x014 v = s.hostWriteInf v := rfl

theorem hostWriteV_of_idle {s : State} (h : s.busy = false) (i : VReg) (w : Fin 8) (v : Word) :
    s.hostWriteV i w v = s.writeV i (setWord (s.readV i) w v) := by
  simp [State.hostWriteV, h]

theorem hostWriteCur_of_idle {s : State} (h : s.busy = false) (hs : s.sealed = false) (r : CurReg)
    (w : Fin 8) (v : Word) :
    s.hostWriteCur r w v = { s with cur := s.cur.set r (setWord (s.cur.get r) w v) } := by
  simp [State.hostWriteCur, h, hs]

theorem hostWriteInf_of_idle {s : State} (h : s.busy = false) (v : Word) :
    s.hostWriteInf v = { s with inf := v.setWidth 8 } := by
  simp [State.hostWriteInf, h]

/-- After an accepted write of one word of an operand register, every offset reads as before but those
that name the word. -/
theorem busRead_hostWriteV_of_idle {s : State} (h : s.busy = false) (i : VReg) (w : Fin 8) (v : Word)
    (off : Nat) :
    busRead (s.hostWriteV i w v) off = if targetAt off = .v i w then v else busRead s off := by
  rw [hostWriteV_of_idle h, busRead, busRead]
  cases targetAt off with
  | v j u =>
    by_cases hj : j = i
    · subst hj
      simp [getWord_setWord, eq_comm]
    · simp [readV_writeV_other s _ hj, hj]
  | _ => rfl

/-- After an accepted write of one word of a curve parameter register, every offset reads as before but
those that name the word. -/
theorem busRead_hostWriteCur_of_idle {s : State} (h : s.busy = false) (hs : s.sealed = false)
    (r : CurReg) (w : Fin 8) (v : Word) (off : Nat) :
    busRead (s.hostWriteCur r w v) off = if targetAt off = .cur r w then v else busRead s off := by
  rw [hostWriteCur_of_idle h hs, busRead, busRead]
  cases targetAt off with
  | cur q u =>
    by_cases hq : q = r
    · subst hq
      simp [getWord_setWord, eq_comm]
    · simp [Ne.symm hq, hq]
  | _ => rfl

/-- The eight `INF` bits read as the low byte of the word that was written (10_state.md R26). -/
theorem setWidth_setWidth_byte (v : Word) : (v.setWidth 8).setWidth 32 = v &&& 0xFF := by
  apply BitVec.eq_of_toNat_eq
  have hmask : v.toNat &&& 255 = v.toNat % 2 ^ 8 := Nat.and_two_pow_sub_one_eq_mod v.toNat 8
  rw [BitVec.toNat_setWidth_of_le (by decide), BitVec.toNat_setWidth, BitVec.toNat_and, ← hmask]
  rfl

/-! ### Accesses that get a bus error -/

theorem accessOk_eq_false {off : Nat} {width : AccessWidth} (h : off % 4 ≠ 0 ∨ width ≠ .w32) :
    accessOk off width = false := by
  rcases h with h | h <;> simp [accessOk, h]

theorem hostRead_busError (s : State) {off : Nat} {width : AccessWidth} (h : off < 0x1000)
    (hbad : accessOk off width = false) :
    hostRead s (s.cfg.base + off) width = { s with response := .readError 0 } := by
  simp [hostRead, offset_base s.cfg h, hbad]

theorem hostWrite_busError (s : State) {off : Nat} {width : AccessWidth} (h : off < 0x1000)
    (hbad : accessOk off width = false) (v : Word) :
    hostWrite s (s.cfg.base + off) width v = { s with response := .writeError } := by
  simp [hostWrite, offset_base s.cfg h, hbad]

end Sys2Proof.Machine
end

section
/-! SUPPORT. The digest value, byte by byte and bit by bit (20_memory.md R63). -/

namespace Sys2Proof.Machine

/-- One more byte at the end of a digest is its least significant byte. -/
theorem digestValue_ofFn_succ {n : Nat} (d : Fin (n + 1) → BitVec 8) :
    digestValue (List.ofFn d) =
      256 * digestValue (List.ofFn fun i : Fin n => d i.castSucc) + (d (Fin.last n)).toNat := by
  rw [List.ofFn_succ_last]
  simp [digestValue]

/-- Byte `i` of `n` has the weight `2^(8·(n−1−i))`. -/
theorem digestValue_ofFn_eq_sum {n : Nat} (d : Fin n → BitVec 8) :
    digestValue (List.ofFn d) = ∑ i : Fin n, (d i).toNat * 2 ^ (8 * (n - 1 - i.val)) := by
  induction n with
  | zero => rfl
  | succ n ih =>
    rw [digestValue_ofFn_succ, ih, Fin.sum_univ_castSucc, Finset.mul_sum]
    congr 1
    · refine Finset.sum_congr rfl fun i _ => ?_
      have hexp : 8 * (n + 1 - 1 - i.castSucc.val) = 8 * (n - 1 - i.val) + 8 := by
        rw [Fin.val_castSucc]
        omega
      rw [hexp, pow_add]
      ring
    · simp

/-- Bit `k` of byte `i` of `n` is bit `8·(n−1−i) + k` of the digest value. -/
theorem testBit_digestValue_ofFn {n : Nat} (d : Fin n → BitVec 8) (i : Fin n) {k : Nat} (hk : k < 8) :
    (digestValue (List.ofFn d)).testBit (8 * (n - 1 - i.val) + k) = (d i).getLsbD k := by
  induction n with
  | zero => exact i.elim0
  | succ n ih =>
    rw [digestValue_ofFn_succ, show 256 = 2 ^ 8 from rfl,
      Nat.testBit_two_pow_mul_add _ (d (Fin.last n)).isLt]
    cases i using Fin.lastCases with
    | last => simp [hk, BitVec.getLsbD]
    | cast i =>
      have hpos : 8 * (n + 1 - 1 - i.castSucc.val) + k = 8 * (n - 1 - i.val) + k + 8 := by
        rw [Fin.val_castSucc]
        omega
      rw [hpos, if_neg (by omega), Nat.add_sub_cancel]
      exact ih (fun i => d i.castSucc) i

/-- Bit `k` of word `w` of a 32-byte digest is bit `k mod 8` of byte `31 − 4w − k/8`. -/
theorem getLsbD_getWord_digestValue (d : Fin 32 → BitVec 8) (w : Fin 8) {k : Nat} (hk : k < 32) :
    (getWord (toVal (digestValue (List.ofFn d))) w).getLsbD k =
      (d ⟨31 - 4 * w.val - k / 8, by omega⟩).getLsbD (k % 8) := by
  have hbit := testBit_digestValue_ofFn d ⟨31 - 4 * w.val - k / 8, by omega⟩
    (Nat.mod_lt k (by decide : 8 > 0))
  have hpos : 8 * (32 - 1 - (31 - 4 * w.val - k / 8)) + k % 8 = 32 * w.val + k := by omega
  rw [← hbit, hpos, getWord, toVal, BitVec.getLsbD_extractLsb', BitVec.getLsbD_ofNat]
  simp [hk, show 32 * w.val + k < 256 by omega]

/-- Which of four concatenated bytes a bit of the word lies in. -/
theorem getLsbD_append_bytes (b3 b2 b1 b0 : BitVec 8) (k : Nat) :
    (b3 ++ b2 ++ b1 ++ b0).getLsbD k =
      if k < 8 then b0.getLsbD k
      else if k < 16 then b1.getLsbD (k - 8)
      else if k < 24 then b2.getLsbD (k - 8 - 8)
      else b3.getLsbD (k - 8 - 8 - 8) := by
  have h1 : k - 8 < 8 ↔ k < 16 := by omega
  have h2 : k - 8 - 8 < 8 ↔ k < 24 := by omega
  simp only [BitVec.getLsbD_append, h1, h2]

end Sys2Proof.Machine
end

section
/-! The statements of the memory map (20_memory.md), settled. -/

open Sys2Proof Sys2Proof.Machine

namespace Sys2Proof.Proofs

/-- Settles O49: a register is the sum of its words, and the map puts word `w` at `base(X) + 4w`. -/
theorem wordOrderOfRegisters : Obligations.WordOrderOfRegisters := by
  intro s
  refine ⟨fun i => ?_, fun r => ?_⟩
  · simp only [busRead_v]
    exact toNat_eq_words (s.readV i)
  · simp only [busRead_cur]
    exact toNat_eq_words (s.cur.get r)

/-- Settles O50: an accepted write changes what is read at the offsets that name its word, and of those
only one is aligned. -/
theorem hostWritesToRegisters : Obligations.HostWritesToRegisters := by
  rintro s i r w v _ _ rfl rfl
  refine ⟨fun hb => ?_, fun hb => ?_, fun hb hs => ?_, fun h => ?_, fun hb => ?_, fun hb => ?_⟩
  · simp only [busWrite_v, busRead_hostWriteV_of_idle hb]
    exact ⟨if_pos (targetAt_v i w), fun off ha hne => if_neg (mt (targetAt_eq_v_iff ha i w).mp hne)⟩
  · rw [busWrite_v, hostWriteV_of_busy hb, State.dropWrite]
  · simp only [busWrite_cur, busRead_hostWriteCur_of_idle hb hs]
    exact ⟨if_pos (targetAt_cur r w),
      fun off ha hne => if_neg (mt (targetAt_eq_cur_iff ha r w).mp hne)⟩
  · rw [busWrite_cur]
    exact h.elim (hostWriteCur_of_busy · r w v) (hostWriteCur_of_sealed · r w v)
  · rw [busWrite_inf, hostWriteInf_of_idle hb]
    exact ⟨fun j => by simp [State.readInf], setWidth_setWidth_byte v, rfl⟩
  · rw [busWrite_inf, hostWriteInf_of_busy hb, State.dropWrite]

/-- Settles O58: the weights of the bytes, and the byte that each bit of a word comes from. -/
theorem digestWords : Obligations.DigestWords := by
  intro d
  refine ⟨digestValue_ofFn_eq_sum d, fun w _ => BitVec.eq_of_getLsbD_eq fun k hk => ?_⟩
  have hk : k < 32 := hk
  rw [getLsbD_getWord_digestValue d w hk, getLsbD_append_bytes]
  split_ifs <;> congr 3 <;> omega

/-- Settles O53: a misaligned or not 32-bit access is not `accessOk`. -/
theorem misalignedOrNarrowAccess : Obligations.MisalignedOrNarrowAccess := by
  intro s off width v hoff h
  have hbad := accessOk_eq_false h
  exact ⟨hostRead_busError s hoff hbad, hostWrite_busError s hoff hbad v⟩

end Sys2Proof.Proofs
end

section
/-! SUPPORT. The match/mask table as the field table: the row of an opcode is what the kinds of its fields
and its allowed flags say (30_encoding.md R84, R85, R87, R89), and a word passes the row exactly when it
has that opcode and breaks no field constraint. -/

namespace Sys2Proof.Machine

/-- The bits of a field that its kind forces to 0 (30_encoding.md R85). -/
def FieldKind.mask : FieldKind → BitVec 4
  | .unused => 0xF
  | .v => 0
  | .e => 1
  | .p => 8

theorem FieldKind.legal_iff (k : FieldKind) (f : BitVec 4) : k.legal f = true ↔ f &&& k.mask = 0 := by
  revert f
  cases k <;> decide

/-- The row of the match/mask table for an opcode with these fields (30_encoding.md R89). -/
def Shape.row (opc : Nat) (sh : Shape) : Row where
  pattern := packFields (BitVec.ofNat 6 opc) 0 0 0 0 0
  mask := packFields 0x3F sh.rd.mask sh.ra.mask sh.rb.mask sh.rc.mask (~~~sh.flags)

/-- The match/mask table is the field table, row by row. -/
theorem rowOf_eq_shapeOf (opc : Nat) : rowOf opc = (shapeOf opc).map (Shape.row opc) := by
  unfold rowOf
  split
  on_goal 18 =>
    unfold shapeOf
    split
    on_goal 18 => rfl
    all_goals contradiction
  all_goals rfl

/-- A defined opcode has six bits. -/
theorem lt_of_shapeOf {opc : Nat} {sh : Shape} (h : shapeOf opc = some sh) : opc < 64 := by
  unfold shapeOf at h
  split at h
  on_goal 18 => cases h
  all_goals decide

theorem opcOf_eq_extract (w : Word) : opcOf w = (w.extractLsb' 26 6).toNat := by
  simp only [opcOf, BitVec.extractLsb'_toNat]
  omega

theorem Shape.legal_iff (sh : Shape) (w : Word) :
    sh.legal w = true ↔
      sh.rd.legal (w.extractLsb' 22 4) = true ∧ sh.ra.legal (w.extractLsb' 18 4) = true ∧
      sh.rb.legal (w.extractLsb' 14 4) = true ∧ sh.rc.legal (w.extractLsb' 10 4) = true ∧
      w.extractLsb' 0 10 &&& ~~~sh.flags = 0 := by
  simp only [Shape.legal, Bool.and_eq_true, beq_iff_eq, and_assoc]

/-- A word passes a row exactly when it has the row's opcode and breaks no constraint of its fields. -/
theorem Shape.passes_row_iff {opc : Nat} (hopc : opc < 64) (sh : Shape) (w : Word) :
    w &&& (sh.row opc).mask = (sh.row opc).pattern ↔ opcOf w = opc ∧ sh.legal w = true := by
  have hall : ∀ o : BitVec 6, o &&& 0x3F = o := by decide
  have hop : w.extractLsb' 26 6 = BitVec.ofNat 6 opc ↔ opcOf w = opc := by
    rw [opcOf_eq_extract, ← BitVec.toNat_inj, BitVec.toNat_ofNat, Nat.mod_eq_of_lt hopc]
  calc w &&& (sh.row opc).mask = (sh.row opc).pattern
    _ ↔ packFields (w.extractLsb' 26 6) (w.extractLsb' 22 4) (w.extractLsb' 18 4)
          (w.extractLsb' 14 4) (w.extractLsb' 10 4) (w.extractLsb' 0 10) &&& (sh.row opc).mask =
            (sh.row opc).pattern := by rw [packFields_extract]
    _ ↔ opcOf w = opc ∧ sh.legal w = true := by
      simp only [Shape.row, packFields_and, packFields_inj, hall, hop, Shape.legal_iff,
        FieldKind.legal_iff]

end Sys2Proof.Machine
end

section
/-! SUPPORT. What `decode` answers, by the table (30_encoding.md R86-R88). -/

namespace Sys2Proof.Machine

theorem decode_of_undefined {w : Word} (h : rowOf (opcOf w) = none) :
    decode w = .error .undefinedOpcode := by
  simp only [decode, h]

theorem exists_applyRow {w : Word} {r : Row} (h : rowOf (opcOf w) = some r) :
    ∃ i, applyRow (opcOf w) w = some i := by
  rw [← Option.isSome_iff_exists, applyRow_isSome, h]
  rfl

/-- A word of a defined opcode decodes to its row, applied, or breaks a field constraint. -/
theorem decode_of_shape {w : Word} {sh : Shape} (h : shapeOf (opcOf w) = some sh) :
    ∃ i, applyRow (opcOf w) w = some i ∧
      decode w = if sh.legal w = true then .ok i else .error .fieldConstraint := by
  have hrow : rowOf (opcOf w) = some (sh.row (opcOf w)) := by rw [rowOf_eq_shapeOf, h]; rfl
  obtain ⟨i, hi⟩ := exists_applyRow hrow
  refine ⟨i, hi, ?_⟩
  simp only [decode_of_row hrow hi, sh.passes_row_iff (lt_of_shapeOf h), true_and]

/-- A word that decodes has a defined opcode, breaks no field constraint, and is its row applied. -/
theorem decode_ok_inv {w : Word} {i : Instr} (h : decode w = .ok i) :
    ∃ sh, shapeOf (opcOf w) = some sh ∧ sh.legal w = true ∧ applyRow (opcOf w) w = some i := by
  cases hs : shapeOf (opcOf w) with
  | none =>
    rw [decode_of_undefined (by rw [rowOf_eq_shapeOf, hs]; rfl)] at h
    cases h
  | some sh =>
    obtain ⟨j, hj, hd⟩ := decode_of_shape hs
    rw [hd] at h
    split_ifs at h with hl
    cases h
    exact ⟨sh, rfl, hl, hj⟩

end Sys2Proof.Machine
end

section
/-! SUPPORT. From an instruction to its word and back: each operand field, each flag field, and the row of
the table applied (30_encoding.md R81-R85). -/

namespace Sys2Proof.Machine

/-! ### Operand and flag fields of a word -/

theorem vBits_vField (w : Word) (lo : Nat) : vBits (vField w lo) = w.extractLsb' lo 4 := by
  apply BitVec.eq_of_toNat_eq
  simp [vField]

/-- A `p` field gives back its operand when its bit 3 is clear (30_encoding.md R85). -/
theorem pBits_pField {w : Word} {lo : Nat} (h : FieldKind.p.legal (w.extractLsb' lo 4) = true) :
    pBits (pField w lo) = w.extractLsb' lo 4 := by
  have hsmall : ∀ f : BitVec 4, FieldKind.p.legal f = true → f.toNat < 8 := by decide
  have hlt := hsmall _ h
  apply BitVec.eq_of_toNat_eq
  rw [BitVec.extractLsb'_toNat] at hlt ⊢
  simp only [pBits_toNat, pField, Fin.ofNat]
  omega

theorem isEven_vField (w : Word) (lo : Nat) :
    (vField w lo).isEven = FieldKind.e.legal (w.extractLsb' lo 4) := by
  have heven : ∀ r : VReg, r.isEven = FieldKind.e.legal (vBits r) := by decide
  rw [heven, vBits_vField]

/-- A flag of a word, put back in its place, is that bit of `FL`. -/
theorem flagBit_flag (w : Word) {k : Nat} (hk : k < 10) :
    flagBit (flag w k) k = w.extractLsb' 0 10 &&& BitVec.twoPow 10 k := by
  have hbit : (w.extractLsb' 0 10).getLsbD k = flag w k := by simp [flag, hk]
  rw [BitVec.and_twoPow, hbit]
  rfl

theorem flagM_modulusFlag (w : Word) : (modulusFlag w).flagM = flagBit (flag w 0) 0 := by
  unfold modulusFlag
  cases flag w 0 <;> rfl

/-- When no flag but the allowed ones is set, the allowed ones are all of `FL`. -/
theorem and_flags_eq {fl flags : BitVec 10} (h : fl &&& ~~~flags = 0) : fl &&& flags = fl := by
  have hsplit : fl &&& flags ||| fl &&& ~~~flags = fl := by
    rw [← BitVec.and_or_distrib_left, BitVec.or_not_self, BitVec.and_allOnes]
  simpa [h] using hsplit

/-! ### Encoding a decoded word -/

/-- The field at bit `lo` of `w`, read as an operand of its kind and written again. -/
def FieldKind.reencode (k : FieldKind) (w : Word) (lo : Nat) : BitVec 4 :=
  match k with
  | .unused => 0
  | .v => vBits (vField w lo)
  | .e => vBits (vField w lo)
  | .p => pBits (pField w lo)

/-- A field that is legal for its kind is written as it was read. -/
theorem FieldKind.reencode_of_legal {k : FieldKind} {w : Word} {lo : Nat}
    (h : k.legal (w.extractLsb' lo 4) = true) : k.reencode w lo = w.extractLsb' lo 4 := by
  cases k with
  | unused => exact (eq_of_beq h).symm
  | v => exact vBits_vField w lo
  | e => exact vBits_vField w lo
  | p => exact pBits_pField h

/-- The word `w` of a row, its operands and allowed flags read and written again. -/
def Shape.reencode (sh : Shape) (w : Word) : Word :=
  packFields (BitVec.ofNat 6 (opcOf w)) (sh.rd.reencode w rdLo) (sh.ra.reencode w raLo)
    (sh.rb.reencode w rbLo) (sh.rc.reencode w rcLo) (w.extractLsb' 0 10 &&& sh.flags)

/-- A legal word is written as it was read. -/
theorem Shape.reencode_of_legal {sh : Shape} {w : Word} (h : sh.legal w = true) :
    sh.reencode w = w := by
  obtain ⟨hd, ha, hb, hc, hfl⟩ := (sh.legal_iff w).mp h
  have hop : BitVec.ofNat 6 (opcOf w) = w.extractLsb' 26 6 := by
    rw [opcOf_eq_extract, BitVec.ofNat_toNat, BitVec.setWidth_eq]
  simp only [Shape.reencode, rdLo, raLo, rbLo, rcLo, hop, FieldKind.reencode_of_legal hd,
    FieldKind.reencode_of_legal ha, FieldKind.reencode_of_legal hb, FieldKind.reencode_of_legal hc,
    and_flags_eq hfl, packFields_extract]

/-- The row of an opcode reads each field by the kind the field table gives it, and a legal word's `e`
fields name even registers. -/
theorem encode_of_applyRow {w : Word} {sh : Shape} {i : Instr} (hsh : shapeOf (opcOf w) = some sh)
    (hi : applyRow (opcOf w) w = some i) :
    encode i = sh.reencode w ∧ (sh.legal w = true → i.WellFormed) := by
  unfold applyRow at hi
  split at hi
  on_goal 18 => cases hi
  all_goals
    rename_i hopc
    rw [hopc] at hsh
    cases hi
    cases hsh
    refine ⟨by simp [encode, Shape.reencode, FieldKind.reencode, hopc, flagM_modulusFlag,
      flagBit_flag, ← BitVec.and_or_distrib_left, BitVec.twoPow], fun hlegal => ?_⟩
    obtain ⟨hrd, -, hrb, -, -⟩ := (Shape.legal_iff _ w).mp hlegal
  case h_16 => exact (isEven_vField w rdLo).trans hrd
  case h_17 => exact (isEven_vField w rbLo).trans hrb
  all_goals rfl

/-! ### Decoding an encoded instruction -/

/-- The word of a well-formed instruction stands in its row of the table (30_encoding.md R89). -/
theorem encodeRow (i : Instr) : Laws.EncodeRow.Statement i := by
  cases i with
  | nop => exact Laws.EncodeRow.nop
  | fred m neg vd va => exact Laws.EncodeRow.fred m neg vd va
  | finv m neg vd va => exact Laws.EncodeRow.finv m neg vd va
  | fadd m vd va vb => exact Laws.EncodeRow.fadd m vd va vb
  | fsub m vd va vb => exact Laws.EncodeRow.fsub m vd va vb
  | fmul m vd va vb => exact Laws.EncodeRow.fmul m vd va vb
  | padd pd pa pb => exact Laws.EncodeRow.padd pd pa pb
  | pdbl pd pa => exact Laws.EncodeRow.pdbl pd pa
  | pneg pd pa => exact Laws.EncodeRow.pneg pd pa
  | pchk pa => exact Laws.EncodeRow.pchk pa
  | peq pa pb => exact Laws.EncodeRow.peq pa pb
  | pldg pd => exact Laws.EncodeRow.pldg pd
  | pmul neg pd pa vk => exact Laws.EncodeRow.pmul neg pd pa vk
  | pord vd pa => exact Laws.EncodeRow.pord vd pa
  | htrunc vd vh => exact Laws.EncodeRow.htrunc vd vh
  | sign vd vh vkey vk => exact Laws.EncodeRow.sign vd vh vkey vk
  | verify rovf sovf vh vr pq => exact Laws.EncodeRow.verify rovf sovf vh vr pq

theorem getElem_flagBit (b : Bool) {k n : Nat} (hn : n < 10) :
    (flagBit b k)[n] = (b && decide (n = k)) := by
  cases b with
  | false => simp [flagBit]
  | true => simp [flagBit, BitVec.getElem_twoPow, eq_comm]

theorem getElem_flagM (m : Modulus) {n : Nat} (hn : n < 10) :
    m.flagM[n] = (decide (m = .n) && decide (n = 0)) := by
  cases m with
  | p => simp [Modulus.flagM]
  | n => simp [Modulus.flagM]

theorem modulusFlag_packFields (opc : BitVec 6) (rd ra rb rc : BitVec 4) (fl : BitVec 10) :
    modulusFlag (packFields opc rd ra rb rc fl) = if fl[0] then .n else .p := by
  rw [modulusFlag, flag_packFields _ _ _ _ _ _ 0 (by decide), BitVec.getLsbD_eq_getElem]

theorem ite_eq_modulus (m : Modulus) : (if m = .n then Modulus.n else .p) = m := by
  cases m <;> rfl

/-- The row of an encoded instruction, applied to its word, is the instruction. -/
theorem applyRow_encode (i : Instr) : applyRow (opcOf (encode i)) (encode i) = some i := by
  cases i <;>
    simp [encode, applyRow, vField_rd, vField_ra, vField_rb, vField_rc, pField_rd, pField_ra,
      pField_rb, pField_rc, flag_packFields, modulusFlag_packFields, getElem_flagBit, getElem_flagM,
      ite_eq_modulus]

/-- Decoding gives back every well-formed instruction. -/
theorem decode_encode {i : Instr} (h : i.WellFormed) : decode (encode i) = .ok i := by
  obtain ⟨row, hrow, hpass⟩ := encodeRow i h
  rw [decode_of_row hrow (applyRow_encode i), if_pos hpass]

end Sys2Proof.Machine
end

section
/-! SUPPORT. Words that do not decode: how they complete, and that the assembler emits none
(30_encoding.md R86, R90, R91). -/

namespace Sys2Proof.Machine

/-- The undefined opcodes of 30_encoding.md R84 have no row. -/
theorem rowOf_of_undefined {opc : Nat}
    (h : opc ∈ [0x06, 0x07, 0x0E, 0x0F, 0x12, 0x13, 0x14, 0x15, 0x16, 0x17] ∨ 0x1B ≤ opc) :
    rowOf opc = none := by
  rcases h with h | h
  · revert opc
    decide
  · unfold rowOf
    split
    on_goal 18 => rfl
    all_goals omega

/-- A running word that does not decode completes with EILLEGAL and its sub-code. -/
theorem engineStep_of_illegal {s : State} {e : DecodeError} (hb : s.busy = true)
    (hd : decode s.cmdreg = .error e) : ∃ t, engineStep s = .next t ∧ s.Fails t 1 e.info := by
  refine ⟨s.takeIllegal e, ?_, takeError_fails s .eillegal e.info⟩
  simp only [engineStep, hb, hd, if_true]

/-- The assembler checks the commands it emits. -/
theorem wf_of_assembleInstr {name : List Char} {ops : List (List Char)} {i : Instr}
    (h : assembleInstr name ops = some i) : i.WellFormed := by
  have hchecked : ∀ o : Option Instr,
      (match o with | some j => if j.wf then some j else none | none => none) = some i →
        i.WellFormed := by
    rintro (_ | j) hj
    · cases hj
    · dsimp only at hj
      split_ifs at hj with hw
      exact Option.some.inj hj ▸ hw
  exact hchecked _ h

/-- A pseudo-instruction stands for well-formed commands only. -/
theorem wf_of_mem_expand {ps : Pseudo} {i : Instr} (h : i ∈ ps.expand) : i.WellFormed := by
  have hall : ps.expand.all Instr.wf = true := by cases ps <;> rfl
  exact List.all_eq_true.mp hall i h

/-- Every word of a command line without `.word` is the word of a well-formed command. -/
theorem wf_of_assembleWords {name : List Char} {ops : List (List Char)} {ws : List Word}
    (hname : isName name ".word" = false) (h : assembleWords name ops = some ws) {w : Word}
    (hw : w ∈ ws) : ∃ i : Instr, i.WellFormed ∧ w = encode i := by
  unfold assembleWords at h
  split at h
  · next i hi =>
    cases h
    exact ⟨i, wf_of_assembleInstr hi, List.mem_singleton.mp hw⟩
  · split at h
    · next ps _ =>
      split_ifs at h
      cases h
      obtain ⟨i, hi, rfl⟩ := List.mem_map.mp hw
      exact ⟨i, wf_of_mem_expand hi, rfl⟩
    · simp [hname] at h

end Sys2Proof.Machine
end

section
/-! SUPPORT. A host program of writes, and the eight writes that load a register (30_encoding.md R92,
20_memory.md R62). -/

namespace Sys2Proof.Machine

/-- The host's write of `imm`'s word `w` to the register whose words stand from the offset `base` on. -/
def writeLoadWord (base : Nat) (imm : Val) (s : State) (w : Fin 8) : State :=
  hostWrite s (s.cfg.base + (base + 4 * w.val)) .w32 (getWord imm w)

/-- The host alone runs the rest of a load, one access for each word. -/
theorem runScript_load (base : Nat) (imm : Val) (reads : List Word) (pre : List HostOp)
    (ws : List (Fin 8)) (s : State) :
    runScript (pre ++ ws.map fun w => .write (base + 4 * w.val) (getWord imm w))
        (List.replicate ws.length false) ⟨pre.length, reads⟩ s =
      (⟨pre.length + ws.length, reads⟩, ws.foldl (writeLoadWord base imm) s) := by
  induction ws generalizing pre s with
  | nil => rfl
  | cons w ws ih =>
    have hstep := ih (pre ++ [.write (base + 4 * w.val) (getWord imm w)]) (writeLoadWord base imm s w)
    simp only [List.append_assoc, List.singleton_append, List.length_append, List.length_singleton,
      Nat.add_assoc, Nat.add_comm 1] at hstep
    simpa [List.replicate_succ, runScript, Driver.step, writeLoadWord] using hstep

/-- `x` with its word `w` taken from `imm`. -/
def setWordOf (imm x : Val) (w : Fin 8) : Val := setWord x w (getWord imm w)

/-- Writing words of `imm` over a value leaves those words `imm`'s and the others as they were. -/
theorem getWord_foldl_setWord (imm : Val) (ws : List (Fin 8)) (x : Val) (u : Fin 8) :
    getWord (ws.foldl (setWordOf imm) x) u =
      if u ∈ ws then getWord imm u else getWord x u := by
  induction ws generalizing x with
  | nil => simp
  | cons w ws ih =>
    rw [List.foldl_cons, ih, setWordOf, getWord_setWord]
    by_cases hu : u = w
    · subst hu
      simp
    · simp [hu, Ne.symm hu]

/-- All eight words of `imm` over any value make `imm`. -/
theorem foldl_setWord_all (imm x : Val) :
    (List.finRange 8).foldl (setWordOf imm) x = imm :=
  val_ext fun u => by rw [getWord_foldl_setWord, if_pos (List.mem_finRange u)]

/-- A host write to a word from the offset `base` on sets that word of a register: `put r x` is the state
whose register is `x` and whose last answer is `r`. -/
def WritesWords (base : Nat) (put : BusResponse → Val → State) : Prop :=
  ∀ (r : BusResponse) (x : Val) (w : Fin 8) (v : Word),
    hostWrite (put r x) ((put r x).cfg.base + (base + 4 * w.val)) .w32 v =
      put .writeDone (setWord x w v)

/-- The writes of a load set one word of the register after the other. -/
theorem foldl_writeLoadWord {base : Nat} {put : BusResponse → Val → State}
    (hput : WritesWords base put) (imm : Val) (w : Fin 8) (ws : List (Fin 8)) (r : BusResponse)
    (x : Val) :
    (w :: ws).foldl (writeLoadWord base imm) (put r x) =
      put .writeDone ((w :: ws).foldl (setWordOf imm) x) := by
  induction ws generalizing w r x with
  | nil => exact hput r x w _
  | cons w' ws ih =>
    have hfirst : writeLoadWord base imm (put r x) w = put .writeDone (setWordOf imm x w) :=
      hput r x w _
    rw [List.foldl_cons, hfirst, ih]
    rfl

/-- A load puts `imm` in the register, and the host stands at the next step. -/
theorem runScript_loadOps {base : Nat} {put : BusResponse → Val → State}
    (hput : WritesWords base put) (imm : Val) (reads : List Word) (r : BusResponse) (x : Val) :
    runScript (loadOps base imm) (List.replicate 8 false) ⟨0, reads⟩ (put r x) =
      (⟨8, reads⟩, put .writeDone imm) := by
  have hrun := runScript_load base imm reads [] (List.finRange 8) (put r x)
  have hwrites : (List.finRange 8).foldl (writeLoadWord base imm) (put r x) = put .writeDone imm := by
    rw [List.finRange_succ, foldl_writeLoadWord hput, ← List.finRange_succ, foldl_setWord_all]
  rw [hwrites] at hrun
  exact hrun

/-! ### The registers that a load sets -/

/-- `V[i]` holds `x`, and the last answer is `r`. -/
def State.loadedV (s : State) (i : VReg) (r : BusResponse) (x : Val) : State :=
  { s.writeV i x with response := r }

/-- `CUR.q` holds `x`, and the last answer is `r`. -/
def State.loadedCur (s : State) (q : CurReg) (r : BusResponse) (x : Val) : State :=
  { s with cur := s.cur.set q x, response := r }

theorem loadedV_self (s : State) (i : VReg) : s.loadedV i s.response (s.readV i) = s := by
  simp [State.loadedV, State.writeV, State.readV, Vector.get_eq_getElem]

theorem loadedCur_self (s : State) (q : CurReg) : s.loadedCur q s.response (s.cur.get q) = s := by
  cases q <;> rfl

theorem writesWords_loadedV {s : State} (hb : s.busy = false) (i : VReg) :
    WritesWords (0x100 + 32 * i.val) (s.loadedV i) := by
  intro r x w v
  rw [hostWrite_ok _ (by omega) (by omega), busWrite_v, hostWriteV_of_idle (s := s.loadedV i r x) hb]
  simp [State.loadedV, State.writeV, State.readV, Vector.get_eq_getElem]

theorem writesWords_loadedCur {s : State} (hb : s.busy = false) (hs : s.sealed = false)
    (q : CurReg) : WritesWords (0x300 + 32 * q.index) (s.loadedCur q) := by
  intro r x w v
  have hq : q.index < 7 := by cases q <;> decide
  rw [hostWrite_ok _ (by omega) (by omega), busWrite_cur,
    hostWriteCur_of_idle (s := s.loadedCur q r x) hb hs]
  cases q <;> rfl

end Sys2Proof.Machine
end

section
/-! The statements of the encoding (30_encoding.md), settled. -/

open Sys2Proof Sys2Proof.Machine

namespace Sys2Proof.Proofs

/-- Settles O2: an encoded instruction stands in its row, and that row applied to its fields is the
instruction. -/
theorem decodeOfEncode : Obligations.DecodeOfEncode := fun _ h => decode_encode h

/-- Settles O3: a word that decodes passes its row, which forces every bit that is in no operand or flag
of the instruction. -/
theorem encodeOfDecode : Obligations.EncodeOfDecode := by
  intro w i h
  obtain ⟨sh, hsh, hlegal, hi⟩ := decode_ok_inv h
  obtain ⟨hencode, hwf⟩ := encode_of_applyRow hsh hi
  exact ⟨hencode.trans (Shape.reencode_of_legal hlegal), hwf hlegal⟩

/-- Settles O4: the row that a word passes is the row of its opcode. -/
theorem decodeIsTheMatchMaskTable : Obligations.DecodeIsTheMatchMaskTable := by
  refine ⟨fun w => decode_of_undefined, fun w r hr hfail => ?_, fun w r hr hpass => ?_,
    fun w opc r hr hpass => ?_⟩
  · obtain ⟨i, hi⟩ := exists_applyRow hr
    rw [decode_of_row hr hi, if_neg hfail]
  · obtain ⟨i, hi⟩ := exists_applyRow hr
    exact ⟨i, hi, by rw [decode_of_row hr hi, if_pos hpass]⟩
  · rw [rowOf_eq_shapeOf] at hr
    obtain ⟨sh, hsh, rfl⟩ := Option.map_eq_some_iff.mp hr
    obtain ⟨rfl, hlegal⟩ := (sh.passes_row_iff (lt_of_shapeOf hsh) w).mp hpass
    obtain ⟨i, -, hd⟩ := decode_of_shape hsh
    exact ⟨rfl, i, by rw [hd, if_pos hlegal]⟩

/-- Settles O5: the row's mask holds exactly the field constraints. -/
theorem illegalExactlyOnBrokenField : Obligations.IllegalExactlyOnBrokenField := by
  intro w sh hsh
  obtain ⟨i, -, hd⟩ := decode_of_shape hsh
  rw [hd]
  cases sh.legal w <;> simp

/-- Settles O59: each of the eight writes sets its word of the register. -/
theorem scriptLoadsARegister : Obligations.ScriptLoadsARegister := by
  intro labels pos reads s imm hb
  refine ⟨fun i => ?_, fun hs r => ?_⟩
  · have hload := runScript_loadOps (writesWords_loadedV hb i) imm reads s.response (s.readV i)
    rwa [loadedV_self] at hload
  · have hload := runScript_loadOps (writesWords_loadedCur hb hs r) imm reads s.response (s.cur.get r)
    rwa [loadedCur_self] at hload

/-- Settles O60: the assembler emits words of well-formed commands, and those decode. -/
theorem assemblerEmitsLegalWords : Obligations.AssemblerEmitsLegalWords := by
  intro name ops ws hname h w hw
  obtain ⟨i, hi, rfl⟩ := wf_of_assembleWords hname h hw
  exact ⟨i, decode_encode hi⟩

/-- Settles O1, by evaluating `decode` on each word. -/
theorem decodeReadsSpecWords : Obligations.DecodeReadsSpecWords := by
  unfold Obligations.DecodeReadsSpecWords
  decide

/-- Settles O6: an undefined opcode has no row. -/
theorem undefinedOpcodeCompletesIllegal : Obligations.UndefinedOpcodeCompletesIllegal := by
  intro s w hb hopc
  have hd : decode w = .error .undefinedOpcode := decode_of_undefined (rowOf_of_undefined hopc)
  rw [issue_of_idle hb]
  exact ⟨rfl, rfl, engineStep_of_illegal (s := s.accept w) rfl hd⟩

/-- Settles O8: the step is the engine's, which takes the word's decode error. -/
theorem illegalWordCompletes : Obligations.IllegalWordCompletes := by
  intro s e rest hb hd hn
  rw [step_of_engineNext hn]
  have hfails := engineStep_of_illegal (s := { s with events := rest }) hb hd
  cases e <;> exact hfails

end Sys2Proof.Proofs
end

section
/-! SUPPORT. The modular inverse by integers and congruences: when it exists, what determines it, and its
value for a prime modulus (40_field.md R101). -/

namespace Sys2Proof.Machine

theorem gcd_modNat (a : Int) {m : Nat} (hm : 0 < m) : Nat.gcd (modNat a m) m = Int.gcd a m := by
  rw [← Int.gcd_natCast_natCast, modNat_cast a hm, Int.gcd_emod]

/-- The inverse is missing exactly when the number and the modulus have a common factor. -/
theorem modInv_eq_none_iff_gcd {a : Int} {m : Nat} (hm : 0 < m) :
    modInv a m = none ↔ Int.gcd a m ≠ 1 := by
  rw [modInv_eq_none, gcd_modNat a hm]

theorem exists_modInv_iff_gcd {a : Int} {m : Nat} (hm : 0 < m) :
    (∃ b, modInv a m = some b) ↔ Int.gcd a m = 1 := by
  rw [← Option.ne_none_iff_exists', Ne, modInv_eq_none_iff_gcd hm, not_not]

theorem emod_eq_one_iff {x : Int} {m : Nat} (hm : 2 ≤ m) : x % m = 1 ↔ x ≡ 1 [ZMOD m] := by
  rw [Int.ModEq, Int.emod_eq_of_lt (a := 1) (by omega) (by omega)]

/-- A number with an inverse modulo `m` has no common factor with `m`. -/
theorem gcd_eq_one_of_inverse {a b : Int} {m : Nat} (h : a * b ≡ 1 [ZMOD m]) : Int.gcd a m = 1 := by
  obtain ⟨k, hk⟩ := Int.modEq_iff_add_fac.mp h
  exact Int.isCoprime_iff_gcd_eq_one.mp ⟨b, k, by linarith⟩

/-- Whatever is below the modulus and inverts the number is its `Inv`. -/
theorem modInv_eq_some_iff {a : Int} {m b : Nat} (hm : 2 ≤ m) :
    modInv a m = some b ↔ b < m ∧ a * (b : Int) ≡ 1 [ZMOD m] := by
  constructor
  · intro h
    obtain ⟨-, hlt, hinv⟩ := modInv_some hm h
    exact ⟨hlt, hinv⟩
  · rintro ⟨hlt, hinv⟩
    obtain ⟨b', hb'⟩ := (exists_modInv_iff_gcd (by omega)).mpr (gcd_eq_one_of_inverse hinv)
    obtain ⟨-, hlt', hinv'⟩ := modInv_some hm hb'
    rw [hb', inverse_unique hlt hlt' hinv hinv']

theorem isCoprime_iff_emod_ne_zero {a : Int} {p : Nat} (hp : p.Prime) :
    IsCoprime a p ↔ a % p ≠ 0 := by
  rw [isCoprime_comm, (Nat.prime_iff_prime_int.mp hp).irreducible.coprime_iff_not_dvd,
    Int.dvd_iff_emod_eq_zero]

/-- Fermat's little theorem gives the inverse modulo a prime. -/
theorem modInv_of_prime {a : Int} {p : Nat} (hp : p.Prime) (ha : a % p ≠ 0) :
    modInv a p = some (modNat a p ^ (p - 2) % p) := by
  refine (modInv_eq_some_iff hp.two_le).mpr ⟨Nat.mod_lt _ hp.pos, ?_⟩
  have hexp : p - 2 + 1 = p - 1 := by have := hp.two_le; omega
  have hpow : ((modNat a p ^ (p - 2) % p : Nat) : Int) ≡ a ^ (p - 2) [ZMOD p] := by
    push_cast
    exact (Int.mod_modEq _ _).trans ((modNat_modEq a hp.pos).pow _)
  calc a * ((modNat a p ^ (p - 2) % p : Nat) : Int)
      ≡ a * a ^ (p - 2) [ZMOD p] := hpow.mul_left a
    _ = a ^ (p - 1) := by rw [← pow_succ', hexp]
    _ ≡ 1 [ZMOD p] := Int.ModEq.pow_card_sub_one_eq_one hp ((isCoprime_iff_emod_ne_zero hp).mpr ha)

end Sys2Proof.Machine
end

section
/-! SUPPORT. The outcome of each field command on a usable configuration, and what `exec` leaves for an
outcome of its shape (40_field.md R102-R106). -/

namespace Sys2Proof.Machine

/-! ### Outcomes -/

section
variable {s : State} (h : s.cur.Ok) (m : Modulus) (neg : Bool) (vd va vb : VReg)
include h

theorem cmdOf_fred_of_ok :
    cmdOf (.fred m neg vd va) s =
      .ok (writesV vd (modNat (s.signed neg va) (s.cur.modulus m))) := by
  simp [cmdOf, fredCmd, checkCfg_of_ok h]

theorem cmdOf_fadd_of_ok : cmdOf (.fadd m vd va vb) s =
    .ok (writesV vd (modNat ((s.nat va : Int) + s.nat vb) (s.cur.modulus m))) := by
  simp [cmdOf, faddCmd, checkCfg_of_ok h]

theorem cmdOf_fsub_of_ok : cmdOf (.fsub m vd va vb) s =
    .ok (writesV vd (modNat ((s.nat va : Int) - s.nat vb) (s.cur.modulus m))) := by
  simp [cmdOf, fsubCmd, checkCfg_of_ok h]

theorem cmdOf_fmul_of_ok : cmdOf (.fmul m vd va vb) s =
    .ok (writesV vd (modNat ((s.nat va : Int) * s.nat vb) (s.cur.modulus m))) := by
  simp [cmdOf, fmulCmd, checkCfg_of_ok h]

theorem cmdOf_finv_of_some {b : Nat} (hb : modInv (s.signed neg va) (s.cur.modulus m) = some b) :
    cmdOf (.finv m neg vd va) s = .ok (writesV vd b) := by
  simp [cmdOf, finvCmd, checkCfg_of_ok h, hb]

theorem cmdOf_finv_of_none (hb : modInv (s.signed neg va) (s.cur.modulus m) = none) :
    cmdOf (.finv m neg vd va) s = raise .earith 1 := by
  simp [cmdOf, finvCmd, checkCfg_of_ok h, hb]

end

/-! ### What `exec` leaves -/

/-- A command whose outcome is one operand register leaves its value there, and changes nothing else but
the report. -/
theorem exec_writesV {i : Instr} {s : State} {vd : VReg} {x : Nat} (hx : x < 2 ^ 256)
    (h : cmdOf i s = .ok (writesV vd x)) :
    ∃ t, exec i s = .next t ∧ (t.readV vd).toNat = x ∧
      s.OnlyV t [vd] ∧ s.SameControl t ∧ t.Reports 0 0 false := by
  obtain ⟨hread, hframe, hreport⟩ := complete_writesV s vd hx
  exact ⟨_, by rw [exec_eq_complete, h], hread, hframe, complete_control s _, hreport⟩

/-- A command whose outcome is a remainder by the selected modulus leaves that remainder. -/
theorem exec_writes_remainder {i : Instr} {s : State} (hok : s.cur.Ok) (m : Modulus) {vd : VReg}
    {x : Int} (h : cmdOf i s = .ok (writesV vd (modNat x (s.cur.modulus m)))) :
    ∃ t, exec i s = .next t ∧ ((t.readV vd).toNat : Int) = x % (s.cur.modulus m : Int) ∧
      s.OnlyV t [vd] ∧ s.SameControl t ∧ t.Reports 0 0 false := by
  have hpos : 0 < s.cur.modulus m := Nat.zero_lt_of_lt (modulus_ge_two hok m)
  obtain ⟨t, ht, hread, hrest⟩ := exec_writesV ((modNat_lt x hpos).trans (modulus_lt s.cur m)) h
  exact ⟨t, ht, by rw [hread, modNat_cast x hpos], hrest⟩

/-- A command that raises an error leaves the state before it with that report. -/
theorem exec_raises {i : Instr} {s : State} {c : ErrCode} {k : Nibble} (h : cmdOf i s = raise c k) :
    ∃ t, exec i s = .next t ∧ s.Fails t c.code k :=
  ⟨_, by rw [exec_eq_complete, h, raise, complete_raise], takeError_fails s c k⟩

end Sys2Proof.Machine
end

section
/-! The statements of the field arithmetic (40_field.md), settled. -/

open Sys2Proof Sys2Proof.Machine

namespace Sys2Proof.Proofs

/-- Settles O24: FRED's outcome is the remainder of the signed source. -/
theorem fredResult : Obligations.FredResult := by
  intro m neg vd va s hok
  exact exec_writes_remainder hok m (cmdOf_fred_of_ok hok m neg vd va)

/-- Settles O25: each command's outcome is the remainder of the exact integer result. -/
theorem sumDifferenceProductResults : Obligations.SumDifferenceProductResults := by
  intro m vd va vb s hok
  exact ⟨exec_writes_remainder hok m (cmdOf_fadd_of_ok hok m vd va vb),
    exec_writes_remainder hok m (cmdOf_fsub_of_ok hok m vd va vb),
    exec_writes_remainder hok m (cmdOf_fmul_of_ok hok m vd va vb)⟩

/-- Settles O26: FINV's outcome is the inverse of the signed source where there is one. -/
theorem finvResult : Obligations.FinvResult := by
  rintro m neg vd va s x hok rfl
  have hm := modulus_ge_two hok m
  refine ⟨fun hgcd => ?_, fun hgcd => ?_⟩
  · obtain ⟨b, hb⟩ := (exists_modInv_iff_gcd (by omega)).mpr hgcd
    obtain ⟨hpos, hlt, hinv⟩ := modInv_some hm hb
    obtain ⟨t, ht, rfl, hrest⟩ :=
      exec_writesV (hlt.trans (modulus_lt s.cur m)) (cmdOf_finv_of_some hok m neg vd va hb)
    exact ⟨t, ht, hpos, hlt, (emod_eq_one_iff hm).mpr hinv, hrest⟩
  · exact exec_raises
      (cmdOf_finv_of_none hok m neg vd va ((modInv_eq_none_iff_gcd (by omega)).mpr hgcd))

/-- Settles O27: the inverse is what is below the modulus and inverts the number; for a prime modulus
Fermat's little theorem gives one. -/
theorem inverseContract : Obligations.InverseContract := by
  intro a m hm
  have hpos : 0 < m := by omega
  refine ⟨?_, fun b => ?_, fun hp => ?_, modInv_of_prime⟩
  · rw [exists_modInv_iff_gcd hpos, Int.gcd_emod]
  · have hres : a % m * b % m = a * b % m := (Int.mod_modEq a m).mul_right b
    rw [hres, emod_eq_one_iff hm]
    exact ⟨modInv_some hm, fun ⟨_, hlt, hinv⟩ => (modInv_eq_some_iff hm).mpr ⟨hlt, hinv⟩⟩
  · rw [modInv_eq_none_iff_gcd hpos, Ne, ← Int.isCoprime_iff_gcd_eq_one,
      isCoprime_iff_emod_ne_zero hp, not_not]

end Sys2Proof.Proofs
end

section
/-! SUPPORT. Division modulo `m`, the slopes of `Add` as quotients, and each case of `Add`
(41_point.md R121). -/

namespace Sys2Proof.Machine

/-! ### Quotients modulo `m` -/

/-- The quotient `num / den mod m`; `none` where the divisor has no inverse (40_field.md R101). -/
def modDiv (num den : Int) (m : Nat) : Option Nat :=
  (modInv den m).map fun i : Nat => modNat (num * i) m

theorem modDiv_eq_none_iff {num den : Int} {m : Nat} (hm : 0 < m) :
    modDiv num den m = none ↔ Int.gcd den m ≠ 1 := by
  rw [modDiv, Option.map_eq_none_iff, modInv_eq_none_iff_gcd hm]

/-- The quotient solves `den · l = num`. -/
theorem modDiv_some {num den : Int} {m l : Nat} (hm : 2 ≤ m) (h : modDiv num den m = some l) :
    den * l ≡ num [ZMOD m] := by
  obtain ⟨i, hi, rfl⟩ := Option.map_eq_some_iff.mp h
  obtain ⟨-, -, hinv⟩ := modInv_some hm hi
  calc den * (modNat (num * i) m : Nat)
      ≡ den * (num * i) [ZMOD m] := (modNat_modEq _ (by omega)).mul_left den
    _ = num * (den * i) := by ring
    _ ≡ num * 1 [ZMOD m] := hinv.mul_left num
    _ = num := mul_one num

/-- By an invertible divisor there is a quotient. -/
theorem exists_modDiv {num den : Int} {m : Nat} (hm : 2 ≤ m) (hgcd : Int.gcd den m = 1) :
    ∃ l, modDiv num den m = some l ∧ den * l ≡ num [ZMOD m] := by
  obtain ⟨l, hl⟩ := Option.ne_none_iff_exists'.mp
    fun h => (modDiv_eq_none_iff (num := num) (by omega)).mp h hgcd
  exact ⟨l, hl, modDiv_some hm hl⟩

/-- Every solution of `den · lam = num` is the quotient up to multiples of `m`. -/
theorem exists_modDiv_modEq {num den lam : Int} {m : Nat} (hm : 2 ≤ m) (hgcd : Int.gcd den m = 1)
    (hlam : den * lam ≡ num [ZMOD m]) :
    ∃ l, modDiv num den m = some l ∧ (l : Int) ≡ lam [ZMOD m] := by
  obtain ⟨l, hl, hsol⟩ := exists_modDiv (num := num) hm hgcd
  have hdvd : (m : Int) ∣ den * (lam - l) := by
    rw [mul_sub]
    exact (hsol.trans hlam.symm).dvd
  have hcop : IsCoprime (m : Int) den := (Int.isCoprime_iff_gcd_eq_one.mpr hgcd).symm
  exact ⟨l, hl, Int.modEq_iff_dvd.mpr (hcop.dvd_of_dvd_mul_left hdvd)⟩

/-! ### The slopes -/

theorem tangent_eq_modDiv (c : Curve) (x1 y1 : Nat) :
    c.tangent x1 y1 =
      modDiv (3 * (x1 : Int) ^ 2 + 2 * c.a.toNat * x1 + c.b.toNat) (2 * y1) c.p.toNat := by
  rw [pow_two, Curve.tangent, modDiv]
  cases modInv (2 * (y1 : Int)) c.p.toNat <;> rfl

theorem chord_eq_modDiv (c : Curve) (x1 y1 x2 y2 : Nat) :
    c.chord x1 y1 x2 y2 = modDiv ((y2 : Int) - y1) ((x2 : Int) - x1) c.p.toNat := by
  rw [Curve.chord, modDiv]
  cases modInv ((x2 : Int) - x1) c.p.toNat <;> rfl

/-! ### The cases of `Add` -/

@[simp] theorem add_infinity_left (c : Curve) (q : Point) : c.add .infinity q = some q := rfl

@[simp] theorem add_infinity_right (c : Curve) (q : Point) : c.add q .infinity = some q := by
  cases q <;> rfl

/-- The vertical line. -/
theorem add_of_y_ne (c : Curve) (x : Nat) {y1 y2 : Nat} (h : y1 ≠ y2) :
    c.add (.affine x y1) (.affine x y2) = some .infinity := by
  simp [Curve.add, h]

/-- A point that is its own inverse. -/
theorem add_self_of_y_zero (c : Curve) (x : Nat) :
    c.add (.affine x 0) (.affine x 0) = some .infinity := by
  simp [Curve.add]

/-- Doubling, by the tangent. -/
theorem add_self (c : Curve) (x : Nat) {y : Nat} (hy : y < c.p.toNat) (h0 : y ≠ 0) :
    c.add (.affine x y) (.affine x y) =
      (modDiv (3 * (x : Int) ^ 2 + 2 * c.a.toNat * x + c.b.toNat) (2 * y) c.p.toNat).map
        (c.slopeSum · x y x) := by
  rw [← tangent_eq_modDiv]
  simp only [Curve.add, ne_eq, not_true_eq_false, and_false, if_false, if_true,
    Nat.mod_eq_of_lt hy, h0]
  cases c.tangent x y <;> rfl

/-- Two points with different `x`, by the chord. -/
theorem add_of_x_ne (c : Curve) {x1 x2 : Nat} (y1 y2 : Nat) (h : x1 ≠ x2) :
    c.add (.affine x1 y1) (.affine x2 y2) =
      (modDiv ((y2 : Int) - y1) ((x2 : Int) - x1) c.p.toNat).map (c.slopeSum · x1 y1 x2) := by
  rw [← chord_eq_modDiv]
  simp only [Curve.add, h, false_and, if_false]
  cases c.chord x1 y1 x2 y2 <;> rfl

/-- The sum depends on the residue of the slope only. -/
theorem slopeSum_eq_of_modEq {c : Curve} (hp : 0 < c.p.toNat) {l x1 y1 x2 : Nat} {lam x3 y3 : Int}
    (hl : (l : Int) ≡ lam [ZMOD c.p.toNat])
    (hx3 : x3 = (lam ^ 2 - c.a.toNat - x1 - x2) % (c.p.toNat : Int))
    (hy3 : y3 = (-lam * x3 - (y1 - lam * x1)) % (c.p.toNat : Int)) :
    c.slopeSum l x1 y1 x2 = .affine x3.toNat y3.toNat := by
  have hx : modNat ((l : Int) * l - c.a.toNat - x1 - x2) c.p.toNat = x3.toNat := by
    rw [hx3, ← modNat, ← pow_two]
    exact modNat_congr ((((hl.pow 2).sub_right _).sub_right _).sub_right _)
  have hx3' : (x3.toNat : Int) = x3 :=
    Int.toNat_of_nonneg (hx3 ▸ Int.emod_nonneg _ (by omega))
  have hnu : ((modNat ((y1 : Int) - l * x1) c.p.toNat : Nat) : Int) ≡ y1 - lam * x1
      [ZMOD c.p.toNat] :=
    (modNat_modEq _ hp).trans ((hl.mul_right _).sub_left _)
  simp only [Curve.slopeSum, hx, hx3', Point.affine.injEq, true_and]
  rw [hy3, ← modNat]
  exact modNat_congr ((hl.neg.mul_right _).sub hnu)

end Sys2Proof.Machine
end

section
/-! SUPPORT. For an odd prime `p`, points in range always have the slope that `Add` needs
(41_point.md R129). -/

namespace Sys2Proof.Machine

theorem gcd_eq_one_of_not_dvd {a : Int} {p : Nat} (hp : p.Prime) (h : ¬ (p : Int) ∣ a) :
    Int.gcd a p = 1 := by
  rw [← gcd_modNat a hp.pos]
  exact gcd_modNat_of_prime hp h

/-- Different `x` below a prime: the chord's divisor is invertible. -/
theorem gcd_sub_of_lt {x1 x2 p : Nat} (hp : p.Prime) (h1 : x1 < p) (h2 : x2 < p) (h : x1 ≠ x2) :
    Int.gcd ((x2 : Int) - x1) p = 1 :=
  gcd_eq_one_of_not_dvd hp fun hd =>
    h ((Int.natCast_modEq_iff.mp (Int.modEq_iff_dvd.mpr hd)).eq_of_lt_of_lt h1 h2)

/-- A double below an odd prime is zero modulo it only for zero. -/
theorem not_dvd_two_mul {y p : Nat} (hp : p.Prime) (h2 : p ≠ 2) (hy : y < p) (h0 : y ≠ 0) :
    ¬ p ∣ 2 * y := by
  rw [hp.dvd_mul, Nat.prime_dvd_prime_iff_eq hp Nat.prime_two]
  rintro (h | h)
  · exact h2 h
  · exact h0 (Nat.eq_zero_of_dvd_of_lt h hy)

/-- The tangent's divisor is invertible modulo an odd prime. -/
theorem gcd_two_mul_of_lt {y p : Nat} (hp : p.Prime) (h2 : p ≠ 2) (hy : y < p) (h0 : y ≠ 0) :
    Int.gcd (2 * (y : Int)) p = 1 :=
  gcd_eq_one_of_not_dvd hp fun hd => not_dvd_two_mul hp h2 hy h0 (by exact_mod_cast hd)

/-- A solution of the equation of the slope that `Add` takes for these two points. -/
def Curve.IsSlope (c : Curve) (x1 y1 x2 y2 : Nat) (lam : Int) : Prop :=
  (x1 = x2 ∧ y1 = y2 ∧
    2 * (y1 : Int) * lam ≡ 3 * (x1 : Int) ^ 2 + 2 * c.a.toNat * x1 + c.b.toNat [ZMOD c.p.toNat]) ∨
  (x1 ≠ x2 ∧ ((x2 : Int) - x1) * lam ≡ (y2 : Int) - y1 [ZMOD c.p.toNat])

/-- For an odd prime `p`, the sum of two affine points in range is `Infinity` or comes from a slope. -/
theorem add_affine_of_prime {c : Curve} (hp : c.p.toNat.Prime) (h2 : c.p.toNat ≠ 2)
    {x1 y1 x2 y2 : Nat} (hP : (Point.affine x1 y1).InRange c.p.toNat)
    (hQ : (Point.affine x2 y2).InRange c.p.toNat) :
    c.add (.affine x1 y1) (.affine x2 y2) = some .infinity ∨
      ∃ l : Nat, c.IsSlope x1 y1 x2 y2 l ∧
        c.add (.affine x1 y1) (.affine x2 y2) = some (c.slopeSum l x1 y1 x2) := by
  obtain ⟨hx1, hy1⟩ := hP
  obtain ⟨hx2, -⟩ := hQ
  by_cases hx : x1 = x2
  · subst hx
    by_cases hy : y1 = y2
    · subst hy
      by_cases h0 : y1 = 0
      · subst h0
        exact .inl (add_self_of_y_zero c x1)
      · obtain ⟨l, hl, hsol⟩ := exists_modDiv hp.two_le (gcd_two_mul_of_lt hp h2 hy1 h0)
        exact .inr ⟨l, .inl ⟨rfl, rfl, hsol⟩, by rw [add_self c x1 hy1 h0, hl]; rfl⟩
    · exact .inl (add_of_y_ne c x1 hy)
  · obtain ⟨l, hl, hsol⟩ := exists_modDiv hp.two_le (gcd_sub_of_lt hp hx1 hx2 hx)
    exact .inr ⟨l, .inr ⟨hx, hsol⟩, by rw [add_of_x_ne c y1 y2 hx, hl]; rfl⟩

/-- For an odd prime `p`, points in range have a sum. -/
theorem exists_add_of_prime {c : Curve} (hp : c.p.toNat.Prime) (h2 : c.p.toNat ≠ 2) {q r : Point}
    (hq : q.InRange c.p.toNat) (hr : r.InRange c.p.toNat) : ∃ t, c.add q r = some t := by
  cases q with
  | infinity => exact ⟨r, rfl⟩
  | affine x1 y1 =>
    cases r with
    | infinity => exact ⟨_, rfl⟩
    | affine x2 y2 =>
      rcases add_affine_of_prime hp h2 hq hr with h | ⟨l, -, h⟩ <;> exact ⟨_, h⟩

/-- A sum of points in range is in range. -/
theorem add_inRange {c : Curve} (hp : 0 < c.p.toNat) {q r t : Point} (hq : q.InRange c.p.toNat)
    (hr : r.InRange c.p.toNat) (h : c.add q r = some t) : t.InRange c.p.toNat :=
  add_preserves (good := Point.InRange c.p.toNat) trivial (slopeSum_inRange hp) hq hr h

/-- A point in range and its negative add to `Infinity`. -/
theorem add_neg_of_prime {c : Curve} (hp : c.p.toNat.Prime) (h2 : c.p.toNat ≠ 2) {q : Point}
    (hq : q.InRange c.p.toNat) : c.add q (c.neg q) = some .infinity := by
  cases q with
  | infinity => rfl
  | affine x y =>
    obtain ⟨-, hy⟩ := hq
    by_cases h : y = modNat (-(y : Int)) c.p.toNat
    · have hdvd : c.p.toNat ∣ 2 * y := by
        have hneg : -(y : Int) ≡ y [ZMOD c.p.toNat] := by
          conv_rhs => rw [h]
          exact (modNat_modEq _ hp.pos).symm
        have hd : (c.p.toNat : Int) ∣ y - -(y : Int) := hneg.dvd
        rw [sub_neg_eq_add, ← two_mul] at hd
        exact_mod_cast hd
      obtain rfl : y = 0 := by_contra fun h0 => not_dvd_two_mul hp h2 hy h0 hdvd
      rw [Curve.neg, ← h]
      exact add_self_of_y_zero c x
    · exact add_of_y_ne c x h

end Sys2Proof.Machine
end

section
/-! SUPPORT. The curve equation as an equation of a ring, and the third point of a line through two points
of the curve (41_point.md R126, R129). -/

namespace Sys2Proof.Machine

/-- The right side `x³ + a·x² + b·x + c` of the curve equation, in any ring. -/
def Curve.cubic {R : Type} [CommRing R] (c : Curve) (x : R) : R :=
  x ^ 3 + c.a.toNat * x ^ 2 + c.b.toNat * x + c.c.toNat

/-- `Contains` is the curve equation modulo `p` (41_point.md R126). -/
theorem contains_affine_iff_emod {c : Curve} (hp : 0 < c.p.toNat) (x y : Nat) :
    c.contains (.affine x y) = true ↔ ((y : Int) ^ 2 - c.cubic (x : Int)) % (c.p.toNat : Int) = 0 := by
  have hform : (y : Int) * y - (x * x * x + c.a.toNat * (x * x) + c.b.toNat * x + c.c.toNat)
      = y ^ 2 - c.cubic (x : Int) := by
    simp only [Curve.cubic]
    ring
  rw [Curve.contains, hform, beq_iff_eq, modNat_eq_iff _ hp, Nat.cast_zero]

/-- `Contains` is the curve equation in the ring of residues. -/
theorem contains_affine_iff_zmod {c : Curve} (hp : 0 < c.p.toNat) (x y : Nat) :
    c.contains (.affine x y) = true ↔
      (y : ZMod c.p.toNat) ^ 2 = c.cubic (x : ZMod c.p.toNat) := by
  rw [contains_affine_iff_emod hp, ← Int.dvd_iff_emod_eq_zero, ← ZMod.intCast_zmod_eq_zero_iff_dvd,
    ← sub_eq_zero (a := (y : ZMod c.p.toNat) ^ 2)]
  simp [Curve.cubic]

theorem natCast_modNat_zmod (x : Int) {m : Nat} (hm : 0 < m) :
    ((modNat x m : Nat) : ZMod m) = x := by
  have h := (ZMod.intCast_eq_intCast_iff _ _ m).mpr (modNat_modEq x hm)
  rwa [Int.cast_natCast] at h

/-- Different numbers below `m` have different residues. -/
theorem natCast_zmod_ne {x y m : Nat} (hx : x < m) (hy : y < m) (h : x ≠ y) :
    (x : ZMod m) ≠ y := fun he =>
  h (((ZMod.natCast_eq_natCast_iff _ _ m).mp he).eq_of_lt_of_lt hx hy)

/-- The coordinates of a sum from a slope, as residues. -/
theorem exists_slopeSum_zmod {c : Curve} (hp : 0 < c.p.toNat) (l x1 y1 x2 : Nat) :
    ∃ x3 y3 : Nat, c.slopeSum l x1 y1 x2 = .affine x3 y3 ∧
      (x3 : ZMod c.p.toNat) = l ^ 2 - c.a.toNat - x1 - x2 ∧
      (y3 : ZMod c.p.toNat) = -l * x3 - (y1 - l * x1) := by
  refine ⟨_, _, rfl, ?_, ?_⟩
  · simp [natCast_modNat_zmod _ hp, pow_two]
  · simp [natCast_modNat_zmod _ hp]

section
variable {R : Type} [CommRing R] {c : Curve} {x1 y1 x2 y2 lam x3 y3 : R}

/-- The tangent meets the curve again at the sum: `(x1, y1)` is a double root of the cubic minus the
square of the line. -/
theorem tangent_sum_on_cubic (h1 : y1 ^ 2 = c.cubic x1)
    (hlam : 2 * y1 * lam = 3 * x1 ^ 2 + 2 * c.a.toNat * x1 + c.b.toNat)
    (hx3 : x3 = lam ^ 2 - c.a.toNat - x1 - x1) (hy3 : y3 = -lam * x3 - (y1 - lam * x1)) :
    y3 ^ 2 = c.cubic x3 := by
  unfold Curve.cubic at *
  subst hy3
  linear_combination h1 + (x3 - x1) * hlam - (x3 - x1) ^ 2 * hx3

/-- The chord meets the curve again at the sum: the cubic minus the square of the line has the roots `x1`,
`x2` and `x3`. -/
theorem chord_sum_on_cubic [IsDomain R] (hne : x1 ≠ x2) (h1 : y1 ^ 2 = c.cubic x1)
    (h2 : y2 ^ 2 = c.cubic x2) (hlam : (x2 - x1) * lam = y2 - y1)
    (hx3 : x3 = lam ^ 2 - c.a.toNat - x1 - x2) (hy3 : y3 = -lam * x3 - (y1 - lam * x1)) :
    y3 ^ 2 = c.cubic x3 := by
  unfold Curve.cubic at *
  apply mul_left_cancel₀ (sub_ne_zero_of_ne hne.symm)
  subst hy3
  linear_combination (x2 - x3) * h1 + (x3 - x1) * h2 +
    (x3 - x1) * (y1 + lam * (x2 - x1) + y2) * hlam - (x2 - x1) * (x3 - x1) * (x3 - x2) * hx3

end

/-- For a prime `p`, the sum that a slope of two points of the curve gives is on the curve. -/
theorem contains_slopeSum {c : Curve} (hp : c.p.toNat.Prime) {x1 y1 x2 y2 l : Nat}
    (hP : (Point.affine x1 y1).InRange c.p.toNat) (hQ : (Point.affine x2 y2).InRange c.p.toNat)
    (hl : c.IsSlope x1 y1 x2 y2 l) (h1 : c.contains (.affine x1 y1) = true)
    (h2 : c.contains (.affine x2 y2) = true) :
    c.contains (c.slopeSum l x1 y1 x2) = true := by
  have : Fact c.p.toNat.Prime := ⟨hp⟩
  obtain ⟨x3, y3, hsum, hx3, hy3⟩ := exists_slopeSum_zmod hp.pos l x1 y1 x2
  rw [contains_affine_iff_zmod hp.pos] at h1 h2
  rw [hsum, contains_affine_iff_zmod hp.pos]
  rcases hl with ⟨rfl, rfl, hlam⟩ | ⟨hne, hlam⟩
  · refine tangent_sum_on_cubic h1 ?_ hx3 hy3
    exact_mod_cast (ZMod.intCast_eq_intCast_iff _ _ _).mpr hlam
  · refine chord_sum_on_cubic (natCast_zmod_ne hP.1 hQ.1 hne) h1 h2 ?_ hx3 hy3
    exact_mod_cast (ZMod.intCast_eq_intCast_iff _ _ _).mpr hlam

end Sys2Proof.Machine
end

section
/-! SUPPORT. The checks before a point command, the outcome of each point command on checked operands, and
what `exec` leaves for an outcome of its shape (41_point.md R120-R128). -/

namespace Sys2Proof.Machine

/-! ### The checks -/

/-- `CheckPt` of each register of the list, in order (41_point.md R120). -/
def checkPts (s : State) : List PReg → Cmd Unit
  | [] => .ok ()
  | j :: js => checkPt s j >>= fun _ => checkPts s js

/-- The first bad register decides. -/
theorem checkPts_of_first_bad {s : State} {before : List PReg} {j : PReg} (after : List PReg)
    (hbefore : ∀ k ∈ before, s.PtOk k) (hj : ¬ s.PtOk j) :
    checkPts s (before ++ j :: after) = raise .eoperand (BitVec.ofNat 4 (j.val + 1)) := by
  induction before with
  | nil => simp [checkPts, checkPt_of_bad hj]
  | cons k before ih =>
    obtain ⟨hk, hrest⟩ := List.forall_mem_cons.mp hbefore
    simp [checkPts, checkPt_of_ok hk, ih hrest]

/-- A command with point operands checks the configuration, then its point operands in order, before
anything else (60_exceptions.md R184). -/
theorem cmdOf_checks_first {i : Instr} (h : pointOperands i ≠ []) (s : State) :
    ∃ rest : Cmd Effect,
      cmdOf i s = checkCfg s >>= fun _ => checkPts s (pointOperands i) >>= fun _ => rest := by
  cases i
  case padd | pdbl | pneg | pchk | peq | pmul | pord =>
    exact ⟨_, by simp only [pointOperands, checkPts, bind_assoc, cmd_bind_ok]; rfl⟩
  all_goals exact absurd rfl h

/-- A bad point operand ends the command before it computes. -/
theorem cmdOf_of_bad_operand {i : Instr} {s : State} {before : List PReg} {j : PReg}
    {after : List PReg} (hok : s.cur.Ok) (hi : pointOperands i = before ++ j :: after)
    (hbefore : ∀ k ∈ before, s.PtOk k) (hj : ¬ s.PtOk j) :
    cmdOf i s = raise .eoperand (BitVec.ofNat 4 (j.val + 1)) := by
  obtain ⟨rest, hrest⟩ := cmdOf_checks_first (i := i) (by simp [hi]) s
  rw [hrest, checkCfg_of_ok hok, cmd_bind_ok, hi, checkPts_of_first_bad after hbefore hj,
    cmd_bind_raise]

/-! ### Outcomes on checked operands -/

section
variable {s : State} (h : s.cur.Ok) (pd : PReg) {pa pb : PReg}
include h

theorem cmdOf_padd_of_ok (ha : s.PtOk pa) (hb : s.PtOk pb) : cmdOf (.padd pd pa pb) s =
    orElse (s.cur.add (s.readPt pa) (s.readPt pb)) (raise .earith 2) >>=
      fun q => .ok (writesPt pd q) := by
  simp [cmdOf, paddCmd, checkCfg_of_ok h, checkPt_of_ok ha, checkPt_of_ok hb]

theorem cmdOf_pdbl_of_ok (ha : s.PtOk pa) : cmdOf (.pdbl pd pa) s =
    orElse (s.cur.add (s.readPt pa) (s.readPt pa)) (raise .earith 2) >>=
      fun q => .ok (writesPt pd q) := by
  simp [cmdOf, pdblCmd, checkCfg_of_ok h, checkPt_of_ok ha]

theorem cmdOf_pneg_of_ok (ha : s.PtOk pa) :
    cmdOf (.pneg pd pa) s = .ok (writesPt pd (s.cur.neg (s.readPt pa))) := by
  simp [cmdOf, pnegCmd, checkCfg_of_ok h, checkPt_of_ok ha]

theorem cmdOf_pchk_of_ok (ha : s.PtOk pa) :
    cmdOf (.pchk pa) s = .ok (verdict (s.cur.contains (s.readPt pa))) := by
  simp [cmdOf, pchkCmd, checkCfg_of_ok h, checkPt_of_ok ha]

theorem cmdOf_peq_of_ok (ha : s.PtOk pa) (hb : s.PtOk pb) :
    cmdOf (.peq pa pb) s = .ok (verdict ((s.readPt pa).same (s.readPt pb))) := by
  simp [cmdOf, peqCmd, checkCfg_of_ok h, checkPt_of_ok ha, checkPt_of_ok hb]

theorem cmdOf_pldg_of_ok : cmdOf (.pldg pd) s = .ok (writesPt pd s.cur.base) := by
  simp [cmdOf, pldgCmd, checkCfg_of_ok h]

end

/-! ### Point registers as points -/

theorem readPt_of_not_inf {s : State} {j : PReg} (h : s.readInf j = false) :
    s.readPt j = .affine (s.readV (xReg j)).toNat (s.readV (yReg j)).toNat := by
  simp [State.readPt, h]

theorem readPt_eq_infinity_iff {s : State} {j : PReg} :
    s.readPt j = .infinity ↔ s.readInf j = true := by
  cases h : s.readInf j <;> simp [State.readPt, h]

theorem readPt_eq_affine_iff {s : State} {j : PReg} {x y : Nat} :
    s.readPt j = .affine x y ↔
      s.readInf j = false ∧ (s.readV (xReg j)).toNat = x ∧ (s.readV (yReg j)).toNat = y := by
  cases h : s.readInf j <;> simp [State.readPt, h]

/-- `same` is equality of points. -/
theorem same_iff_eq (q r : Point) : q.same r = true ↔ q = r := by
  cases q <;> cases r <;> simp [Point.same]

/-- Two point registers hold the same point: both `Infinity`, or neither and equal coordinates
(41_point.md R127). -/
theorem readPt_eq_readPt_iff {s : State} {j k : PReg} :
    s.readPt j = s.readPt k ↔ (s.readInf j = true ∧ s.readInf k = true) ∨
      (s.readInf j = false ∧ s.readInf k = false ∧
        s.readV (xReg j) = s.readV (xReg k) ∧ s.readV (yReg j) = s.readV (yReg k)) := by
  cases hk : s.readInf k with
  | true => simp [readPt_eq_infinity_iff.mpr hk, readPt_eq_infinity_iff]
  | false => simp [readPt_of_not_inf hk, readPt_eq_affine_iff, BitVec.toNat_inj]

/-! ### What `exec` leaves -/

/-- A command whose outcome is a point leaves it in the point register, with zeros for `Infinity`, and
changes nothing else but the report (10_state.md R25). -/
theorem exec_writesPt {i : Instr} {s : State} {pd : PReg} {q : Point} (hq : q.fits)
    (h : cmdOf i s = .ok (writesPt pd q)) :
    ∃ t, exec i s = .next t ∧ t.readPt pd = q ∧
      (q = .infinity → t.readV (xReg pd) = 0 ∧ t.readV (yReg pd) = 0) ∧
      s.OnlyPt t pd ∧ s.SameControl t ∧ t.Reports 0 0 false := by
  obtain ⟨hread, hframe, hreport⟩ := complete_writesPt s pd hq
  refine ⟨_, by rw [exec_eq_complete, h], hread, ?_, hframe, complete_control s _, hreport⟩
  rintro rfl
  exact complete_writesPt_infinity s pd

/-- A command whose outcome is a sum leaves it, or ends with EARITH(2) where an inverse fails. -/
theorem exec_writes_sum {i : Instr} {s : State} {pd pa pb : PReg} (hok : s.cur.Ok)
    (h : cmdOf i s = orElse (s.cur.add (s.readPt pa) (s.readPt pb)) (raise .earith 2) >>=
      fun q => .ok (writesPt pd q)) :
    (∀ q, s.cur.add (s.readPt pa) (s.readPt pb) = some q →
      ∃ t, exec i s = .next t ∧ t.readPt pd = q ∧
        (q = .infinity → t.readV (xReg pd) = 0 ∧ t.readV (yReg pd) = 0) ∧
        s.OnlyPt t pd ∧ s.SameControl t ∧ t.Reports 0 0 false) ∧
    (s.cur.add (s.readPt pa) (s.readPt pb) = none → ∃ t, exec i s = .next t ∧ s.Fails t 4 2) := by
  obtain ⟨hp, -⟩ := hok
  constructor
  · intro q hq
    refine exec_writesPt (add_fits (by omega) (readPt_fits s pa) (readPt_fits s pb) hq) ?_
    rw [h, hq, orElse_some, cmd_bind_ok]
  · intro hnone
    refine exec_raises (c := .earith) ?_
    rw [h, hnone, orElse_none, cmd_bind_raise]

/-- A command whose outcome is a verdict writes no operand and reports it in `RESULT`. -/
theorem exec_verdict {i : Instr} {s : State} {b : Bool} (h : cmdOf i s = .ok (verdict b)) :
    ∃ t, exec i s = .next t ∧ s.SameOperands t ∧ s.SameControl t ∧ t.Reports 0 0 b :=
  ⟨s.complete (.ok (verdict b)), by rw [exec_eq_complete, h], ⟨rfl, rfl⟩, complete_control s _,
    report_reports s .enone 0 b⟩

end Sys2Proof.Machine
end

section
/-! The statements of point arithmetic (41_point.md), settled. -/

open Sys2Proof Sys2Proof.Machine

namespace Sys2Proof.Proofs

/-- Settles O22: the checks run before the command computes, and the first bad operand decides. -/
theorem pointOperandErrors : Obligations.PointOperandErrors := by
  intro i s before after j hok hi hbefore hj
  exact exec_raises (cmdOf_of_bad_operand hok hi hbefore hj)

/-- Settles O28: the slope of each case is a quotient modulo `p`, and every solution of its equation is
that quotient up to multiples of `p`. -/
theorem addFollowsTheFormulas : Obligations.AddFollowsTheFormulas := by
  intro c hp
  have hpos : 0 < c.p.toNat := by omega
  refine ⟨add_infinity_left c, add_infinity_right c, fun x1 y1 x2 y2 _ hy1 _ _ => ⟨?_, ?_, ?_, ?_, ?_⟩⟩
  · rintro rfl hy
    exact add_of_y_ne c x1 hy
  · rintro rfl rfl rfl
    exact add_self_of_y_zero c x1
  · rintro rfl rfl h0 hgcd
    rw [add_self c x1 hy1 h0, (modDiv_eq_none_iff hpos).mpr hgcd, Option.map_none]
  · intro hx hgcd
    rw [add_of_x_ne c y1 y2 hx, (modDiv_eq_none_iff hpos).mpr hgcd, Option.map_none]
  · rintro lam x3 y3 (⟨rfl, rfl, h0, hgcd, hlam⟩ | ⟨hx, hgcd, hlam⟩) hx3 hy3
    · obtain ⟨l, hl, hmod⟩ := exists_modDiv_modEq hp hgcd hlam
      rw [add_self c x1 hy1 h0, hl, Option.map_some, slopeSum_eq_of_modEq hpos hmod hx3 hy3]
    · obtain ⟨l, hl, hmod⟩ := exists_modDiv_modEq hp hgcd hlam
      rw [add_of_x_ne c y1 y2 hx, hl, Option.map_some, slopeSum_eq_of_modEq hpos hmod hx3 hy3]

/-- Settles O29: modulo an odd prime the divisor of the slope is invertible, and `y = −y` only for 0. -/
theorem addTotalWithInverses : Obligations.AddTotalWithInverses := by
  intro c q r hp h2 hq hr
  obtain ⟨t, ht⟩ := exists_add_of_prime hp h2 hq hr
  exact ⟨⟨t, ht, add_inRange hp.pos hq hr ht⟩, add_neg_of_prime hp h2 hq⟩

/-- Settles O30: the third point of the tangent or the chord is on the curve. -/
theorem addClosedOnCurve : Obligations.AddClosedOnCurve := by
  intro c q r hp h2 hq hr hcq hcr
  cases q with
  | infinity => exact ⟨r, rfl, hcr⟩
  | affine x1 y1 =>
    cases r with
    | infinity => exact ⟨_, rfl, hcq⟩
    | affine x2 y2 =>
      rcases add_affine_of_prime hp h2 hq hr with hadd | ⟨l, hl, hadd⟩
      · exact ⟨_, hadd, rfl⟩
      · exact ⟨_, hadd, contains_slopeSum hp hq hr hl hcq hcr⟩

/-- Settles O31: the outcome of both commands is a sum. -/
theorem paddPdblResults : Obligations.PaddPdblResults := by
  intro pd pa pb s hok ha hb
  obtain ⟨hsum, hnone⟩ := exec_writes_sum hok (cmdOf_padd_of_ok hok pd ha hb)
  exact ⟨hsum, hnone, exec_writes_sum hok (cmdOf_pdbl_of_ok hok pd ha)⟩

/-- Settles O32: the outcomes are the negative and the base point. -/
theorem pnegPldgResults : Obligations.PnegPldgResults := by
  intro pd pa s hok
  have hpos : 0 < s.cur.p.toNat := Nat.zero_lt_of_lt hok.1
  constructor
  · intro ha
    obtain ⟨t, ht, hread, hzero, hrest⟩ :=
      exec_writesPt (neg_fits hpos (readPt_fits s pa)) (cmdOf_pneg_of_ok hok pd ha)
    refine ⟨t, ht, fun hinf => ?_, fun hinf => ?_, hrest⟩
    · rw [readPt_eq_infinity_iff.mpr hinf, Curve.neg] at hread hzero
      exact ⟨readPt_eq_infinity_iff.mp hread, hzero rfl⟩
    · rw [readPt_of_not_inf hinf, Curve.neg] at hread
      obtain ⟨hinf', hx, hy⟩ := readPt_eq_affine_iff.mp hread
      exact ⟨hinf', BitVec.eq_of_toNat_eq hx, by rw [hy, modNat_cast _ hpos]⟩
  · obtain ⟨t, ht, hread, -, hrest⟩ :=
      exec_writesPt (q := s.cur.base) ⟨s.cur.gx.isLt, s.cur.gy.isLt⟩ (cmdOf_pldg_of_ok hok pd)
    obtain ⟨hinf, hx, hy⟩ := readPt_eq_affine_iff.mp hread
    exact ⟨t, ht, hinf, BitVec.eq_of_toNat_eq hx, BitVec.eq_of_toNat_eq hy, hrest⟩

/-- Settles O33: the verdicts are membership of the curve and equality of the points. -/
theorem pchkPeqResults : Obligations.PchkPeqResults := by
  intro pa pb s hok ha hb
  have hpos : 0 < s.cur.p.toNat := Nat.zero_lt_of_lt hok.1
  constructor
  · obtain ⟨t, ht, hops, hctl, hrep⟩ := exec_verdict (cmdOf_pchk_of_ok hok ha)
    refine ⟨t, _, ht, hops, hctl, hrep, ?_⟩
    cases hinf : s.readInf pa with
    | true => simp [readPt_eq_infinity_iff.mpr hinf, Curve.contains]
    | false =>
      rw [readPt_of_not_inf hinf, contains_affine_iff_emod hpos]
      simp [Curve.cubic]
  · obtain ⟨t, ht, hops, hctl, hrep⟩ := exec_verdict (cmdOf_peq_of_ok hok ha hb)
    exact ⟨t, _, ht, hops, hctl, hrep, (same_iff_eq _ _).trans readPt_eq_readPt_iff⟩

end Sys2Proof.Proofs
end

section
/-! SUPPORT. The rounds of `Smul`, and its totality for an odd prime `p` (42_scalar.md R140, R143). -/

namespace Sys2Proof.Machine

/-! ### The rounds of the loop -/

theorem smulLoop_zero_scalar (c : Curve) (fuel : Nat) (r a : Point) :
    c.smulLoop fuel 0 r a = some r := by
  cases fuel <;> rfl

/-- One round of the loop: an addition for an odd scalar, then a doubling unless the top bit is done. -/
theorem smulLoop_succ (c : Curve) (fuel : Nat) {k : Nat} (hk : k ≠ 0) (r a : Point) :
    c.smulLoop (fuel + 1) k r a =
      (if k % 2 = 1 then c.add r a else some r).bind fun r' =>
        if k / 2 = 0 then some r'
        else (c.add a a).bind fun a' => c.smulLoop fuel (k / 2) r' a' := by
  rw [Curve.smulLoop, if_neg hk]
  cases (if k % 2 = 1 then c.add r a else some r) with
  | none => rfl
  | some r' => cases c.add a a <;> rfl

/-- `Infinity` stays `Infinity` in every round. -/
theorem smulLoop_infinity (c : Curve) (fuel k : Nat) :
    c.smulLoop fuel k .infinity .infinity = some .infinity := by
  induction fuel generalizing k with
  | zero => rfl
  | succ fuel ih =>
    by_cases hk : k = 0
    · rw [hk, smulLoop_zero_scalar]
    · simp [smulLoop_succ c fuel hk, ih]

/-! ### `Smul` as the loop -/

theorem smul_of_nonneg (c : Curve) (pt : Point) {k : Int} (hk : 0 ≤ k) :
    c.smul pt k = c.smulLoop (bitlen k.natAbs) k.natAbs .infinity pt :=
  if_neg (by omega)

theorem smul_of_neg (c : Curve) (pt : Point) {k : Int} (hk : k < 0) :
    c.smul pt k = c.smul (c.neg pt) (-k) := by
  rw [smul_of_nonneg c (c.neg pt) (k := -k) (by omega), Int.natAbs_neg, Curve.smul, if_pos hk]

@[simp] theorem smul_infinity (c : Curve) (k : Int) : c.smul .infinity k = some .infinity := by
  by_cases hk : k < 0
  · rw [smul_of_neg c _ hk, Curve.neg, smul_of_nonneg c _ (by omega), smulLoop_infinity]
  · rw [smul_of_nonneg c _ (by omega), smulLoop_infinity]

/-! ### Points in range -/

theorem neg_inRange {c : Curve} (hp : 0 < c.p.toNat) {q : Point} (h : q.InRange c.p.toNat) :
    (c.neg q).InRange c.p.toNat := by
  cases q with
  | infinity => trivial
  | affine x y => exact ⟨h.1, modNat_lt _ hp⟩

section
variable {c : Curve} (hp : c.p.toNat.Prime) (h2 : c.p.toNat ≠ 2)
include hp h2

/-- For an odd prime `p`, no `Add` of the loop fails. -/
theorem exists_smulLoop_of_prime (fuel k : Nat) {r a : Point} (hr : r.InRange c.p.toNat)
    (ha : a.InRange c.p.toNat) : ∃ t, c.smulLoop fuel k r a = some t := by
  induction fuel generalizing k r a with
  | zero => exact ⟨r, rfl⟩
  | succ fuel ih =>
    by_cases hk : k = 0
    · exact ⟨r, by rw [hk, smulLoop_zero_scalar]⟩
    obtain ⟨r', hadd, hr'⟩ : ∃ r', (if k % 2 = 1 then c.add r a else some r) = some r' ∧
        r'.InRange c.p.toNat := by
      split
      · obtain ⟨r', hadd⟩ := exists_add_of_prime hp h2 hr ha
        exact ⟨r', hadd, add_inRange hp.pos hr ha hadd⟩
      · exact ⟨r, rfl, hr⟩
    obtain ⟨a', hdbl⟩ := exists_add_of_prime hp h2 ha ha
    obtain ⟨t, ht⟩ := ih (k / 2) hr' (add_inRange hp.pos ha ha hdbl)
    rw [smulLoop_succ c fuel hk, hadd, hdbl, Option.bind_some, Option.bind_some, ht]
    split
    · exact ⟨r', rfl⟩
    · exact ⟨t, rfl⟩

theorem exists_smul_of_prime {pt : Point} (hpt : pt.InRange c.p.toNat) (k : Int) :
    ∃ t, c.smul pt k = some t := by
  by_cases hk : k < 0
  · rw [smul_of_neg c pt hk, smul_of_nonneg c _ (by omega)]
    exact exists_smulLoop_of_prime hp h2 _ _ trivial (neg_inRange hp.pos hpt)
  · rw [smul_of_nonneg c pt (by omega)]
    exact exists_smulLoop_of_prime hp h2 _ _ trivial hpt

end

/-- A multiple of a point in range is in range. -/
theorem smul_inRange {c : Curve} (hp : 0 < c.p.toNat) {pt t : Point} {k : Int}
    (hpt : pt.InRange c.p.toNat) (h : c.smul pt k = some t) : t.InRange c.p.toNat :=
  smul_preserves (good := Point.InRange c.p.toNat) trivial (slopeSum_inRange hp)
    (neg_inRange hp hpt) hpt h

end Sys2Proof.Machine
end

section
/-! SUPPORT. The order loop as a search for the first multiple that is not affine (42_scalar.md R142). -/

namespace Sys2Proof.Machine

theorem multiple_succ {c : Curve} {pt q : Point} {n : Nat} (hn : 1 ≤ n)
    (h : c.multiple pt n = some q) : c.multiple pt (n + 1) = c.add q pt := by
  obtain ⟨k, rfl⟩ := Nat.exists_eq_add_of_le' hn
  simp only [Curve.multiple, h]

/-- Each of `Q_1` … `Q_(n−1)` is affine. -/
def Curve.AffineBelow (c : Curve) (pt : Point) (n : Nat) : Prop :=
  ∀ k, 1 ≤ k → k < n → ∃ x y, c.multiple pt k = some (.affine x y)

theorem affineBelow_one (c : Curve) (pt : Point) : c.AffineBelow pt 1 := by
  intro k h1 hk
  omega

theorem Curve.AffineBelow.succ {c : Curve} {pt : Point} {n x y : Nat} (h : c.AffineBelow pt n)
    (hn : c.multiple pt n = some (.affine x y)) : c.AffineBelow pt (n + 1) := by
  intro k h1 hk
  rcases Nat.lt_succ_iff_lt_or_eq.mp hk with hlt | rfl
  · exact h k h1 hlt
  · exact ⟨x, y, hn⟩

/-- A multiple that is not affine comes no earlier. -/
theorem Curve.AffineBelow.le {c : Curve} {pt : Point} {n m : Nat} (h : c.AffineBelow pt n)
    (hm : 1 ≤ m) (hne : ∀ x y, c.multiple pt m ≠ some (.affine x y)) : n ≤ m := by
  by_contra hlt
  obtain ⟨x, y, hxy⟩ := h m hm (by omega)
  exact hne x y hxy

/-- The answers of the order loop up to `limit`: the first multiple that is not affine is `Infinity`, or
there is none up to `limit`, or it is a failed addition. -/
inductive OrderAnswer (c : Curve) (limit : Nat) (pt : Point) : Cmd Nat → Prop where
  | order {n : Nat} (hn : 1 ≤ n) (hle : n ≤ limit) (hinf : c.multiple pt n = some .infinity)
      (hbelow : c.AffineBelow pt n) : OrderAnswer c limit pt (.ok n)
  | elimit (hbelow : c.AffineBelow pt (limit + 1)) : OrderAnswer c limit pt (raise .elimit 0)
  | failed {n : Nat} (hn : 1 ≤ n) (hle : n ≤ limit) (hnone : c.multiple pt n = none)
      (hbelow : c.AffineBelow pt n) : OrderAnswer c limit pt (raise .earith 2)

/-- From `Q_n`, with only affine multiples before it and the rounds up to `limit` left, the loop answers
so. -/
theorem orderAnswer_orderLoop {c : Curve} {limit : Nat} {pt : Point} (fuel : Nat) {n : Nat} {q : Point}
    (hfuel : fuel + n = limit + 1) (hn : 1 ≤ n) (hq : c.multiple pt n = some q)
    (hbelow : c.AffineBelow pt n) : OrderAnswer c limit pt (c.orderLoop limit pt fuel n q) := by
  induction fuel generalizing n q with
  | zero =>
    obtain rfl : n = limit + 1 := by omega
    exact .elimit hbelow
  | succ fuel ih =>
    cases q with
    | infinity => exact .order hn (by omega) hq hbelow
    | affine x y =>
      have hnext := multiple_succ hn hq
      have hbelow' := hbelow.succ hq
      simp only [Curve.orderLoop]
      split_ifs with hlim
      · exact .elimit (hlim ▸ hbelow')
      · cases hadd : c.add (.affine x y) pt with
        | none => exact .failed (by omega) (by omega) (hnext.trans hadd) hbelow'
        | some q' => exact ih (by omega) (by omega) (hnext.trans hadd) hbelow'

theorem orderAnswer_order (c : Curve) (limit : Nat) (pt : Point) :
    OrderAnswer c limit pt (c.order limit pt) :=
  orderAnswer_orderLoop limit rfl le_rfl rfl (affineBelow_one c pt)

/-- The order is answered exactly when it is at most the limit. -/
theorem order_eq_ok_iff {c : Curve} {limit : Nat} {pt : Point} {n : Nat} :
    c.order limit pt = .ok n ↔
      1 ≤ n ∧ n ≤ limit ∧ c.multiple pt n = some .infinity ∧ c.AffineBelow pt n := by
  have hans := orderAnswer_order c limit pt
  generalize c.order limit pt = ans at hans ⊢
  constructor
  · rintro rfl
    cases hans with
    | order hn hle hinf hbelow => exact ⟨hn, hle, hinf, hbelow⟩
  · rintro ⟨hn, hle, hinf, hbelow⟩
    cases hans with
    | order hm _ hinf' hbelow' =>
      rw [le_antisymm (hbelow'.le hn (by simp [hinf])) (hbelow.le hm (by simp [hinf']))]
    | elimit hbelow' => exact absurd (hbelow'.le hn (by simp [hinf])) (by omega)
    | failed hm _ hnone hbelow' =>
      obtain rfl := le_antisymm (hbelow'.le hn (by simp [hinf])) (hbelow.le hm (by simp [hnone]))
      simp [hinf] at hnone

/-- ELIMIT is raised exactly when every multiple up to the limit is affine. -/
theorem order_eq_elimit_iff {c : Curve} {limit : Nat} {pt : Point} :
    c.order limit pt = raise .elimit 0 ↔ c.AffineBelow pt (limit + 1) := by
  have hans := orderAnswer_order c limit pt
  generalize c.order limit pt = ans at hans ⊢
  constructor
  · rintro rfl
    cases hans with
    | elimit hbelow => exact hbelow
  · intro hbelow
    cases hans with
    | order hn hle hinf _ => exact absurd (hbelow.le hn (by simp [hinf])) (by omega)
    | elimit _ => rfl
    | failed hn hle hnone _ => exact absurd (hbelow.le hn (by simp [hnone])) (by omega)

/-! ### PMUL and PORD on checked operands -/

section
variable {s : State} (h : s.cur.Ok) {pa : PReg} (ha : s.PtOk pa)
include h ha

theorem cmdOf_pmul_of_ok (neg : Bool) (pd : PReg) (vk : VReg) : cmdOf (.pmul neg pd pa vk) s =
    orElse (s.cur.smul (s.readPt pa) (s.signed neg vk)) (raise .earith 2) >>=
      fun q => .ok (writesPt pd q) := by
  simp [cmdOf, pmulCmd, checkCfg_of_ok h, checkPt_of_ok ha]

theorem cmdOf_pord_of_ok (vd : VReg) : cmdOf (.pord vd pa) s =
    s.cur.order Config.ordLimit (s.readPt pa) >>= fun n => .ok (writesV vd n) := by
  simp [cmdOf, pordCmd, checkCfg_of_ok h, checkPt_of_ok ha]

end

end Sys2Proof.Machine
end

section
/-! The statements of the scalar unit (42_scalar.md), settled. -/

open Sys2Proof Sys2Proof.Machine

namespace Sys2Proof.Proofs

/-- Settles O34: `bitlen` counts the rounds, and half of the scalar has one bit fewer. -/
theorem smulIsTheBinaryLoop : Obligations.SmulIsTheBinaryLoop := by
  intro c
  refine ⟨fun pt => rfl, smul_infinity c, fun pt k => smul_of_neg c pt, fun pt k => ?_,
    fun k r a hk => ?_⟩
  · rw [smul_of_nonneg c pt (Int.natCast_nonneg k), Int.natAbs_natCast]
  · rw [bitlen_div_two hk.ne', smulLoop_succ c _ hk.ne']

/-- Settles O35: no `Add` of points in range fails, and each sum is in range. -/
theorem smulNeverFailsOnOddPrime : Obligations.SmulNeverFailsOnOddPrime := by
  intro c pt k hp h2 hpt
  obtain ⟨q, hq⟩ := exists_smul_of_prime hp h2 hpt k
  exact ⟨q, hq, smul_inRange hp.pos hpt hq⟩

/-- Settles O36: PMUL's outcome is the multiple by the signed scalar. -/
theorem pmulResult : Obligations.PmulResult := by
  rintro neg pd pa vk s k hok ha rfl
  have hcmd := cmdOf_pmul_of_ok hok ha neg pd vk
  constructor
  · intro q (hq : s.cur.smul (s.readPt pa) (s.signed neg vk) = some q)
    rw [hq, orElse_some, cmd_bind_ok] at hcmd
    exact exec_writesPt (smul_fits (Nat.zero_lt_of_lt hok.1) (readPt_fits s pa) hq) hcmd
  · intro (hnone : s.cur.smul (s.readPt pa) (s.signed neg vk) = none)
    rw [hnone, orElse_none, cmd_bind_raise] at hcmd
    exact exec_raises hcmd

/-- Settles O37: the loop stops at the first multiple that is not affine, or at the limit. -/
theorem orderIsTheFirstInfinity : Obligations.OrderIsTheFirstInfinity := by
  intro c limit pt _
  refine ⟨fun n => order_eq_ok_iff, order_eq_elimit_iff.trans ?_, fun e => orderLoop_error⟩
  simp only [Curve.AffineBelow, Nat.lt_succ_iff]

/-- Settles O38: PORD's outcome is the answer of the order loop up to `ORD_LIMIT`. -/
theorem pordResult : Obligations.PordResult := by
  intro vd pa s hok ha
  have hcmd := cmdOf_pord_of_ok hok ha vd
  rw [Config.ordLimit] at hcmd
  constructor
  · intro n hn hle hinf hbelow
    rw [order_eq_ok_iff.mpr ⟨hn, hle, hinf, hbelow⟩, cmd_bind_ok] at hcmd
    exact exec_writesV (by omega) hcmd
  · intro code info herr
    rw [herr, cmd_bind_error] at hcmd
    exact exec_raises hcmd

end Sys2Proof.Proofs
end

section
/-! SUPPORT. `bitlen` as a bound, and digest truncation by division: its value in each reading and its bound
(43_ecdsa.md R150, R151). -/

namespace Sys2Proof.Machine

theorem bitlen_le_iff {v k : Nat} : bitlen v ≤ k ↔ v < 2 ^ k :=
  ⟨fun h => (lt_two_pow_bitlen v).trans_le (Nat.pow_le_pow_right (by omega) h), bitlen_le⟩

theorem trunc_digestWidth (n h : Nat) : trunc .digestWidth n h = h / 2 ^ (257 - bitlen n) :=
  Nat.shiftRight_eq_div_pow _ _

theorem trunc_integerBitlen_of_lt {n h : Nat} (hlt : h < 2 ^ (bitlen n - 1)) :
    trunc .integerBitlen n h = h := if_pos (bitlen_le hlt)

theorem trunc_integerBitlen_of_le {n h : Nat} (hle : 2 ^ (bitlen n - 1) ≤ h) :
    trunc .integerBitlen n h = h / 2 ^ (bitlen h - (bitlen n - 1)) := by
  rw [← Nat.shiftRight_eq_div_pow]
  exact if_neg fun hb => hle.not_gt (bitlen_le_iff.mp hb)

/-- Dropping all but the top `k` of `j` bits leaves a number of `k` bits. -/
theorem div_two_pow_lt {h j k : Nat} (hh : h < 2 ^ j) : h / 2 ^ (j - k) < 2 ^ k := by
  refine Nat.div_lt_of_lt_mul (hh.trans_le ?_)
  rw [← Nat.pow_add]
  exact Nat.pow_le_pow_right (by omega) (by omega)

theorem bitlen_pos {n : Nat} (hn : n ≠ 0) : 0 < bitlen n :=
  Nat.pos_of_ne_zero fun h => hn (by simpa [h] using lt_two_pow_bitlen n)

/-- In both readings the truncated digest has fewer bits than `n`. -/
theorem trunc_lt_two_pow (mode : TruncMode) {n h : Nat} (hn : n ≠ 0) (hh : h < 2 ^ 256) :
    trunc mode n h < 2 ^ (bitlen n - 1) := by
  cases mode with
  | digestWidth =>
    rw [trunc_digestWidth, show 257 - bitlen n = 256 - (bitlen n - 1) by have := bitlen_pos hn; omega]
    exact div_two_pow_lt hh
  | integerBitlen =>
    rcases lt_or_ge h (2 ^ (bitlen n - 1)) with hlt | hle
    · rwa [trunc_integerBitlen_of_lt hlt]
    · rw [trunc_integerBitlen_of_le hle]
      exact div_two_pow_lt (lt_two_pow_bitlen h)

/-- The truncated digest is below `n` (43_ecdsa.md R150). -/
theorem trunc_lt (mode : TruncMode) {n h : Nat} (hn : n ≠ 0) (hh : h < 2 ^ 256) : trunc mode n h < n :=
  (trunc_lt_two_pow mode hn hh).trans_le (two_pow_bitlen_le hn)

/-- The two readings agree on a digest whose first bit is 1. -/
theorem trunc_eq_of_first_bit {n h : Nat} (h0 : n ≠ 0) (hn : n < 2 ^ 256) (hh : h < 2 ^ 256)
    (hfirst : 2 ^ 255 ≤ h) : trunc .digestWidth n h = trunc .integerBitlen n h := by
  have hpos := bitlen_pos h0
  have hle : bitlen n ≤ 256 := bitlen_le hn
  have hlen : bitlen h = 256 :=
    le_antisymm (bitlen_le hh) (Nat.lt_of_not_le fun hb => hfirst.not_gt (bitlen_le_iff.mp hb))
  have htop : 2 ^ (bitlen n - 1) ≤ h := (Nat.pow_le_pow_right (by omega) (by omega)).trans hfirst
  rw [trunc_digestWidth, trunc_integerBitlen_of_le htop, hlen,
    show 257 - bitlen n = 256 - (bitlen n - 1) by omega]

end Sys2Proof.Machine
end

section
/-! SUPPORT. SIGN: the outcome of its computation for each way it can end, and the signing equation
(43_ecdsa.md R153-R155). -/

namespace Sys2Proof.Machine

/-! ### The nonce's inverse -/

/-- A natural number's `Inv`, as a congruence of natural numbers. -/
theorem modInv_natCast_eq_some_iff {a m b : Nat} (hm : 2 ≤ m) :
    modInv a m = some b ↔ b < m ∧ a * b ≡ 1 [MOD m] := by
  rw [modInv_eq_some_iff hm, ← Int.natCast_modEq_iff]
  push_cast
  rfl

theorem modInv_natCast_eq_some_iff_mod {a m b : Nat} (hm : 2 ≤ m) :
    modInv a m = some b ↔ b < m ∧ a * b % m = 1 := by
  rw [modInv_natCast_eq_some_iff hm, Nat.ModEq, Nat.mod_eq_of_lt hm]

theorem exists_modInv_natCast {a m : Nat} (hm : 2 ≤ m) (hgcd : Nat.gcd a m = 1) :
    ∃ b, modInv a m = some b ∧ a * b ≡ 1 [MOD m] := by
  obtain ⟨b, hb⟩ := (exists_modInv_iff_gcd (a := a) (Nat.zero_lt_of_lt hm)).mpr hgcd
  exact ⟨b, hb, ((modInv_natCast_eq_some_iff hm).mp hb).2⟩

/-- `kinv · e mod n` is the solution of `k · s ≡ e` (43_ecdsa.md R155). -/
theorem mul_mod_of_inverse {k kinv n : Nat} (hinv : k * kinv ≡ 1 [MOD n]) (e : Nat) :
    k * (kinv * e % n) ≡ e [MOD n] :=
  calc k * (kinv * e % n) ≡ k * (kinv * e) [MOD n] := (Nat.mod_modEq _ n).mul_left k
    _ = k * kinv * e := (mul_assoc k kinv e).symm
    _ ≡ 1 * e [MOD n] := hinv.mul_right e
    _ = e := one_mul e

/-- `kinv · e` vanishes modulo `n` exactly when `e` does. -/
theorem inverse_mul_mod_eq_zero_iff {k kinv n : Nat} (hinv : k * kinv ≡ 1 [MOD n]) (e : Nat) :
    kinv * e % n = 0 ↔ e % n = 0 := by
  constructor
  · intro h
    have hsol := mul_mod_of_inverse hinv e
    rw [h, mul_zero] at hsol
    exact hsol.symm
  · intro h
    rw [Nat.mul_mod, h, mul_zero, Nat.zero_mod]

/-! ### The ways `sign` ends, in the order of its steps -/

section
variable {c : Curve} (mode : TruncMode) (h d : Nat) {k : Nat}

theorem sign_of_smul_none (hbig : c.smul c.base k = none) : c.sign mode h d k = raise .eretry 1 := by
  simp [Curve.sign, hbig]

theorem sign_of_smul_infinity (hbig : c.smul c.base k = some .infinity) :
    c.sign mode h d k = raise .eretry 2 := by
  simp [Curve.sign, hbig]

variable {x y : Nat} (hn : 2 ≤ c.n.toNat) (hbig : c.smul c.base k = some (.affine x y))
include hn hbig

theorem sign_of_no_inverse (hgcd : Nat.gcd k c.n.toNat ≠ 1) :
    c.sign mode h d k = raise .eretry 3 := by
  have hinv : modInv k c.n.toNat = none :=
    (modInv_eq_none_iff_gcd (Nat.zero_lt_of_lt hn)).mpr hgcd
  simp [Curve.sign, hbig, hinv]

/-- With an inverse of the nonce, only `r = 0` and `s = 0` are left to fail. -/
theorem exists_sign_eq (hgcd : Nat.gcd k c.n.toNat = 1) :
    ∃ kinv, k * kinv ≡ 1 [MOD c.n.toNat] ∧ c.sign mode h d k =
      if x % c.n.toNat = 0 then raise .eretry 4
      else if kinv * (trunc mode c.n.toNat h + x % c.n.toNat * d) % c.n.toNat = 0 then raise .eretry 5
      else .ok (x % c.n.toNat, kinv * (trunc mode c.n.toNat h + x % c.n.toNat * d) % c.n.toNat) := by
  obtain ⟨kinv, hinv, hmul⟩ := exists_modInv_natCast hn hgcd
  exact ⟨kinv, hmul, by simp [Curve.sign, hbig, hinv]⟩

theorem sign_of_r_zero (hgcd : Nat.gcd k c.n.toNat = 1) (hr : x % c.n.toNat = 0) :
    c.sign mode h d k = raise .eretry 4 := by
  obtain ⟨kinv, -, hsign⟩ := exists_sign_eq mode h d hn hbig hgcd
  rw [hsign, if_pos hr]

theorem sign_of_s_zero (hgcd : Nat.gcd k c.n.toNat = 1) (hr : x % c.n.toNat ≠ 0)
    (hsg : (trunc mode c.n.toNat h + x % c.n.toNat * d) % c.n.toNat = 0) :
    c.sign mode h d k = raise .eretry 5 := by
  obtain ⟨kinv, hmul, hsign⟩ := exists_sign_eq mode h d hn hbig hgcd
  rw [hsign, if_neg hr, if_pos ((inverse_mul_mod_eq_zero_iff hmul _).mpr hsg)]

/-- A nonce that has an inverse and gives neither `r = 0` nor `s = 0` signs. -/
theorem exists_sign_ok (hgcd : Nat.gcd k c.n.toNat = 1) (hr : x % c.n.toNat ≠ 0)
    (hsg : (trunc mode c.n.toNat h + x % c.n.toNat * d) % c.n.toNat ≠ 0) :
    ∃ sg, c.sign mode h d k = .ok (x % c.n.toNat, sg) := by
  obtain ⟨kinv, hmul, hsign⟩ := exists_sign_eq mode h d hn hbig hgcd
  exact ⟨_, by rw [hsign, if_neg hr, if_neg (mt (inverse_mul_mod_eq_zero_iff hmul _).mp hsg)]⟩

end

/-- What a signature says: `r` comes from the nonce's multiple of `G` alone, and `s` solves the signing
equation (43_ecdsa.md R155). -/
theorem sign_ok {c : Curve} {mode : TruncMode} {h d k r sg : Nat} (hn : 2 ≤ c.n.toNat)
    (hs : c.sign mode h d k = .ok (r, sg)) :
    ∃ x y, c.smul c.base k = some (.affine x y) ∧ r = x % c.n.toNat ∧ r ≠ 0 ∧ sg ≠ 0 ∧
      sg < c.n.toNat ∧ k * sg ≡ trunc mode c.n.toNat h + r * d [MOD c.n.toNat] := by
  cases hbig : c.smul c.base k with
  | none => exact absurd (sign_of_smul_none mode h d hbig ▸ hs) (by simp [raise])
  | some q =>
    cases q with
    | infinity => exact absurd (sign_of_smul_infinity mode h d hbig ▸ hs) (by simp [raise])
    | affine x y =>
      by_cases hgcd : Nat.gcd k c.n.toNat = 1
      · obtain ⟨kinv, hmul, hsign⟩ := exists_sign_eq mode h d hn hbig hgcd
        rw [hsign] at hs
        split_ifs at hs with hr hsg
        · cases hs
        · cases hs
        · cases hs
          exact ⟨x, y, rfl, rfl, hr, hsg, Nat.mod_lt _ (Nat.zero_lt_of_lt hn), mul_mod_of_inverse hmul _⟩
      · exact absurd (sign_of_no_inverse mode h d hn hbig hgcd ▸ hs) (by simp [raise])

/-! ### The commands HTRUNC and SIGN -/

theorem isEven_of_mod {r : VReg} (h : r.val % 2 = 0) : r.isEven = true := beq_iff_eq.mpr h

theorem cmdOf_htrunc_of_ok {s : State} (hok : s.cur.Ok) (vd vh : VReg) :
    cmdOf (.htrunc vd vh) s = .ok (writesV vd (trunc s.cfg.truncMode s.cur.n.toNat (s.nat vh))) := by
  simp [cmdOf, htruncCmd, checkCfg_of_ok hok]

theorem cmdOf_sign_of_ok {s : State} {vd : VReg} (hok : s.cur.Ok) (hvd : vd.isEven = true)
    (vh vkey vk : VReg) : cmdOf (.sign vd vh vkey vk) s =
      s.cur.sign s.cfg.truncMode (s.nat vh) (s.nat vkey) (s.nat vk) >>=
        fun rs => .ok ⟨[.v vd (toVal rs.1), .v (pairReg vd) (toVal rs.2)], false⟩ := by
  simp [cmdOf, signCmd, checkEven_of_even hvd, checkCfg_of_ok hok]

/-- A command whose outcome is a register pair leaves both values, and changes nothing else but the
report. -/
theorem exec_writes_pair {i : Instr} {s : State} {vd : VReg} {x y : Nat} (hvd : vd.isEven = true)
    (hx : x < 2 ^ 256) (hy : y < 2 ^ 256)
    (h : cmdOf i s = .ok ⟨[.v vd (toVal x), .v (pairReg vd) (toVal y)], false⟩) :
    ∃ t, exec i s = .next t ∧ (t.readV vd).toNat = x ∧ (t.readV (pairReg vd)).toNat = y ∧
      s.OnlyV t [vd, pairReg vd] ∧ s.SameControl t ∧ t.Reports 0 0 false := by
  refine ⟨s.complete (cmdOf i s), exec_eq_complete i s, ?_, ?_, ⟨fun i hi => ?_, ?_⟩,
    complete_control s _, ?_⟩ <;> rw [h, complete_ok]
  · simp [State.applyWrite, readV_writeV_other _ _ (pairReg_ne hvd).symm, toVal_toNat hx]
  · simp [State.applyWrite, toVal_toNat hy]
  · obtain ⟨h1, h2⟩ : i ≠ vd ∧ i ≠ pairReg vd := by simpa using hi
    simp [State.applyWrite, readV_writeV_other _ _ h1, readV_writeV_other _ _ h2]
  · rfl
  · exact report_reports _ .enone 0 false

end Sys2Proof.Machine
end

section
/-! The statements of digests and signing (43_ecdsa.md R150-R154), settled. -/

open Sys2Proof Sys2Proof.Machine

namespace Sys2Proof.Proofs

/-- Settles O39: each reading is a division by a power of two. -/
theorem truncationContract : Obligations.TruncationContract := by
  intro n h h2 hn hh
  have h0 : n ≠ 0 := by omega
  exact ⟨fun mode => trunc_lt_two_pow mode h0 hh, two_pow_bitlen_le h0, trunc_digestWidth n h,
    trunc_integerBitlen_of_lt, trunc_integerBitlen_of_le, trunc_eq_of_first_bit h0 hn hh⟩

/-- Settles O40: HTRUNC's outcome is the truncated digest, which fits a register. -/
theorem htruncResult : Obligations.HtruncResult := by
  intro vd vh s hok
  have hlt := trunc_lt s.cfg.truncMode (Nat.ne_zero_of_lt hok.2.1) (s.readV vh).isLt
  exact exec_writesV (hlt.trans s.cur.n.isLt) (cmdOf_htrunc_of_ok hok vd vh)

/-- Settles O41: such a nonce signs, and the signature solves the signing equation. -/
theorem signResult : Obligations.SignResult := by
  rintro vd vh vkey vk s x y n k d z hok hvd rfl rfl rfl rfl hbig hgcd hr hsg
  have heven := isEven_of_mod hvd
  have hn : 2 ≤ s.cur.n.toNat := hok.2.1
  obtain ⟨sg, hs⟩ := exists_sign_ok _ _ _ hn hbig hgcd hr hsg
  obtain ⟨-, -, -, -, -, hsg0, hlt, heq⟩ := sign_ok hn hs
  have hcmd := cmdOf_sign_of_ok hok heven vh vkey vk
  rw [State.nat, State.nat, State.nat, hs, cmd_bind_ok] at hcmd
  have hxlt : x % s.cur.n.toNat < s.cur.n.toNat := Nat.mod_lt _ (by omega)
  obtain ⟨t, ht, hread, hpair, hrest⟩ :=
    exec_writes_pair heven (hxlt.trans s.cur.n.isLt) (hlt.trans s.cur.n.isLt) hcmd
  rw [← hread] at hr hxlt heq
  rw [← hpair] at hsg0 hlt heq
  exact ⟨t, ht, hread, Nat.pos_of_ne_zero hr, hxlt, heq, Nat.pos_of_ne_zero hsg0, hlt, hrest⟩

/-- Settles O42: SIGN's computation ends with the reason of the first step that fails. -/
theorem signRetryReasons : Obligations.SignRetryReasons := by
  rintro vd vh vkey vk s n k d z hok hvd rfl rfl rfl rfl
  have retry : ∀ {i : Nibble},
      s.cur.sign s.cfg.truncMode (s.nat vh) (s.nat vkey) (s.nat vk) = raise .eretry i →
        ∃ t, exec (.sign vd vh vkey vk) s = .next t ∧ s.Fails t 5 i := fun hs =>
    exec_raises (by rw [cmdOf_sign_of_ok hok (isEven_of_mod hvd), hs, cmd_bind_raise])
  have hn : 2 ≤ s.cur.n.toNat := hok.2.1
  refine ⟨fun hbig => retry (sign_of_smul_none _ _ _ hbig),
    fun hbig => retry (sign_of_smul_infinity _ _ _ hbig),
    fun x y hbig => ⟨fun hgcd => retry (sign_of_no_inverse _ _ _ hn hbig hgcd),
      fun hgcd hr => retry (sign_of_r_zero _ _ _ hn hbig hgcd hr),
      fun hgcd hr hsg => retry (sign_of_s_zero _ _ _ hn hbig hgcd hr hsg)⟩⟩

end Sys2Proof.Proofs
end

section
/-! SUPPORT. VERIFY step by step: when each step passes, how the computation ends at the first step that
does not, and what the command then reports (43_ecdsa.md R156-R158). -/

namespace Sys2Proof.Machine

/-! ### The steps -/

/-- Step 1 on an affine key with a coordinate out of range. -/
theorem verifyKey_of_out_of_range {s : State} {j : PReg} (hinf : s.readInf j = false) (h : ¬ s.PtOk j) :
    s.cur.verifyKey (s.readPt j) = reject 2 := by
  rw [readPt_of_not_inf hinf]
  exact if_pos (by simpa [State.PtOk, hinf, imp_iff_not_or] using h)

/-- Step 1 on an affine key in range. -/
theorem verifyKey_of_in_range {s : State} {j : PReg} (hinf : s.readInf j = false) (h : s.PtOk j) :
    s.cur.verifyKey (s.readPt j) = if s.cur.contains (s.readPt j) then .ok () else reject 3 := by
  rw [readPt_of_not_inf hinf]
  exact if_neg (by simpa [State.PtOk, hinf, not_or] using h)

/-- Step 1 passes for an affine key in range and on the curve. -/
theorem verifyKey_eq_ok_iff {s : State} {j : PReg} :
    s.cur.verifyKey (s.readPt j) = .ok () ↔
      s.readInf j = false ∧ s.PtOk j ∧ s.cur.contains (s.readPt j) = true := by
  cases hinf : s.readInf j with
  | true => simp [readPt_eq_infinity_iff.mpr hinf, Curve.verifyKey, reject]
  | false =>
    by_cases hr : s.PtOk j
    · simp [verifyKey_of_in_range hinf hr, hr, reject]
    · simp [verifyKey_of_out_of_range hinf hr, hr, reject]

/-- Step 2 passes exactly when `n · Q` is `Infinity`. -/
theorem verifyOrder_eq_ok_iff {c : Curve} {q : Point} :
    c.verifyOrder q = .ok () ↔ c.smul q c.n.toNat = some .infinity := by
  unfold Curve.verifyOrder
  cases c.smul q c.n.toNat with
  | none => simp [reject]
  | some t => cases t <;> simp [reject]

theorem verifyBound_eq_ok_iff {ovf : Bool} {n x : Nat} {k : Nibble} :
    verifyBound ovf n x k = .ok () ↔ ovf = false ∧ x ≤ n := by
  unfold verifyBound
  split_ifs with h
  · simpa [reject, imp_iff_not_or] using h
  · simpa using h

theorem verifyBound_of_exceeds {ovf : Bool} {n x : Nat} {k : Nibble} (h : ovf = true ∨ n < x) :
    verifyBound ovf n x k = reject k := if_pos h

/-- Step 5 has a value exactly when both multiples and their sum do. -/
theorem combine_eq_some_iff {c : Curve} {u1 u2 : Nat} {q t : Point} :
    c.combine u1 u2 q = some t ↔
      ∃ a b, c.smul c.base u1 = some a ∧ c.smul q u2 = some b ∧ c.add a b = some t := by
  unfold Curve.combine
  cases c.smul c.base u1 with
  | none => simp
  | some a => cases c.smul q u2 <;> simp

theorem combine_of_some {c : Curve} {u1 u2 : Nat} {q a b : Point} (ha : c.smul c.base u1 = some a)
    (hb : c.smul q u2 = some b) : c.combine u1 u2 q = c.add a b := by
  simp [Curve.combine, ha, hb]

/-- Where one multiple has no value, neither has step 5. -/
theorem combine_of_none {c : Curve} {u1 u2 : Nat} {q : Point}
    (h : c.smul c.base u1 = none ∨ c.smul q u2 = none) : c.combine u1 u2 q = none :=
  Option.eq_none_iff_forall_ne_some.mpr fun t ht => by
    obtain ⟨a, b, ha, hb, -⟩ := combine_eq_some_iff.mp ht
    simp [ha, hb] at h

/-! ### The steps in sequence -/

/-- Step 6 of VERIFY: `C` is affine and its x coordinate is `r` modulo `n` (43_ecdsa.md R156). -/
def Curve.verifyCompare (c : Curve) (r : Nat) : Point → Cmd Unit
  | .infinity => reject 10
  | .affine x _ => if r % c.n.toNat = x % c.n.toNat then .ok () else reject 11

theorem verifyCompare_eq_ok_iff {c : Curve} {r : Nat} {t : Point} :
    c.verifyCompare r t = .ok () ↔ ∃ x y, t = .affine x y ∧ r % c.n.toNat = x % c.n.toNat := by
  cases t with
  | infinity => simp [Curve.verifyCompare, reject]
  | affine x y => simp [Curve.verifyCompare, reject]

theorem orElse_reject_eq_ok_iff {α : Type} {o : Option α} {k : Nibble} {a : α} :
    orElse o (reject k) = .ok a ↔ o = some a := by
  cases o <;> simp [reject]

section
variable (c : Curve) (mode : TruncMode) (rovf sovf : Bool) (h r sg : Nat) (q : Point)

theorem verify_eq_steps : c.verify mode rovf sovf h r sg q = (do
    c.verifyKey q
    c.verifyOrder q
    verifyBound rovf c.n.toNat r 6
    verifyBound sovf c.n.toNat sg 7
    let w ← orElse (modInv sg c.n.toNat) (reject 8)
    let big ← orElse (c.combine (trunc mode c.n.toNat h * w % c.n.toNat) (r * w % c.n.toNat) q) (reject 9)
    c.verifyCompare r big) := rfl

/-- VERIFY accepts exactly when every step passes (43_ecdsa.md R156). -/
theorem verify_eq_ok_iff :
    c.verify mode rovf sovf h r sg q = .ok () ↔
      c.verifyKey q = .ok () ∧ c.verifyOrder q = .ok () ∧
      verifyBound rovf c.n.toNat r 6 = .ok () ∧ verifyBound sovf c.n.toNat sg 7 = .ok () ∧
      ∃ w x y, modInv sg c.n.toNat = some w ∧
        c.combine (trunc mode c.n.toNat h * w % c.n.toNat) (r * w % c.n.toNat) q = some (.affine x y) ∧
        r % c.n.toNat = x % c.n.toNat := by
  simp only [verify_eq_steps, cmd_bind_eq_ok, Unique.exists_iff, PUnit.default_eq_unit,
    orElse_reject_eq_ok_iff, verifyCompare_eq_ok_iff]
  refine and_congr_right fun _ => and_congr_right fun _ => and_congr_right fun _ =>
    and_congr_right fun _ => exists_congr fun w => ?_
  constructor
  · rintro ⟨hw, big, hbig, x, y, rfl, hx⟩
    exact ⟨x, y, hw, hbig, hx⟩
  · rintro ⟨x, y, hw, hbig, hx⟩
    exact ⟨hw, _, hbig, x, y, rfl, hx⟩

variable {c rovf sovf r sg q}

theorem verify_of_key_reject {k : Nibble} (hkey : c.verifyKey q = reject k) :
    c.verify mode rovf sovf h r sg q = reject k := by
  rw [verify_eq_steps, hkey, cmd_bind_reject]

variable (hkey : c.verifyKey q = .ok ())
include hkey

theorem verify_of_order_none (hord : c.smul q c.n.toNat = none) :
    c.verify mode rovf sovf h r sg q = reject 4 := by
  simp [verify_eq_steps, hkey, Curve.verifyOrder, hord]

theorem verify_of_order_affine {x y : Nat} (hord : c.smul q c.n.toNat = some (.affine x y)) :
    c.verify mode rovf sovf h r sg q = reject 5 := by
  simp [verify_eq_steps, hkey, Curve.verifyOrder, hord]

variable (hord : c.smul q c.n.toNat = some .infinity)
include hord

theorem verify_of_r_exceeds (hr : rovf = true ∨ c.n.toNat < r) :
    c.verify mode rovf sovf h r sg q = reject 6 := by
  simp [verify_eq_steps, hkey, verifyOrder_eq_ok_iff.mpr hord, verifyBound_of_exceeds hr]

variable (hr : rovf = false ∧ r ≤ c.n.toNat)
include hr

theorem verify_of_s_exceeds (hs : sovf = true ∨ c.n.toNat < sg) :
    c.verify mode rovf sovf h r sg q = reject 7 := by
  simp [verify_eq_steps, hkey, verifyOrder_eq_ok_iff.mpr hord, verifyBound_eq_ok_iff.mpr hr,
    verifyBound_of_exceeds hs]

variable (hs : sovf = false ∧ sg ≤ c.n.toNat)
include hs

theorem verify_of_bounds : c.verify mode rovf sovf h r sg q =
    orElse (modInv sg c.n.toNat) (reject 8) >>= fun w =>
      orElse (c.combine (trunc mode c.n.toNat h * w % c.n.toNat) (r * w % c.n.toNat) q) (reject 9) >>=
        c.verifyCompare r := by
  simp [verify_eq_steps, hkey, verifyOrder_eq_ok_iff.mpr hord, verifyBound_eq_ok_iff.mpr hr,
    verifyBound_eq_ok_iff.mpr hs]

theorem verify_of_no_inverse (hinv : modInv sg c.n.toNat = none) :
    c.verify mode rovf sovf h r sg q = reject 8 := by
  rw [verify_of_bounds mode h hkey hord hr hs, hinv, orElse_none, cmd_bind_reject]

variable {w : Nat} (hinv : modInv sg c.n.toNat = some w)
include hinv

theorem verify_of_combine_none
    (hbig : c.combine (trunc mode c.n.toNat h * w % c.n.toNat) (r * w % c.n.toNat) q = none) :
    c.verify mode rovf sovf h r sg q = reject 9 := by
  rw [verify_of_bounds mode h hkey hord hr hs, hinv, orElse_some, cmd_bind_ok, hbig, orElse_none,
    cmd_bind_reject]

theorem verify_of_combine_some {t : Point}
    (hbig : c.combine (trunc mode c.n.toNat h * w % c.n.toNat) (r * w % c.n.toNat) q = some t) :
    c.verify mode rovf sovf h r sg q = c.verifyCompare r t := by
  rw [verify_of_bounds mode h hkey hord hr hs, hinv, orElse_some, cmd_bind_ok, hbig, orElse_some,
    cmd_bind_ok]

end

/-! ### What VERIFY reports -/

/-- A rejecting command writes no operand and reports its reason without an error (43_ecdsa.md R158). -/
theorem exec_rejects {i : Instr} {s : State} {k : Nibble} (h : cmdOf i s = reject k) :
    ∃ t, exec i s = .next t ∧ s.SameOperands t ∧ s.SameControl t ∧ t.Reports 0 k false :=
  ⟨s.complete (reject k), by rw [exec_eq_complete, h], complete_error_operands s _,
    complete_control s _, report_reports s .enone k false⟩

section
variable {s : State} (hok : s.cur.Ok) {vr : VReg} (hvr : vr.isEven = true) {rovf sovf : Bool} {vh : VReg}
  {pq : PReg}
include hok hvr

theorem cmdOf_verify_of_ok : cmdOf (.verify rovf sovf vh vr pq) s =
    s.cur.verify s.cfg.truncMode rovf sovf (s.nat vh) (s.nat vr) (s.nat (pairReg vr)) (s.readPt pq) >>=
      fun _ => .ok (verdict true) := by
  simp [cmdOf, verifyCmd, checkEven_of_even hvr, checkCfg_of_ok hok]

theorem exec_verify_of_accept (h : s.cur.verify s.cfg.truncMode rovf sovf (s.nat vh) (s.nat vr)
    (s.nat (pairReg vr)) (s.readPt pq) = .ok ()) :
    ∃ t, exec (.verify rovf sovf vh vr pq) s = .next t ∧ s.SameOperands t ∧ s.SameControl t ∧
      t.Reports 0 0 true :=
  exec_verdict (by rw [cmdOf_verify_of_ok hok hvr, h, cmd_bind_ok])

theorem exec_verify_of_reject {k : Nibble} (h : s.cur.verify s.cfg.truncMode rovf sovf (s.nat vh)
    (s.nat vr) (s.nat (pairReg vr)) (s.readPt pq) = reject k) :
    ∃ t, exec (.verify rovf sovf vh vr pq) s = .next t ∧ s.SameOperands t ∧ s.SameControl t ∧
      t.Reports 0 k false :=
  exec_rejects (by rw [cmdOf_verify_of_ok hok hvr, h, cmd_bind_reject])

variable {t : State} (ht : exec (.verify rovf sovf vh vr pq) s = .next t)
include ht

theorem reports_of_verify_reject {k : Nibble} (h : s.cur.verify s.cfg.truncMode rovf sovf (s.nat vh)
    (s.nat vr) (s.nat (pairReg vr)) (s.readPt pq) = reject k) : t.Reports 0 k false := by
  obtain ⟨t', ht', -, -, hrep⟩ := exec_verify_of_reject hok hvr h
  obtain rfl : t = t' := by simpa [ht] using ht'
  exact hrep

/-- `RESULT` is 1 exactly when the computation accepts (43_ecdsa.md R156, R158). -/
theorem result_verify_iff : t.result = true ↔ s.cur.verify s.cfg.truncMode rovf sovf (s.nat vh)
    (s.nat vr) (s.nat (pairReg vr)) (s.readPt pq) = .ok () := by
  cases hv : s.cur.verify s.cfg.truncMode rovf sovf (s.nat vh) (s.nat vr) (s.nat (pairReg vr))
      (s.readPt pq) with
  | ok =>
    obtain ⟨t', ht', -, -, hrep⟩ := exec_verify_of_accept hok hvr hv
    obtain rfl : t = t' := by simpa [ht] using ht'
    simp [hrep.result]
  | error e =>
    obtain ⟨k, -, rfl⟩ := verify_error hv
    simp [(reports_of_verify_reject hok hvr ht hv).result]

end

end Sys2Proof.Machine
end

section
/-! The statements of VERIFY (43_ecdsa.md R156-R159), settled. -/

open Sys2Proof Sys2Proof.Machine

namespace Sys2Proof.Proofs

/-- The reject reasons are 1 to 11 (43_ecdsa.md R157). -/
theorem reason_bounds : ∀ k ∈ [(1 : Nibble), 2, 3, 4, 5, 6, 7, 8, 9, 10, 11], k ≠ 0 ∧ k.toNat ≤ 11 := by
  decide

/-- Settles O43: the computation accepts or rejects with a reason; it raises no error. -/
theorem verifyAlwaysReportsAVerdict : Obligations.VerifyAlwaysReportsAVerdict := by
  intro rovf sovf vh vr pq s hok hvr
  have heven := isEven_of_mod hvr
  cases hv : s.cur.verify s.cfg.truncMode rovf sovf (s.nat vh) (s.nat vr) (s.nat (pairReg vr))
      (s.readPt pq) with
  | ok =>
    obtain ⟨t, ht, hops, hctl, hrep⟩ := exec_verify_of_accept hok heven hv
    exact ⟨t, true, 0, ht, hops, hctl, hrep, by decide, by decide⟩
  | error e =>
    obtain ⟨k, hk, rfl⟩ := verify_error hv
    obtain ⟨hne, hle⟩ := reason_bounds k hk
    obtain ⟨t, ht, hops, hctl, hrep⟩ := exec_verify_of_reject hok heven hv
    exact ⟨t, false, k, ht, hops, hctl, hrep, by simpa using hne, hle⟩

/-- Settles O44: the acceptance of the computation, each step in the words of the statement. -/
theorem verifyAcceptsExactly : Obligations.VerifyAcceptsExactly := by
  rintro rovf sovf vh vr pq s t n r sg z hok hvr rfl rfl rfl rfl ht
  rw [result_verify_iff hok (isEven_of_mod hvr) ht, verify_eq_ok_iff, verifyKey_eq_ok_iff,
    verifyOrder_eq_ok_iff, verifyBound_eq_ok_iff, verifyBound_eq_ok_iff]
  simp only [modInv_natCast_eq_some_iff_mod hok.2.1, combine_eq_some_iff, and_assoc]
  constructor
  · rintro ⟨hinf, hpt, hon, hord, hrovf, hr, hsovf, hs, w, x, y, hw, hmul, ⟨a, b, ha, hb, hsum⟩, hx⟩
    exact ⟨hinf, hpt, hon, hord, hrovf, hr, hsovf, hs, w, a, b, x, y, hw, hmul, ha, hb, hsum, hx⟩
  · rintro ⟨hinf, hpt, hon, hord, hrovf, hr, hsovf, hs, w, a, b, x, y, hw, hmul, ha, hb, hsum, hx⟩
    exact ⟨hinf, hpt, hon, hord, hrovf, hr, hsovf, hs, w, x, y, hw, hmul, ⟨a, b, ha, hb, hsum⟩, hx⟩

/-- Settles O45: the first step that fails decides the reason. -/
theorem verifyRejectReasons : Obligations.VerifyRejectReasons := by
  rintro rovf sovf vh vr pq s t n r sg z hok hvr rfl rfl rfl rfl ht
  have rejects : ∀ {k : Nibble}, s.cur.verify s.cfg.truncMode rovf sovf (s.nat vh) (s.nat vr)
      (s.nat (pairReg vr)) (s.readPt pq) = reject k → t.Reports 0 k false :=
    reports_of_verify_reject hok (isEven_of_mod hvr) ht
  refine ⟨fun hinf => ?_, fun hinf hrange => ?_, fun hinf hrange => ⟨fun hoff => ?_, fun hon => ?_⟩⟩
  · exact rejects (verify_of_key_reject _ _ (by rw [readPt_eq_infinity_iff.mpr hinf, Curve.verifyKey]))
  · exact rejects (verify_of_key_reject _ _ (verifyKey_of_out_of_range hinf hrange))
  · exact rejects (verify_of_key_reject _ _ (by simp [verifyKey_of_in_range hinf hrange, hoff]))
  have hkey := verifyKey_eq_ok_iff.mpr ⟨hinf, hrange, hon⟩
  refine ⟨fun hord => rejects (verify_of_order_none _ _ hkey hord),
    fun x y hord => rejects (verify_of_order_affine _ _ hkey hord), fun hord => ?_⟩
  refine ⟨fun hr => rejects (verify_of_r_exceeds _ _ hkey hord hr), fun hrovf hr => ?_⟩
  have hrok := And.intro hrovf hr
  refine ⟨fun hs => rejects (verify_of_s_exceeds _ _ hkey hord hrok hs), fun hsovf hs => ?_⟩
  have hsok := And.intro hsovf hs
  refine ⟨fun hgcd => rejects (verify_of_no_inverse _ _ hkey hord hrok hsok
    ((modInv_eq_none_iff_gcd (Nat.zero_lt_of_lt hok.2.1)).mpr hgcd)), fun w hw hmul => ?_⟩
  have hinv := (modInv_natCast_eq_some_iff_mod hok.2.1).mpr ⟨hw, hmul⟩
  have noSum := verify_of_combine_none s.cfg.truncMode (s.nat vh) hkey hord hrok hsok hinv
  refine ⟨fun ha => rejects (noSum (combine_of_none (.inl ha))), fun a ha =>
    ⟨fun hb => rejects (noSum (combine_of_none (.inr hb))), fun b hb => ?_⟩⟩
  have hsum := combine_of_some ha hb
  have compared := fun {q} (h : s.cur.add a b = some q) =>
    verify_of_combine_some s.cfg.truncMode (s.nat vh) hkey hord hrok hsok hinv (hsum.trans h)
  exact ⟨fun hnone => rejects (noSum (hsum.trans hnone)), fun h => rejects (compared h),
    fun x y h hne => rejects ((compared h).trans (if_neg hne))⟩

end Sys2Proof.Proofs
end

section
/-! SUPPORT. What the host computes around ECDSA: the mapped integers of a request pass VERIFY's checks as
the integers themselves do, and the formulas of nonce reuse are quotients modulo `n` (43_ecdsa.md R160,
R162). -/

namespace Sys2Proof.Machine

/-! ### The mapping of a request (43_ecdsa.md R160) -/

/-- The mapped integer passes the bound of VERIFY exactly when the integer itself is not above `n`. -/
theorem mapInteger_bound_iff {n : Nat} (hpos : 0 < n) (hn : n < 2 ^ 256) (x : Int) :
    (mapInteger n x).1 = false ∧ (mapInteger n x).2 ≤ n ↔ x ≤ n := by
  have hlt := modNat_lt x hpos
  unfold mapInteger
  split_ifs with hneg hbig
  · simp only [true_and]
    omega
  · simp only [true_and]
    omega
  · simp only [false_and, false_iff]
    omega

/-- Where the bound holds, the mapped integer has the residue of the integer. -/
theorem mapInteger_modEq {n : Nat} (hpos : 0 < n) (hn : n < 2 ^ 256) {x : Int} (hx : x ≤ n) :
    ((mapInteger n x).2 : Int) ≡ x [ZMOD n] := by
  unfold mapInteger
  split_ifs with hneg hbig
  · exact modNat_modEq x hpos
  · rw [Int.toNat_of_nonneg (by omega)]
  · omega

theorem mapRequest_of_malformed {n : Nat} {r sg : Option Int} (h : r = none ∨ sg = none) :
    mapRequest n r sg = ((false, 0), (false, 0)) := by
  rcases h with rfl | rfl
  · rfl
  · cases r <;> rfl

/-- The document's `verify` accepts exactly when every step passes, on unbounded integers. -/
theorem softwareVerify_eq_true_iff (c : Curve) (mode : TruncMode) (h : Nat) (r sg : Int) (q : Point) :
    c.softwareVerify mode h r sg q = true ↔
      c.verifyKey q = .ok () ∧ c.verifyOrder q = .ok () ∧ r ≤ c.n.toNat ∧ sg ≤ c.n.toNat ∧
      ∃ w x y, modInv sg c.n.toNat = some w ∧
        c.combine (trunc mode c.n.toNat h * w % c.n.toNat) (modNat (r * w) c.n.toNat) q
          = some (.affine x y) ∧
        modNat r c.n.toNat = x % c.n.toNat := by
  cases hkey : c.verifyKey q with
  | error e => simp [Curve.softwareVerify, hkey]
  | ok =>
    cases hord : c.verifyOrder q with
    | error e => simp [Curve.softwareVerify, hkey, hord]
    | ok =>
      by_cases hb : (c.n.toNat : Int) < r ∨ (c.n.toNat : Int) < sg
      · simp only [Curve.softwareVerify, hkey, hord, if_pos hb, Bool.false_eq_true, true_and, false_iff]
        omega
      · obtain ⟨hr, hs⟩ : r ≤ c.n.toNat ∧ sg ≤ c.n.toNat := by omega
        cases hinv : modInv sg c.n.toNat with
        | none => simp [Curve.softwareVerify, hkey, hord, hinv]
        | some w =>
          simp only [Curve.softwareVerify, hkey, hord, if_neg hb, hinv, hr, hs, true_and, Option.some.injEq,
            exists_and_left, exists_eq_left']
          cases c.combine (trunc mode c.n.toNat h * w % c.n.toNat) (modNat (r * w) c.n.toNat) q with
          | none => simp
          | some t => cases t <;> simp

/-- On the mapped integers VERIFY accepts exactly what the document's `verify` accepts on the integers
(43_ecdsa.md R160). -/
theorem verify_mapInteger_iff {c : Curve} (hn : 2 ≤ c.n.toNat) (mode : TruncMode) (h : Nat) (r sg : Int)
    (q : Point) :
    c.verify mode (mapInteger c.n.toNat r).1 (mapInteger c.n.toNat sg).1 h (mapInteger c.n.toNat r).2
        (mapInteger c.n.toNat sg).2 q = .ok () ↔ c.softwareVerify mode h r sg q = true := by
  have hpos : 0 < c.n.toNat := Nat.zero_lt_of_lt hn
  have hlt : c.n.toNat < 2 ^ 256 := c.n.isLt
  rw [verify_eq_ok_iff, softwareVerify_eq_true_iff, verifyBound_eq_ok_iff, verifyBound_eq_ok_iff,
    mapInteger_bound_iff hpos hlt, mapInteger_bound_iff hpos hlt]
  refine and_congr_right fun _ => and_congr_right fun _ => and_congr_right fun hr =>
    and_congr_right fun hs => ?_
  have hres := mapInteger_modEq hpos hlt hr
  rw [modInv_congr (mapInteger_modEq hpos hlt hs)]
  have hmul : ∀ w : Nat, (mapInteger c.n.toNat r).2 * w % c.n.toNat = modNat (r * w) c.n.toNat := by
    intro w
    rw [← modNat_natCast, Nat.cast_mul]
    exact modNat_congr (hres.mul_right w)
  rw [← modNat_natCast, modNat_congr hres]
  simp only [hmul]

/-- A zero `s` has no inverse, so no request with it is accepted. -/
theorem verify_zero_ne_ok {c : Curve} (hn : 2 ≤ c.n.toNat) (mode : TruncMode) (rovf sovf : Bool)
    (h r : Nat) (q : Point) : c.verify mode rovf sovf h r 0 q ≠ .ok () := by
  rw [Ne, verify_eq_ok_iff]
  rintro ⟨-, -, -, -, w, -, -, hw, -⟩
  obtain ⟨-, hmul⟩ := (modInv_natCast_eq_some_iff_mod hn).mp hw
  simp at hmul

/-! ### Nonce reuse (43_ecdsa.md R162) -/

/-- Every solution of `den · l = num` has the quotient as its remainder. -/
theorem modDiv_eq_of_modEq {num den : Int} {m l : Nat} (hm : 2 ≤ m) (hgcd : Int.gcd den m = 1)
    (hl : den * l ≡ num [ZMOD m]) : modDiv num den m = some (l % m) := by
  obtain ⟨l', hl', hmod⟩ := exists_modDiv_modEq hm hgcd hl
  obtain ⟨i, -, hi⟩ := Option.map_eq_some_iff.mp hl'
  have hlt : l' < m := hi ▸ modNat_lt _ (Nat.zero_lt_of_lt hm)
  rw [hl', ← Nat.mod_eq_of_lt hlt, Int.natCast_modEq_iff.mp hmod]

theorem recoverNonce_eq_modDiv (n : Nat) (z1 z2 s1 s2 : Int) :
    recoverNonce n z1 z2 s1 s2 = modDiv (z1 - z2) (s1 - s2) n := by
  rw [recoverNonce, modDiv]
  cases modInv (s1 - s2) n <;> rfl

theorem recoverKey_eq_modDiv (n : Nat) (r s1 z1 k : Int) :
    recoverKey n r s1 z1 k = modDiv (s1 * k - z1) r n := by
  rw [recoverKey, modDiv]
  cases modInv r n <;> rfl

/-- A signature made with the nonce `k` gives back the key modulo a prime `n`. -/
theorem recoverKey_of_equation {n k d r s z : Nat} (hn : n.Prime) (hr : r ≠ 0) (hlt : r < n)
    (h : k * s ≡ z + r * d [MOD n]) : recoverKey n r s z k = some (d % n) := by
  have hgcd : Int.gcd r n = 1 := by simpa using gcd_sub_of_lt hn hlt hn.pos hr
  rw [recoverKey_eq_modDiv]
  refine modDiv_eq_of_modEq hn.two_le hgcd ?_
  have hz : (s : Int) * k ≡ z + r * d [ZMOD n] := by
    rw [mul_comm]
    exact_mod_cast Int.natCast_modEq_iff.mpr h
  simpa using (hz.sub_right z).symm

/-- Two signatures with one nonce and one `r` but different `s` give back the nonce. -/
theorem recoverNonce_of_equations {n k e s1 s2 z1 z2 : Nat} (hn : n.Prime) (h1 : s1 < n) (h2 : s2 < n)
    (hne : s1 ≠ s2) (heq1 : k * s1 ≡ z1 + e [MOD n]) (heq2 : k * s2 ≡ z2 + e [MOD n]) :
    recoverNonce n z1 z2 s1 s2 = some (k % n) := by
  have hgcd : Int.gcd ((s1 : Int) - s2) n = 1 := gcd_sub_of_lt hn h2 h1 hne.symm
  rw [recoverNonce_eq_modDiv]
  refine modDiv_eq_of_modEq hn.two_le hgcd ?_
  have hz1 : (k : Int) * s1 ≡ z1 + e [ZMOD n] := by exact_mod_cast Int.natCast_modEq_iff.mpr heq1
  have hz2 : (k : Int) * s2 ≡ z2 + e [ZMOD n] := by exact_mod_cast Int.natCast_modEq_iff.mpr heq2
  calc ((s1 : Int) - s2) * k = k * s1 - k * s2 := by ring
    _ ≡ (z1 + e) - (z2 + e) [ZMOD n] := hz1.sub hz2
    _ = z1 - z2 := by ring

end Sys2Proof.Machine
end

section
/-! The statements of the host's ECDSA duties and of nonce reuse (43_ecdsa.md R160, R162), settled. -/

open Sys2Proof Sys2Proof.Machine

namespace Sys2Proof.Proofs

/-- Settles O46: the mapping keeps each bound and each residue, and a malformed request has `s = 0`. -/
theorem mappedRequestHasTheSoftwareVerdict : Obligations.MappedRequestHasTheSoftwareVerdict := by
  intro vh vr pq s t r sg hok hvr hread hpair ht
  have hresult := result_verify_iff hok (isEven_of_mod hvr) ht
  rw [State.nat, State.nat, State.nat, hread, hpair] at hresult
  constructor
  · rintro x y rfl rfl
    rw [Bool.eq_iff_iff, hresult]
    exact verify_mapInteger_iff hok.2.1 ..
  · intro hnone
    rw [mapRequest_of_malformed hnone] at hresult
    rw [← Bool.not_eq_true, hresult]
    exact verify_zero_ne_ok hok.2.1 _ _ _ _ _ _

/-- Settles O47: `r` depends on the nonce alone, and the two signing equations are solved by division. -/
theorem nonceReuseRecoversTheKey : Obligations.NonceReuseRecoversTheKey := by
  intro c mode h1 h2 d k r1 s1 r2 s2 hn hsign1 hsign2
  obtain ⟨x1, y1, hbig1, rfl, hr, -, hs1, heq1⟩ := sign_ok hn.two_le hsign1
  obtain ⟨x2, y2, hbig2, rfl, -, -, hs2, heq2⟩ := sign_ok hn.two_le hsign2
  obtain ⟨rfl, -⟩ : x1 = x2 ∧ y1 = y2 := by simpa [hbig1] using hbig2
  exact ⟨rfl, fun hne => ⟨recoverNonce_of_equations hn hs1 hs2 hne heq1 heq2,
    recoverKey_of_equation hn hr (Nat.mod_lt _ hn.pos) heq1⟩⟩

end Sys2Proof.Proofs
end

section
/-! SUPPORT. The two effects of a CTRL write, one rule each: it ends a running command, or it sets `IE` and
`SEALED` only (44_system.md R171-R173). -/

namespace Sys2Proof.Machine

/-- With the ABORT bit, a CTRL write to a busy block ends the command with EABORT (R172). -/
theorem ctrlWrite_of_abort {s : State} {v : Word} (hv : v.getLsbD 2 = true) (hb : s.busy = true) :
    s.ctrlWrite v =
      ({ s with ie := v.getLsbD 0, sealed := s.sealed || v.getLsbD 1 } : State).takeError .eabort 0 := by
  rw [ctrlWrite_eq, hv, hb, Bool.and_self, if_pos rfl]

/-- Without the ABORT bit, or to an idle block, a CTRL write sets `IE` and `SEALED` only. -/
theorem ctrlWrite_of_not_abort {s : State} {v : Word} (h : v.getLsbD 2 = false ∨ s.busy = false) :
    s.ctrlWrite v = { s with ie := v.getLsbD 0, sealed := s.sealed || v.getLsbD 1 } := by
  rw [ctrlWrite_eq, if_neg]
  rwa [Bool.not_eq_true, Bool.and_eq_false_iff]

end Sys2Proof.Machine
end

section
/-! The statements of NOP and of the CTRL write (44_system.md R170-R173), settled. -/

open Sys2Proof Sys2Proof.Machine

namespace Sys2Proof.Proofs

/-- Settles O23: NOP's outcome has no writes and the verdict `false`, so its completion is the report
alone. -/
theorem nopCompletes : Obligations.NopCompletes := by
  intro s
  have houtcome : cmdOf .nop s = .ok (verdict false) := rfl
  rw [exec_eq_complete, houtcome, complete_ok]
  rfl

/-- Settles O55: offset `0x004` is CTRL, and its write aborts or not. -/
theorem ctrlWriteEffects : Obligations.CtrlWriteEffects := by
  intro s v
  refine ⟨fun hv hb => ?_, fun h => ?_⟩
  · rw [busWrite_ctrl, ctrlWrite_of_abort hv hb]
    rfl
  · rw [busWrite_ctrl, ctrlWrite_of_not_abort h]

end Sys2Proof.Proofs
end

section
/-! SUPPORT. What a command's early end reports, which command can report which code, and the
configuration check ahead of everything else (60_exceptions.md R180, R181, R184); the engine and every event
answer a next state (R196). -/

namespace Sys2Proof.Machine

/-- Inversion of `exec`: it answers the completion of the command's outcome. -/
theorem exec_next_inv {i : Instr} {s t : State} (h : exec i s = .next t) :
    t = s.complete (cmdOf i s) :=
  (Host.Outcome.next.inj (exec_eq_complete i s ▸ h)).symm

/-! ### Completions that report an error or a result -/

/-- Only an early end reports an error. -/
theorem complete_err_inv {s : State} {r : Cmd Effect} (h : (s.complete r).err = true) :
    ∃ e, r = .error e := by
  cases r with
  | ok e => exact absurd h (by simp [ErrCode.code])
  | error e => exact ⟨e, rfl⟩

/-- An early end leaves `RESULT` 0 (60_exceptions.md R180). -/
theorem complete_error_result (s : State) (e : Ending) :
    (s.complete (.error e)).result = false := by
  cases e <;> rfl

/-- `RESULT` is set by a successful outcome that carries it. -/
theorem complete_result_inv {s : State} {r : Cmd Effect} (h : (s.complete r).result = true) :
    ∃ e, r = .ok e ∧ e.res = true := by
  cases r with
  | ok e => exact ⟨e, rfl, h⟩
  | error e => exact absurd h (by simp [complete_error_result])

/-- A successful outcome without writes leaves the operands alone. -/
theorem complete_sameOperands_of_no_writes (s : State) {e : Effect} (h : e.writes = []) :
    s.SameOperands (s.complete (.ok e)) := by
  rw [complete_ok, h]
  exact ⟨rfl, rfl⟩

/-! ### The raised-by column of 60_exceptions.md R181 -/

theorem ErrCode.code_injective : Function.Injective ErrCode.code := by
  intro a b
  cases a <;> cases b <;> decide

/-- Which well-formed command can report which code of itself (60_exceptions.md R181). -/
def CanReport (i : Instr) : ErrCode → Prop
  | .enone => True
  | .eillegal => False
  | .ecfg => i ≠ .nop
  | .eoperand => pointOperands i ≠ []
  | .earith => (∃ m neg vd va, i = .finv m neg vd va) ∨ addsPoints i = true
  | .eretry => ∃ vd vh vkey vk, i = .sign vd vh vkey vk
  | .elimit => ∃ vd pa, i = .pord vd pa
  | .eabort => False

/-- EABORT, the only code above 6, is reported by no command of itself. -/
theorem CanReport.code_le {i : Instr} {c : ErrCode} (h : CanReport i c) :
    c.code.toNat ≤ 6 := by
  cases c with
  | eabort => exact h.elim
  | _ => decide

/-- An early end of a command reports a code that the command can report. -/
theorem canReport_of_earlyEnd {i : Instr} {e : Ending} (h : EarlyEnd i e) (s : State) :
    ∃ c, (s.complete (.error e)).errcode = c.code ∧ CanReport i c := by
  cases h with
  | ecfg k hi _ => exact ⟨.ecfg, rfl, hi⟩
  | eoperand j hj => exact ⟨.eoperand, rfl, List.ne_nil_of_mem hj⟩
  | noInverse hi => exact ⟨.earith, rfl, .inl hi⟩
  | addFails hi => exact ⟨.earith, rfl, .inr hi⟩
  | eretry k hi _ => exact ⟨.eretry, rfl, hi⟩
  | elimit hi => exact ⟨.elimit, rfl, hi⟩
  | reject k _ _ => exact ⟨.enone, rfl, trivial⟩

/-- A well-formed command reports a code that it can report. -/
theorem canReport_of_complete {i : Instr} (hw : i.WellFormed) (s : State) :
    ∃ c, (s.complete (cmdOf i s)).errcode = c.code ∧ CanReport i c := by
  cases h : cmdOf i s with
  | ok e => exact ⟨.enone, rfl, trivial⟩
  | error e => exact canReport_of_earlyEnd (cmdOf_error hw h) s

/-- The commands that add points, by name. -/
theorem addsPoints_inv {i : Instr} (h : addsPoints i = true) :
    (∃ pd pa pb, i = .padd pd pa pb) ∨ (∃ pd pa, i = .pdbl pd pa) ∨
      (∃ neg pd pa vk, i = .pmul neg pd pa vk) ∨ ∃ vd pa, i = .pord vd pa := by
  cases i with
  | padd pd pa pb => exact .inl ⟨pd, pa, pb, rfl⟩
  | pdbl pd pa => exact .inr (.inl ⟨pd, pa, rfl⟩)
  | pmul neg pd pa vk => exact .inr (.inr (.inl ⟨neg, pd, pa, vk, rfl⟩))
  | pord vd pa => exact .inr (.inr (.inr ⟨vd, pa, rfl⟩))
  | _ => exact absurd h (by simp [addsPoints])

/-- The commands that report a verdict, by name. -/
theorem verdictOnly_inv {i : Instr} (h : verdictOnly i = true) :
    (∃ pa, i = .pchk pa) ∨ (∃ pa pb, i = .peq pa pb) ∨
      ∃ rovf sovf vh vr pq, i = .verify rovf sovf vh vr pq := by
  cases i with
  | pchk pa => exact .inl ⟨pa, rfl⟩
  | peq pa pb => exact .inr (.inl ⟨pa, pb, rfl⟩)
  | verify rovf sovf vh vr pq => exact .inr (.inr ⟨rovf, sovf, vh, vr, pq, rfl⟩)
  | _ => exact absurd h (by simp [verdictOnly])

/-- A command that sets `RESULT` reports no error, writes no operand and is one of the verdict commands
(10_state.md R43). -/
theorem complete_cmdOf_of_result {i : Instr} {s : State}
    (h : (s.complete (cmdOf i s)).result = true) :
    (s.complete (cmdOf i s)).errcode = 0 ∧ (s.complete (cmdOf i s)).errinfo = 0 ∧
      s.SameOperands (s.complete (cmdOf i s)) ∧ verdictOnly i = true := by
  obtain ⟨e, he, hres⟩ := complete_result_inv h
  obtain ⟨hverdict, hwrites, -⟩ := cmdOf_ok he
  have hi := hverdict hres
  rw [he]
  exact ⟨rfl, rfl, complete_sameOperands_of_no_writes s (hwrites hi), hi⟩

/-! ### The configuration check (60_exceptions.md R184) -/

theorem cfgError_of_p_small {c : Curve} (h : c.p.toNat < 2) : c.cfgError = some 1 := by
  rw [Curve.cfgError, if_pos h]

theorem cfgError_of_n_small {c : Curve} (hp : 2 ≤ c.p.toNat) (h : c.n.toNat < 2) :
    c.cfgError = some 2 := by
  rw [Curve.cfgError, if_neg (by omega), if_pos h]

theorem cfgError_of_base_out_of_range {c : Curve} (hp : 2 ≤ c.p.toNat) (hn : 2 ≤ c.n.toNat)
    (h : c.p.toNat ≤ c.gx.toNat ∨ c.p.toNat ≤ c.gy.toNat) : c.cfgError = some 3 := by
  rw [Curve.cfgError, if_neg (by omega), if_neg (by omega), if_pos h]

/-- A well-formed command other than NOP checks the configuration first: the evenness check before it in
SIGN and VERIFY is the decoder's, and a well-formed command passes it. -/
theorem cmdOf_checks_cfg_first {i : Instr} (hw : i.WellFormed) (hi : i ≠ .nop) (s : State) :
    ∃ rest : Cmd Effect, cmdOf i s = checkCfg s >>= fun _ => rest := by
  cases i with
  | nop => exact absurd rfl hi
  | sign vd vh vkey vk =>
    have heven : vd.isEven = true := hw
    exact ⟨_, by rw [cmdOf, signCmd, checkEven_of_even heven, cmd_bind_ok]⟩
  | verify rovf sovf vh vr pq =>
    have heven : vr.isEven = true := hw
    exact ⟨_, by rw [cmdOf, verifyCmd, checkEven_of_even heven, cmd_bind_ok]⟩
  | _ => exact ⟨_, rfl⟩

/-- An unusable configuration ends every well-formed command other than NOP with ECFG. -/
theorem cmdOf_of_cfgError {i : Instr} (hw : i.WellFormed) (hi : i ≠ .nop) {s : State} {k : Nibble}
    (h : s.cur.cfgError = some k) : cmdOf i s = raise .ecfg k := by
  obtain ⟨rest, hrest⟩ := cmdOf_checks_cfg_first hw hi s
  rw [hrest, checkCfg_of_error h, cmd_bind_raise]

/-! ### No event stops the block (60_exceptions.md R196) -/

theorem exists_engineStep (s : State) : ∃ t, engineStep s = .next t := by
  cases h : s.busy with
  | true => exact ⟨_, engineStep_busy h⟩
  | false => exact ⟨_, engineStep_idle h⟩

theorem exists_handle (e : Event) (s : State) : ∃ t, handle e s = .next t := by
  cases e with
  | engine => exact exists_engineStep s
  | _ => exact ⟨_, rfl⟩

end Sys2Proof.Machine
end

section
/-! The statements of the exceptions (60_exceptions.md), settled. -/

open Sys2Proof Sys2Proof.Machine

namespace Sys2Proof.Proofs

/-- Settles O9: the step is the engine's or the next event's, and both answer a next state. -/
theorem everyStepGoesOn : Obligations.EveryStepGoesOn := by
  intro s
  cases h : s.events with
  | nil =>
    obtain ⟨t, ht⟩ := exists_engineStep s
    exact ⟨t, by rw [step, h]; exact ht⟩
  | cons e rest =>
    obtain ⟨t, ht⟩ := exists_handle e { s with events := rest }
    exact ⟨t, by rw [step, h]; exact ht⟩

/-- Settles O17: only an early end reports an error, and its completion writes no operand. -/
theorem errorsWriteNothing : Obligations.ErrorsWriteNothing := by
  intro i s t hexec herr
  obtain rfl := exec_next_inv hexec
  obtain ⟨e, he⟩ := complete_err_inv herr
  rw [he]
  exact ⟨complete_error_operands s e, complete_control s _, complete_error_result s e⟩

/-- Settles O19: the code is one of the command's row of the table, and codes are distinct. -/
theorem reportsByCommand : Obligations.ReportsByCommand := by
  intro i s t hw hexec
  obtain rfl := exec_next_inv hexec
  obtain ⟨c, hc, hi⟩ := canReport_of_complete hw s
  have row : ∀ d : ErrCode, (s.complete (cmdOf i s)).errcode = d.code → CanReport i d :=
    fun d hd => ErrCode.code_injective (hc.symm.trans hd) ▸ hi
  refine ⟨hc ▸ hi.code_le, row .eillegal, row .ecfg, row .eoperand,
    fun h => (row .earith h).imp_right addsPoints_inv, row .eretry, fun hpord h => ?_, fun hres => ?_⟩
  · obtain ⟨vd, pa, rfl⟩ := row .elimit h
    exact hpord vd pa rfl
  · obtain ⟨hcode, hinfo, hops, hverdict⟩ := complete_cmdOf_of_result hres
    exact ⟨hcode, hinfo, hops, verdictOnly_inv hverdict⟩

/-- Settles O21: the configuration check is the first thing a command does, and it answers the first
broken condition. -/
theorem configurationErrors : Obligations.ConfigurationErrors := by
  intro i s hw hi
  refine ⟨fun hp => ?_, fun hp hn => ?_, fun hp hn hg => ?_⟩
  · exact exec_raises (cmdOf_of_cfgError hw hi (cfgError_of_p_small hp))
  · exact exec_raises (cmdOf_of_cfgError hw hi (cfgError_of_n_small hp hn))
  · exact exec_raises (cmdOf_of_cfgError hw hi (cfgError_of_base_out_of_range hp hn hg))

/-- Settles O56: a completion leaves an idle block, which the write does not abort; an abort leaves an
idle block, which the engine does not step. -/
theorem abortRaceOrders : Obligations.AbortRaceOrders := by
  intro s v hb hv
  constructor
  · obtain ⟨hidle, hdone, hirq⟩ := complete_idle s (runningOutcome s)
    refine ⟨_, engineStep_busy hb, hidle, hdone, hirq, ?_⟩
    rw [busWrite_ctrl, ctrlWrite_of_not_abort (.inr hidle), (complete_control s _).sealed]
  · refine ⟨_, rfl, ?_⟩
    rw [busWrite_ctrl, ctrlWrite_of_abort hv hb]
    exact ⟨engineStep_idle rfl, report_reports _ .eabort 0 false, ⟨rfl, rfl⟩, rfl⟩

end Sys2Proof.Proofs
end

section
/-! SUPPORT. The next event of the schedule and a run of steps, one rule each (20_memory.md R69,
70_reset_and_hazards.md R226). -/

namespace Sys2Proof.Machine

/-- A scheduled event takes effect on the state with the rest of the schedule to come. -/
theorem step_of_cons {s : State} {e : Event} {rest : List Event} (h : s.events = e :: rest) :
    step s = handle e { s with events := rest } := by
  rw [step, h]

/-- With the schedule at its end, a running command completes (70_reset_and_hazards.md R226). -/
theorem step_completes_of_quiet {s : State} (hb : s.busy = true) (h : s.events = []) :
    step s = .next (s.complete (runningOutcome s)) := by
  rw [step_of_engineNext (.inr ⟨h, rfl⟩), ← h]
  exact engineStep_busy hb

/-- A scheduled read changes neither the block nor the configuration, and leaves the rest of the
schedule to come. -/
theorem step_read_frame {s : State} {addr : Nat} {width : AccessWidth} {rest : List Event}
    (h : s.events = .read addr width :: rest) :
    ∃ t, step s = .next t ∧ t.toBlock = s.toBlock ∧ t.cfg = s.cfg ∧ t.events = rest :=
  ⟨_, step_of_cons h, hostRead_frame { s with events := rest } addr width⟩

/-- A run of `k + 1` steps is the first step and a run of `k` from the state it answers. -/
theorem run_succ_of_step (M : Host.Core) {s t : M.State} (h : M.step s = .next t) (k : Nat) :
    M.run (k + 1) s = M.run k t := by
  rw [Host.Core.run, h]

/-- The reads reach a state `u` with the block and the configuration they started from, so the run's
last step completes the very command that was running. -/
theorem run_reads_completes {reads : List Event}
    (hr : ∀ e ∈ reads, ∃ addr width, e = .read addr width) {s : State} (hs : s.events = reads) (hb : s.busy = true) :
    ∃ u : State, Host.Core.run Sys2Proof.core (reads.length + 1) s =
      .next (u.complete (runningOutcome u)) ∧ u.toBlock = s.toBlock ∧ u.cfg = s.cfg := by
  induction reads generalizing s with
  | nil => exact ⟨s, run_succ_of_step Sys2Proof.core (step_completes_of_quiet hb hs) 0, rfl, rfl⟩
  | cons e rest ih =>
    obtain ⟨⟨addr, width, rfl⟩, hrest⟩ := List.forall_mem_cons.mp hr
    obtain ⟨t, hstep, hblock, hcfg, hevents⟩ := step_read_frame hs
    have hbusy : t.busy = true := by rw [hblock, hb]
    obtain ⟨u, hrun, hublock, hucfg⟩ := ih hrest hevents hbusy
    have hfirst := run_succ_of_step Sys2Proof.core hstep (rest.length + 1)
    exact ⟨u, hfirst.trans hrun, hublock.trans hblock, hucfg.trans hcfg⟩

end Sys2Proof.Machine
end

section
/-! The statements of reset and hazards (70_reset_and_hazards.md), settled. -/

open Sys2Proof Sys2Proof.Machine

namespace Sys2Proof.Proofs

/-- Settles O15: each read leaves the command running, and the step after the last one completes it. -/
theorem readsThenCompletion : Obligations.ReadsThenCompletion := by
  intro s hb hreads
  obtain ⟨u, hrun, -, -⟩ := run_reads_completes hreads rfl hb
  exact ⟨_, hrun, complete_idle u _⟩

/-- Settles O11: the step performs the reset event, which replaces the whole block. -/
theorem resetEventRestoresTheBlock : Obligations.ResetEventRestoresTheBlock := by
  intro s rest h
  exact ⟨_, step_of_cons h, rfl, rfl, rfl⟩

end Sys2Proof.Proofs
end
